-- ==== Sys2Proof/Word.lean ====
section
/-! DEFINITION. The word types of the hardware: a byte of the data buffer, a 32-bit word of the host port
(also the command word), and the 256-bit value of a general register or of a point coordinate. -/

namespace Sys2Proof

/-- A byte of `BUF` or of a byte string (R8, R14). -/
abbrev Byte := BitVec 8

/-- A 32-bit word: host data, `STATUS`, a command word, a working word of the two hashes (R30, R50, R120). -/
abbrev Word32 := BitVec 32

/-- A 256-bit value: a general register or a stored coordinate, an unsigned integer in `[0, 2^256)` (R11, R13). -/
abbrev Word := BitVec 256

/-- A byte string, first byte first (R8). -/
abbrev Bytes := List Byte

end Sys2Proof
end

