-- ==== Sys2Proof/Config.lean ====
section
/-! DEFINITION. The constants and parameters of the hardware (R7 [00_scope.md], R16 [10_state.md]). None of them is
state and none is a free value: the spec leaves no value open (R20). -/

namespace Sys2Proof.Config

/-- The prime of the coordinate field (R16). -/
def p : Nat := 0xFFFFFFFFFFFFFFFFFFFFFFFFFFFFFFFFFFFFFFFFFFFFFFFFFFFFFFFEFFFFFC2F

/-- The prime order of the group generated by `G` (R16). -/
def n : Nat := 0xFFFFFFFFFFFFFFFFFFFFFFFFFFFFFFFEBAAEDCE6AF48A03BBFD25E8CD0364141

/-- `b` of the curve equation `y^2 = x^3 + a x + b`, whose `a` is 0 (R16). -/
def b : Word := 7

/-- The x coordinate of the generator `G` (R16). -/
def gx : Word := 0x79BE667EF9DCBBAC55A06295CE870B07029BFCDB2DCE28D959F2815B16F81798

/-- The y coordinate of the generator `G` (R16). -/
def gy : Word := 0x483ADA7726A3C4655DA4FBFC0E1108A8FD17B448A68554199C47D08FFB10D4B8

/-- `HALF_N = (n-1) div 2`, the greatest canonical `s` (R16). -/
def halfN : Nat := 0x7FFFFFFFFFFFFFFFFFFFFFFFFFFFFFFF5D576E7357A4501DDFE92F46681B20A0

/-- `BUF_SIZE`: bytes of the data buffer (R7). -/
def bufSize : Nat := 256

/-- `SCALAR_ITER`: iterations of the scalar-multiply bit scan (R7). -/
def scalarIter : Nat := 256

/-- `NONCE_ATTEMPTS`: nonce candidates tried by one signature (R7; the spec's decision D23). -/
def nonceAttempts : Nat := 8

/-- `KDF_ATTEMPTS`: digests tried by one private-key derivation (R7; the spec's decision D18). -/
def kdfAttempts : Nat := 4

end Sys2Proof.Config
end

