-- ==== Sys2Proof/Syntax.lean ====
section
/-! DEFINITION. The commands as syntax: one constructor per row of the opcode table (R55 [30_encoding.md]).
Operands carry their exact ranges: a general register is one of 16, a point register one of 4 (R51), an immediate or a
buffer offset is 8 bits (R51 to R53), the two flags of `KEYPAIR` are two Booleans (R53). -/

namespace Sys2Proof

/-- The index of a general register `x[i]` (R11). -/
abbrev XReg := Fin 16

/-- The index of a point register `pt[i]` (R13). -/
abbrev PReg := Fin 4

/-- The 37 commands, operands in the assembler's order (R59): destination first. -/
inductive Instr where
  -- data movement (R70 to R74)
  | nop
  | li (rd : XReg) (imm8 : Byte)
  | mov (rd rs1 : XReg)
  | ldw (rd : XReg) (off : Byte)
  | stw (rs1 : XReg) (off : Byte)
  -- arithmetic mod p (R84 to R88)
  | fadd (rd rs1 rs2 : XReg)
  | fsub (rd rs1 rs2 : XReg)
  | fmul (rd rs1 rs2 : XReg)
  | finv (rd rs1 : XReg)
  | fred (rd rs1 rs2 : XReg)
  -- arithmetic mod n (R89 to R93)
  | sadd (rd rs1 rs2 : XReg)
  | ssub (rd rs1 rs2 : XReg)
  | smul (rd rs1 rs2 : XReg)
  | sinv (rd rs1 : XReg)
  | sred (rd rs1 rs2 : XReg)
  -- curve points (R104 to R112)
  | pinf (pd : PReg)
  | pgen (pd : PReg)
  | pset (pd : PReg) (rs1 rs2 : XReg)
  | pmov (pd ps1 : PReg)
  | pgetx (rd : XReg) (ps1 : PReg)
  | pgety (rd : XReg) (ps1 : PReg)
  | padd (pd ps1 ps2 : PReg)
  | pdbl (pd ps1 : PReg)
  | pmul (pd ps1 : PReg) (rs2 : XReg)
  -- hashes (R124 to R127)
  | sha256 (dst src len : Byte)
  | sha256d (dst src len : Byte)
  | rmd160 (dst src len : Byte)
  | hash160 (dst src len : Byte)
  -- keys and encodings (R144 to R148)
  | dpriv (rd rs1 rs2 : XReg)
  | dpub (pd : PReg) (rs1 : XReg)
  | encu (ps1 : PReg) (off : Byte)
  | encc (ps1 : PReg) (off : Byte)
  | keypair (rs1 rs2 : XReg) (off : Byte) (testnet addrCompressed : Bool)
  -- addresses (R161, R162)
  | genaddr (dst src len : Byte)
  | genaddrt (dst src len : Byte)
  -- signatures (R174, R175)
  | sign (rs1 rs2 : XReg) (off : Byte)
  | signtx (rs1 rs2 : XReg) (off : Byte) (imm8 : Byte)
  deriving DecidableEq, Repr

end Sys2Proof
end

