-- ==== Sys2Proof/WellFormed.lean ====
section
/-! DEFINITION. Well-formed commands. The register indices and immediates of a command are in range by their types, so
what is left to check of a command as syntax is what the hardware refuses by an interface error whatever the state: a
public-key length other than 33 or 65 (`E_LEN`) and a buffer range past the end of `BUF` (`E_RANGE`). "A host that issues
only well-formed commands never sees them" (R194 [60_exceptions.md]; R37 [20_memory.md]; R161). An ill-formed command
still has an encoding and still decodes: the hardware decodes it and then refuses it by name (R196). -/

namespace Sys2Proof

/-- A buffer access of `len` bytes at offset `off` lies inside `BUF`: no wrap-around (R37). -/
def fitsBuf (off len : Nat) : Bool := decide (off + len ≤ Config.bufSize)

/-- The two lengths of a public key (R161): compressed 33, uncompressed 65. -/
def pubkeyLen (len : Nat) : Bool := len == 33 || len == 65

/-- The length check of a command: only the address commands have one (R161, R162; step (3) of R196). -/
def Instr.lenOk : Instr → Bool
  | .genaddr _ _ len | .genaddrt _ _ len => pubkeyLen len.toNat
  | .nop | .li .. | .mov .. | .ldw .. | .stw .. | .fadd .. | .fsub .. | .fmul .. | .finv .. | .fred .. | .sadd .. | .ssub ..
  | .smul .. | .sinv .. | .sred .. | .pinf .. | .pgen .. | .pset .. | .pmov .. | .pgetx .. | .pgety .. | .padd .. | .pdbl ..
  | .pmul .. | .sha256 .. | .sha256d .. | .rmd160 .. | .hash160 .. | .dpriv .. | .dpub .. | .encu .. | .encc .. | .keypair ..
  | .sign .. | .signtx .. => true

/-- Every buffer range of a command, by the widths of R34, lies inside `BUF` (step (4) of R196). -/
def Instr.rangesOk : Instr → Bool
  | .ldw _ off | .stw _ off => fitsBuf off.toNat 32
  | .sha256 dst src len | .sha256d dst src len => fitsBuf src.toNat len.toNat && fitsBuf dst.toNat 32
  | .rmd160 dst src len | .hash160 dst src len => fitsBuf src.toNat len.toNat && fitsBuf dst.toNat 20
  | .encu _ off => fitsBuf off.toNat 65
  | .encc _ off => fitsBuf off.toNat 33
  | .keypair _ _ off _ _ => fitsBuf off.toNat 155
  | .genaddr dst src len | .genaddrt dst src len => fitsBuf src.toNat len.toNat && fitsBuf dst.toNat 25
  | .sign _ _ off => fitsBuf off.toNat 65
  | .signtx _ _ off _ => fitsBuf off.toNat 66
  | .nop | .li .. | .mov .. | .fadd .. | .fsub .. | .fmul .. | .finv .. | .fred .. | .sadd .. | .ssub .. | .smul .. | .sinv ..
  | .sred .. | .pinf .. | .pgen .. | .pset .. | .pmov .. | .pgetx .. | .pgety .. | .padd .. | .pdbl .. | .pmul .. | .dpriv ..
  | .dpub .. => true

/-- A command the hardware never refuses for its form (R194). -/
def Instr.wellFormed (i : Instr) : Bool := i.lenOk && i.rangesOk

end Sys2Proof
end

