-- ==== Sys2Proof/Decode.lean ====
section
/-! DEFINITION. The decoder, total on every 32-bit word and rejecting by name, and after it the encoder, both from the
formats R51 to R53 and the opcode map R55 of 30_encoding.md. A command word comes by value (R12, R50): there is no
instruction memory and no fetch byte order. -/

namespace Sys2Proof

/-! ## The fields of a command word -/

/-- `op`, bits 31:24 of every format (R51 to R53). -/
def opOf (w : Word32) : Byte := w.extractLsb' 24 8

/-- The general register in bits 23:20 (format R `rd`, format S `rs1`). -/
def xHi (w : Word32) : XReg := (w.extractLsb' 20 4).toFin

/-- The general register in bits 19:16 (format R `rs1`, format S `rs2`). -/
def xMid (w : Word32) : XReg := (w.extractLsb' 16 4).toFin

/-- The general register in bits 15:12 (format R `rs2`). -/
def xLo (w : Word32) : XReg := (w.extractLsb' 12 4).toFin

/-- The point register `pd` in bits 21:20 (R51: the low two bits of `rd`). -/
def pHi (w : Word32) : PReg := (w.extractLsb' 20 2).toFin

/-- The point register `ps1` in bits 17:16 (R51: the low two bits of `rs1`). -/
def pMid (w : Word32) : PReg := (w.extractLsb' 16 2).toFin

/-- The point register `ps2` in bits 13:12 (R51: the low two bits of `rs2`). -/
def pLo (w : Word32) : PReg := (w.extractLsb' 12 2).toFin

/-- Bits 23:16 (format B `src`). -/
def byteSrc (w : Word32) : Byte := w.extractLsb' 16 8

/-- Bits 15:8 (format B `len`, format S `off`). -/
def byteMid (w : Word32) : Byte := w.extractLsb' 8 8

/-- Bits 7:0 (format R and S `imm8`, format R `off`, format B `dst`). -/
def byteLow (w : Word32) : Byte := w.extractLsb' 0 8

/-! ## The decoder -/

/-- Why a word is no command; both are refused as `E_ILLEGAL` (R56). -/
inductive Illegal where
  /-- `op` is none of the 37 assigned values. -/
  | unassignedOp
  /-- The opcode is assigned and a bit its mask covers is not as its row says: a non-zero `z` or unused field, a point
  register index above 3, `SIGN` with an `imm8`, `KEYPAIR` with a flag bit above 1. -/
  | nonzeroField
  deriving DecidableEq, Repr

/-- The row of the opcode table with this mask: the mask covers `op`, and every other bit it covers must be 0 (R55). -/
def row (w mask : Word32) (i : Instr) : Except Illegal Instr :=
  if w &&& (mask &&& 0x00FFFFFF) = 0 then .ok i else .error .nonzeroField

/-- The decoder: the row whose `op` the word has, with the mask the opcode table gives it (R55, R56). -/
def decode (w : Word32) : Except Illegal Instr :=
  match (opOf w).toNat with
  | 0x00 => row w 0xFFFFFFFF .nop
  | 0x01 => row w 0xFF0FFF00 (.li (xHi w) (byteLow w))
  | 0x02 => row w 0xFF00FFFF (.mov (xHi w) (xMid w))
  | 0x03 => row w 0xFF0FFF00 (.ldw (xHi w) (byteLow w))
  | 0x04 => row w 0xFFF0FF00 (.stw (xMid w) (byteLow w))
  | 0x10 => row w 0xFF000FFF (.fadd (xHi w) (xMid w) (xLo w))
  | 0x11 => row w 0xFF000FFF (.fsub (xHi w) (xMid w) (xLo w))
  | 0x12 => row w 0xFF000FFF (.fmul (xHi w) (xMid w) (xLo w))
  | 0x13 => row w 0xFF00FFFF (.finv (xHi w) (xMid w))
  | 0x14 => row w 0xFF000FFF (.fred (xHi w) (xMid w) (xLo w))
  | 0x18 => row w 0xFF000FFF (.sadd (xHi w) (xMid w) (xLo w))
  | 0x19 => row w 0xFF000FFF (.ssub (xHi w) (xMid w) (xLo w))
  | 0x1A => row w 0xFF000FFF (.smul (xHi w) (xMid w) (xLo w))
  | 0x1B => row w 0xFF00FFFF (.sinv (xHi w) (xMid w))
  | 0x1C => row w 0xFF000FFF (.sred (xHi w) (xMid w) (xLo w))
  | 0x20 => row w 0xFFCFFFFF (.pinf (pHi w))
  | 0x21 => row w 0xFFCFFFFF (.pgen (pHi w))
  | 0x22 => row w 0xFFC00FFF (.pset (pHi w) (xMid w) (xLo w))
  | 0x23 => row w 0xFFCCFFFF (.pmov (pHi w) (pMid w))
  | 0x24 => row w 0xFF0CFFFF (.pgetx (xHi w) (pMid w))
  | 0x25 => row w 0xFF0CFFFF (.pgety (xHi w) (pMid w))
  | 0x28 => row w 0xFFCCCFFF (.padd (pHi w) (pMid w) (pLo w))
  | 0x29 => row w 0xFFCCFFFF (.pdbl (pHi w) (pMid w))
  | 0x2A => row w 0xFFCC0FFF (.pmul (pHi w) (pMid w) (xLo w))
  | 0x30 => row w 0xFF000000 (.sha256 (byteLow w) (byteSrc w) (byteMid w))
  | 0x31 => row w 0xFF000000 (.sha256d (byteLow w) (byteSrc w) (byteMid w))
  | 0x32 => row w 0xFF000000 (.rmd160 (byteLow w) (byteSrc w) (byteMid w))
  | 0x33 => row w 0xFF000000 (.hash160 (byteLow w) (byteSrc w) (byteMid w))
  | 0x40 => row w 0xFF000FFF (.dpriv (xHi w) (xMid w) (xLo w))
  | 0x41 => row w 0xFFC0FFFF (.dpub (pHi w) (xMid w))
  | 0x42 => row w 0xFFFCFF00 (.encu (pMid w) (byteLow w))
  | 0x43 => row w 0xFFFCFF00 (.encc (pMid w) (byteLow w))
  | 0x44 => row w 0xFF0000FC (.keypair (xHi w) (xMid w) (byteMid w) (w.getLsbD 0) (w.getLsbD 1))
  | 0x50 => row w 0xFF000000 (.genaddr (byteLow w) (byteSrc w) (byteMid w))
  | 0x51 => row w 0xFF000000 (.genaddrt (byteLow w) (byteSrc w) (byteMid w))
  | 0x60 => row w 0xFF0000FF (.sign (xHi w) (xMid w) (byteMid w))
  | 0x61 => row w 0xFF000000 (.signtx (xHi w) (xMid w) (byteMid w) (byteLow w))
  | _ => .error .unassignedOp

/-! ## The encoder -/

/-- A general register field, 4 bits (R51). -/
def xField (r : XReg) : BitVec 4 := BitVec.ofFin r

/-- A point register field, 4 bits whose upper two are 0 (R51). -/
def pField (r : PReg) : BitVec 4 := 0#2 ++ (BitVec.ofFin r : BitVec 2)

/-- A format R word: `op rd rs1 rs2 z imm8`, with `z` 0 (R51). -/
def formatR (op : Byte) (rd rs1 rs2 : BitVec 4) (imm8 : Byte) : Word32 := op ++ rd ++ rs1 ++ rs2 ++ 0#4 ++ imm8

/-- A format B word: `op src len dst` (R52). -/
def formatB (op src len dst : Byte) : Word32 := op ++ src ++ len ++ dst

/-- A format S word: `op rs1 rs2 off imm8` (R53). -/
def formatS (op : Byte) (rs1 rs2 : BitVec 4) (off imm8 : Byte) : Word32 := op ++ rs1 ++ rs2 ++ off ++ imm8

/-- The `flags` byte of `KEYPAIR`: bit 0 `TESTNET`, bit 1 `ADDR_COMPRESSED`, bits 7:2 zero (R53). -/
def keypairFlags (testnet addrCompressed : Bool) : Byte := 0#6 ++ BitVec.ofBool addrCompressed ++ BitVec.ofBool testnet

/-- The encoder: the one word of each command, fields a command does not use 0 (R51 to R55). -/
def encode : Instr → Word32
  | .nop => formatR 0x00 0 0 0 0
  | .li rd imm8 => formatR 0x01 (xField rd) 0 0 imm8
  | .mov rd rs1 => formatR 0x02 (xField rd) (xField rs1) 0 0
  | .ldw rd off => formatR 0x03 (xField rd) 0 0 off
  | .stw rs1 off => formatR 0x04 0 (xField rs1) 0 off
  | .fadd rd rs1 rs2 => formatR 0x10 (xField rd) (xField rs1) (xField rs2) 0
  | .fsub rd rs1 rs2 => formatR 0x11 (xField rd) (xField rs1) (xField rs2) 0
  | .fmul rd rs1 rs2 => formatR 0x12 (xField rd) (xField rs1) (xField rs2) 0
  | .finv rd rs1 => formatR 0x13 (xField rd) (xField rs1) 0 0
  | .fred rd rs1 rs2 => formatR 0x14 (xField rd) (xField rs1) (xField rs2) 0
  | .sadd rd rs1 rs2 => formatR 0x18 (xField rd) (xField rs1) (xField rs2) 0
  | .ssub rd rs1 rs2 => formatR 0x19 (xField rd) (xField rs1) (xField rs2) 0
  | .smul rd rs1 rs2 => formatR 0x1A (xField rd) (xField rs1) (xField rs2) 0
  | .sinv rd rs1 => formatR 0x1B (xField rd) (xField rs1) 0 0
  | .sred rd rs1 rs2 => formatR 0x1C (xField rd) (xField rs1) (xField rs2) 0
  | .pinf pd => formatR 0x20 (pField pd) 0 0 0
  | .pgen pd => formatR 0x21 (pField pd) 0 0 0
  | .pset pd rs1 rs2 => formatR 0x22 (pField pd) (xField rs1) (xField rs2) 0
  | .pmov pd ps1 => formatR 0x23 (pField pd) (pField ps1) 0 0
  | .pgetx rd ps1 => formatR 0x24 (xField rd) (pField ps1) 0 0
  | .pgety rd ps1 => formatR 0x25 (xField rd) (pField ps1) 0 0
  | .padd pd ps1 ps2 => formatR 0x28 (pField pd) (pField ps1) (pField ps2) 0
  | .pdbl pd ps1 => formatR 0x29 (pField pd) (pField ps1) 0 0
  | .pmul pd ps1 rs2 => formatR 0x2A (pField pd) (pField ps1) (xField rs2) 0
  | .sha256 dst src len => formatB 0x30 src len dst
  | .sha256d dst src len => formatB 0x31 src len dst
  | .rmd160 dst src len => formatB 0x32 src len dst
  | .hash160 dst src len => formatB 0x33 src len dst
  | .dpriv rd rs1 rs2 => formatR 0x40 (xField rd) (xField rs1) (xField rs2) 0
  | .dpub pd rs1 => formatR 0x41 (pField pd) (xField rs1) 0 0
  | .encu ps1 off => formatR 0x42 0 (pField ps1) 0 off
  | .encc ps1 off => formatR 0x43 0 (pField ps1) 0 off
  | .keypair rs1 rs2 off testnet addrCompressed => formatS 0x44 (xField rs1) (xField rs2) off (keypairFlags testnet addrCompressed)
  | .genaddr dst src len => formatB 0x50 src len dst
  | .genaddrt dst src len => formatB 0x51 src len dst
  | .sign rs1 rs2 off => formatS 0x60 (xField rs1) (xField rs2) off 0
  | .signtx rs1 rs2 off imm8 => formatS 0x61 (xField rs1) (xField rs2) off imm8

/-! ## The opcode table as data -/

/-- A row of the opcode table: a word is its command when `w AND mask = match` (R55). -/
structure OpcodeRow where
  pattern : Word32
  mask : Word32
  deriving DecidableEq, Repr

/-- A word matches a row (R55). -/
def OpcodeRow.holds (r : OpcodeRow) (w : Word32) : Bool := w &&& r.mask == r.pattern

/-- Rows `0x0_` and `0x1_` of R55. -/
def opcodeRowsArith : List OpcodeRow :=
  [⟨0x00000000, 0xFFFFFFFF⟩, ⟨0x01000000, 0xFF0FFF00⟩, ⟨0x02000000, 0xFF00FFFF⟩, ⟨0x03000000, 0xFF0FFF00⟩,
   ⟨0x04000000, 0xFFF0FF00⟩, ⟨0x10000000, 0xFF000FFF⟩, ⟨0x11000000, 0xFF000FFF⟩, ⟨0x12000000, 0xFF000FFF⟩,
   ⟨0x13000000, 0xFF00FFFF⟩, ⟨0x14000000, 0xFF000FFF⟩, ⟨0x18000000, 0xFF000FFF⟩, ⟨0x19000000, 0xFF000FFF⟩,
   ⟨0x1A000000, 0xFF000FFF⟩, ⟨0x1B000000, 0xFF00FFFF⟩, ⟨0x1C000000, 0xFF000FFF⟩]

/-- Rows `0x2_` and `0x3_` of R55. -/
def opcodeRowsPoint : List OpcodeRow :=
  [⟨0x20000000, 0xFFCFFFFF⟩, ⟨0x21000000, 0xFFCFFFFF⟩, ⟨0x22000000, 0xFFC00FFF⟩, ⟨0x23000000, 0xFFCCFFFF⟩,
   ⟨0x24000000, 0xFF0CFFFF⟩, ⟨0x25000000, 0xFF0CFFFF⟩, ⟨0x28000000, 0xFFCCCFFF⟩, ⟨0x29000000, 0xFFCCFFFF⟩,
   ⟨0x2A000000, 0xFFCC0FFF⟩, ⟨0x30000000, 0xFF000000⟩, ⟨0x31000000, 0xFF000000⟩, ⟨0x32000000, 0xFF000000⟩,
   ⟨0x33000000, 0xFF000000⟩]

/-- Rows `0x4_` to `0x6_` of R55. -/
def opcodeRowsKeys : List OpcodeRow :=
  [⟨0x40000000, 0xFF000FFF⟩, ⟨0x41000000, 0xFFC0FFFF⟩, ⟨0x42000000, 0xFFFCFF00⟩, ⟨0x43000000, 0xFFFCFF00⟩,
   ⟨0x44000000, 0xFF0000FC⟩, ⟨0x50000000, 0xFF000000⟩, ⟨0x51000000, 0xFF000000⟩, ⟨0x60000000, 0xFF0000FF⟩,
   ⟨0x61000000, 0xFF000000⟩]

/-- The 37 rows of the opcode table (R55). -/
def opcodeTable : List OpcodeRow := opcodeRowsArith ++ opcodeRowsPoint ++ opcodeRowsKeys

/-- The row of a command in the opcode table (R55). -/
def Instr.tableRow : Instr → OpcodeRow
  | .nop => ⟨0x00000000, 0xFFFFFFFF⟩
  | .li .. => ⟨0x01000000, 0xFF0FFF00⟩
  | .mov .. => ⟨0x02000000, 0xFF00FFFF⟩
  | .ldw .. => ⟨0x03000000, 0xFF0FFF00⟩
  | .stw .. => ⟨0x04000000, 0xFFF0FF00⟩
  | .fadd .. => ⟨0x10000000, 0xFF000FFF⟩
  | .fsub .. => ⟨0x11000000, 0xFF000FFF⟩
  | .fmul .. => ⟨0x12000000, 0xFF000FFF⟩
  | .finv .. => ⟨0x13000000, 0xFF00FFFF⟩
  | .fred .. => ⟨0x14000000, 0xFF000FFF⟩
  | .sadd .. => ⟨0x18000000, 0xFF000FFF⟩
  | .ssub .. => ⟨0x19000000, 0xFF000FFF⟩
  | .smul .. => ⟨0x1A000000, 0xFF000FFF⟩
  | .sinv .. => ⟨0x1B000000, 0xFF00FFFF⟩
  | .sred .. => ⟨0x1C000000, 0xFF000FFF⟩
  | .pinf .. => ⟨0x20000000, 0xFFCFFFFF⟩
  | .pgen .. => ⟨0x21000000, 0xFFCFFFFF⟩
  | .pset .. => ⟨0x22000000, 0xFFC00FFF⟩
  | .pmov .. => ⟨0x23000000, 0xFFCCFFFF⟩
  | .pgetx .. => ⟨0x24000000, 0xFF0CFFFF⟩
  | .pgety .. => ⟨0x25000000, 0xFF0CFFFF⟩
  | .padd .. => ⟨0x28000000, 0xFFCCCFFF⟩
  | .pdbl .. => ⟨0x29000000, 0xFFCCFFFF⟩
  | .pmul .. => ⟨0x2A000000, 0xFFCC0FFF⟩
  | .sha256 .. => ⟨0x30000000, 0xFF000000⟩
  | .sha256d .. => ⟨0x31000000, 0xFF000000⟩
  | .rmd160 .. => ⟨0x32000000, 0xFF000000⟩
  | .hash160 .. => ⟨0x33000000, 0xFF000000⟩
  | .dpriv .. => ⟨0x40000000, 0xFF000FFF⟩
  | .dpub .. => ⟨0x41000000, 0xFFC0FFFF⟩
  | .encu .. => ⟨0x42000000, 0xFFFCFF00⟩
  | .encc .. => ⟨0x43000000, 0xFFFCFF00⟩
  | .keypair .. => ⟨0x44000000, 0xFF0000FC⟩
  | .genaddr .. => ⟨0x50000000, 0xFF000000⟩
  | .genaddrt .. => ⟨0x51000000, 0xFF000000⟩
  | .sign .. => ⟨0x60000000, 0xFF0000FF⟩
  | .signtx .. => ⟨0x61000000, 0xFF000000⟩

/-! ## The host's reading of the table's words -/

/-- The command the decoder reads from a word numbered as spec/opcode_table.json numbers it: every command is one 32-bit
word (R50), so the bits from `nbits` up are 0 and a number past 32 bits is no command word. -/
def decodeTableWord (nbits w : Nat) : Option Instr :=
  if w % 2 ^ nbits < 2 ^ 32 then (decode (BitVec.ofNat 32 (w % 2 ^ nbits))).toOption else none

end Sys2Proof
end

