-- ==== Sys2Proof/Machine/State.lean ====
section
/-! DEFINITION. The state of the hardware as plain data: the tuple `(x, pt, BUF, STATUS)` of R10 [10_state.md], and two
lists of the model's own that stand for the host's side of the port (log 1, log 2). `PTINF` is a view of `pt` and `CMD`
holds nothing (R17, R18), so neither is a field; the constants are in Config (R16, R20). -/

namespace Sys2Proof.Machine

/-- A value of a point register: the identity, or a pair of coordinates (R13). The stored form of `Inf`, `inf = 1, xc = 0,
yc = 0`, is its only one, so it is a constructor without data. -/
inductive Point where
  | inf
  | aff (x y : Word)
  deriving DecidableEq, Repr

/-- The data buffer: (address, byte) cells in one canonical form (`Memory.wf`): addresses strictly rising, and no cell
equal to what an unlisted address reads as (R14). -/
abbrev Memory := List Host.Cell

/-- What a byte of `BUF` that no cell lists holds: its reset value 0x00 (R14, R22). -/
def Memory.blank : Byte := 0

/-- The canonical form: addresses strictly rising, all below `BUF_SIZE`, no blank byte listed. -/
abbrev Memory.wf (m : Memory) : Prop :=
  m.Pairwise (fun c d => c.1 < d.1) ∧ ∀ c ∈ m, c.1 < Config.bufSize ∧ c.2 ≠ Memory.blank

/-- What the outside does at the port, one event a step: a host transaction (R31) or reset (R220). The port carries a word
address (R36), so the byte address is four times `wa`, and a misaligned, narrower or outside access has no event (U21). -/
inductive HostEvent where
  | read (wa : BitVec 8)
  | write (wa : BitVec 8) (d : Word32)
  | reset
  deriving DecidableEq, Repr

/-- The state. `x`: R11. `pt`: R13. `buf`: R14. `status`: R15. `pending`: the events to come, oldest first (log 1).
`replies`: the values host reads have returned, oldest first (log 2). -/
structure State where
  x : Vector Word 16
  pt : Vector Point 4
  buf : Memory
  status : Word32
  pending : List HostEvent
  replies : List Word32
  deriving DecidableEq, Repr

/-- The state right after reset (R22, R221), with no event pending and no reply given (log 1, log 2). -/
def State.reset : State where
  x := Vector.replicate 16 0
  pt := Vector.replicate 4 .inf
  buf := []
  status := 0
  pending := []
  replies := []

/-- Why a command fails (R191): the errors, then the fatal failures, then the refusal of a halted engine. Each is raised by
the commands R191 lists beside it and ends in a next state, because the host port goes on working (R190, R192, R193). -/
inductive Cause where
  | eIllegal
  | eRange
  | eLen
  | eNotOnCurve
  | eEntropy
  | eSalt
  | ePrivkey
  | fInvZero
  | fIdentity
  | fRetryNonce
  | fRetryKdf
  | eHalted
  deriving DecidableEq, Repr

/-- Why the machine stops. It never does: every command, legal or not, every host transaction and reset has a next state
(R20, R31, R190), an access outside the window cannot be expressed (U21), and a fatal failure halts the engine and not the
machine (R193). So the type has no constructor and nothing raises it, which is neither safe nor unsafe (log 6). -/
inductive Fault where
  deriving DecidableEq, Repr

/-- Why a command has no meaning. -/
inductive Refusal where
  /-- Answered by an arm of `exec` whose instruction has no meaning yet. Safe: nothing is claimed of it. No arm answers it. -/
  | notModelled (mnemonic : String)
  deriving DecidableEq, Repr

end Sys2Proof.Machine
end

