-- ==== Sys2Proof/Machine/Field.lean ====
section
/-! DEFINITION. Arithmetic modulo `p` and modulo `n` (R80 to R83 [41_modular_arithmetic.md]). Operands are any values in
`[0, 2^256)`; each result is the canonical residue of the exact integer result, computed over unbounded integers (R227) and
narrowed at the end. Values are ordinary integers, never Montgomery residues (R95). -/

namespace Sys2Proof.Machine

/-- `ModAdd(a, b, m)` (R80). -/
def modAdd (m : Nat) (a b : Word) : Word := BitVec.ofNat 256 ((a.toNat + b.toNat) % m)

/-- `ModSub(a, b, m)`: the non-negative residue, also when `a < b` (R81). -/
def modSub (m : Nat) (a b : Word) : Word := BitVec.ofNat 256 (((a.toNat : Int) - (b.toNat : Int)) % (m : Int)).toNat

/-- `ModMul(a, b, m)`, over the exact product (R82). -/
def modMul (m : Nat) (a b : Word) : Word := BitVec.ofNat 256 ((a.toNat * b.toNat) % m)

/-- A 512-bit value, high half `hi` and low half `lo`, reduced (R88, R93). -/
def modRed (m : Nat) (hi lo : Word) : Word := BitVec.ofNat 256 ((hi.toNat * 2 ^ 256 + lo.toNat) % m)

/-- The scan of `ModInv`: bits `i-1` down to 0 of the exponent `e`, `r` so far (R83). -/
def modPowScan (m : Nat) (a : Word) (e : Nat) : Nat → Word → Word
  | 0, r => r
  | i + 1, r =>
    let sq := modMul m r r
    modPowScan m a e i (if e.testBit i then modMul m sq a else sq)

/-- `ModInv(a, m)`: `a'^(m-2) mod m` by exactly 256 iterations, most significant exponent bit first; the inverse of a multiple
of `m` is the fatal failure `F_INV_ZERO` (R83). -/
def modInv (m : Nat) (a : Word) : Except Cause Word :=
  if a.toNat % m = 0 then .error .fInvZero
  else .ok (modPowScan m (BitVec.ofNat 256 (a.toNat % m)) (m - 2) 256 1)

/-- `FieldAdd` (R80). -/
def fieldAdd : Word → Word → Word := modAdd Config.p
/-- `FieldSub` (R81). -/
def fieldSub : Word → Word → Word := modSub Config.p
/-- `FieldMul` (R82). -/
def fieldMul : Word → Word → Word := modMul Config.p
/-- `FieldInv` (R83). -/
def fieldInv : Word → Except Cause Word := modInv Config.p

/-- `ScalarAdd` (R80). -/
def scalarAdd : Word → Word → Word := modAdd Config.n
/-- `ScalarSub` (R81). -/
def scalarSub : Word → Word → Word := modSub Config.n
/-- `ScalarMul` (R82). -/
def scalarMul : Word → Word → Word := modMul Config.n
/-- `ScalarInv` (R83). -/
def scalarInv : Word → Except Cause Word := modInv Config.n

end Sys2Proof.Machine
end

