-- ==== Sys2Proof/Machine/Curve.lean ====
section
/-! DEFINITION. The secp256k1 group law in affine coordinates (R100 to R103 [42_curve_point.md]). `FieldInv` can raise, so
the functions can: the spec keeps the fatal arms although the invariant of R21 makes them dead (R195). -/

namespace Sys2Proof.Machine

/-- The generator `G` (R16). -/
def generator : Point := .aff Config.gx Config.gy

/-- `OnCurve(x, y)`: both coordinates are field elements and `y^2 = x^3 + 7` (R103). -/
def onCurve (x y : Word) : Bool :=
  decide (x.toNat < Config.p) && decide (y.toNat < Config.p) &&
    fieldMul y y == fieldAdd (fieldMul (fieldMul x x) x) Config.b

/-- `PointDouble(P)`, with the guard for `y = 0` (R101). -/
def pointDouble : Point → Except Cause Point
  | .inf => .ok .inf
  | .aff x1 y1 =>
    if y1 = 0 then .ok .inf
    else do
      let inv ← fieldInv (fieldMul 2 y1)
      let lam := fieldMul (fieldMul 3 (fieldMul x1 x1)) inv
      let x3 := fieldSub (fieldMul lam lam) (fieldMul 2 x1)
      .ok (.aff x3 (fieldSub (fieldMul lam (fieldSub x1 x3)) y1))

/-- `PointAdd(P, Q)`, the complete group law: `P = -Q` gives `Inf`, `P = Q` doubles (R100). -/
def pointAdd : Point → Point → Except Cause Point
  | .inf, Q => .ok Q
  | .aff x1 y1, .inf => .ok (.aff x1 y1)
  | .aff x1 y1, .aff x2 y2 =>
    if x1 = x2 then
      if fieldAdd y1 y2 = 0 then .ok .inf else pointDouble (.aff x1 y1)
    else do
      let inv ← fieldInv (fieldSub x2 x1)
      let lam := fieldMul (fieldSub y2 y1) inv
      let x3 := fieldSub (fieldSub (fieldMul lam lam) x1) x2
      .ok (.aff x3 (fieldSub (fieldMul lam (fieldSub x1 x3)) y1))

/-- The scan of `ScalarMultiply`: bits `i-1` down to 0 of `k`, `acc` so far (R102). -/
def scalarScan (P : Point) (k : Word) : Nat → Point → Except Cause Point
  | 0, acc => .ok acc
  | i + 1, acc => do
    let dbl ← pointDouble acc
    let acc' ← if k.getLsbD i then pointAdd dbl P else .ok dbl
    scalarScan P k i acc'

/-- `ScalarMultiply(P, k)`: exactly 256 iterations, most significant bit first; `k` is neither reduced nor checked (R102). -/
def scalarMultiply (P : Point) (k : Word) : Except Cause Point := scalarScan P k Config.scalarIter .inf

end Sys2Proof.Machine
end

