-- ==== Sys2Proof/Machine/ByteString.lean ====
section
/-! DEFINITION. Byte strings and their integers (R8 [00_scope.md], R35 [20_memory.md]): big-endian everywhere, little-endian
only inside RIPEMD-160. -/

namespace Sys2Proof.Machine

/-- `be(s)`: the big-endian integer of a byte string (R8). -/
def be (s : Bytes) : Nat := s.foldl (fun acc b => acc * 256 + b.toNat) 0

/-- `bytes_be(v, k)`: the `k` bytes of `v`, most significant first (R8). -/
def bytesBe (v : Nat) : Nat → Bytes
  | 0 => []
  | k + 1 => BitVec.ofNat 8 (v / 256 ^ k) :: bytesBe v k

/-- The little-endian integer of a byte string (R8 `le32`). -/
def le (s : Bytes) : Nat := s.foldr (fun b acc => acc * 256 + b.toNat) 0

/-- `bytes_le(v, k)`: the `k` bytes of `v`, least significant first (R8). -/
def bytesLe (v : Nat) : Nat → Bytes
  | 0 => []
  | k + 1 => BitVec.ofNat 8 v :: bytesLe (v / 256) k

/-- `rep(v, k)`: `k` copies of one byte (R8). -/
def rep (v : Byte) (k : Nat) : Bytes := List.replicate k v

/-- The big-endian integer of a byte string as a 256-bit value; exact for 32 bytes or fewer. -/
def beWord (s : Bytes) : Word := BitVec.ofNat 256 (be s)

/-- The 32-byte string `bytes_be(v, 32)` of a register value (R35). -/
def wordBytes (v : Word) : Bytes := bytesBe v.toNat 32

/-- A byte string cut into its consecutive pieces of `k` bytes, `fuel` of them at the most; a shorter rest is dropped. -/
def pieces (k : Nat) : Nat → Bytes → List Bytes
  | 0, _ => []
  | fuel + 1, s => if s.length < k then [] else s.take k :: pieces k fuel (s.drop k)

end Sys2Proof.Machine
end

