-- ==== Sys2Proof/Machine/Sha256.lean ====
section
/-! DEFINITION. SHA-256 (R120 [43_hash.md], the unit `sha256_core`) and the double hash of R121. The spec gives the algorithm
in full from general knowledge (K5); this file follows its text. -/

namespace Sys2Proof.Machine

/-! ## Constants -/

/-- The initial hash value (R120). -/
def sha256Init : List Word32 :=
  [0x6A09E667, 0xBB67AE85, 0x3C6EF372, 0xA54FF53A, 0x510E527F, 0x9B05688C, 0x1F83D9AB, 0x5BE0CD19]

/-- The round constants `K[0..31]` (R120). -/
def sha256KLow : List Word32 :=
  [0x428A2F98, 0x71374491, 0xB5C0FBCF, 0xE9B5DBA5, 0x3956C25B, 0x59F111F1, 0x923F82A4, 0xAB1C5ED5] ++
  [0xD807AA98, 0x12835B01, 0x243185BE, 0x550C7DC3, 0x72BE5D74, 0x80DEB1FE, 0x9BDC06A7, 0xC19BF174] ++
  [0xE49B69C1, 0xEFBE4786, 0x0FC19DC6, 0x240CA1CC, 0x2DE92C6F, 0x4A7484AA, 0x5CB0A9DC, 0x76F988DA] ++
  [0x983E5152, 0xA831C66D, 0xB00327C8, 0xBF597FC7, 0xC6E00BF3, 0xD5A79147, 0x06CA6351, 0x14292967]

/-- The round constants `K[32..63]` (R120). -/
def sha256KHigh : List Word32 :=
  [0x27B70A85, 0x2E1B2138, 0x4D2C6DFC, 0x53380D13, 0x650A7354, 0x766A0ABB, 0x81C2C92E, 0x92722C85] ++
  [0xA2BFE8A1, 0xA81A664B, 0xC24B8B70, 0xC76C51A3, 0xD192E819, 0xD6990624, 0xF40E3585, 0x106AA070] ++
  [0x19A4C116, 0x1E376C08, 0x2748774C, 0x34B0BCB5, 0x391C0CB3, 0x4ED8AA4A, 0x5B9CCA4F, 0x682E6FF3] ++
  [0x748F82EE, 0x78A5636F, 0x84C87814, 0x8CC70208, 0x90BEFFFA, 0xA4506CEB, 0xBEF9A3F7, 0xC67178F2]

/-- The round constants `K[0..63]` (R120). -/
def sha256K : List Word32 := sha256KLow ++ sha256KHigh

/-! ## Functions on words -/

/-- `Ch` (R120). -/
def ch (x y z : Word32) : Word32 := (x &&& y) ^^^ (~~~x &&& z)
/-- `Maj` (R120). -/
def maj (x y z : Word32) : Word32 := (x &&& y) ^^^ (x &&& z) ^^^ (y &&& z)
/-- `BSIG0` (R120). -/
def bsig0 (x : Word32) : Word32 := x.rotateRight 2 ^^^ x.rotateRight 13 ^^^ x.rotateRight 22
/-- `BSIG1` (R120). -/
def bsig1 (x : Word32) : Word32 := x.rotateRight 6 ^^^ x.rotateRight 11 ^^^ x.rotateRight 25
/-- `SSIG0` (R120). -/
def ssig0 (x : Word32) : Word32 := x.rotateRight 7 ^^^ x.rotateRight 18 ^^^ (x >>> 3)
/-- `SSIG1` (R120). -/
def ssig1 (x : Word32) : Word32 := x.rotateRight 17 ^^^ x.rotateRight 19 ^^^ (x >>> 10)

/-! ## Padding, schedule, rounds -/

/-- The number of zero bytes of the padding: the least `z` that fills a 64-byte block (R120, R122). -/
def padZeros (len : Nat) : Nat := (55 + 64 - len % 64) % 64

/-- The padded message (R120): the length in bits big-endian. -/
def sha256Pad (s : Bytes) : Bytes := s ++ [0x80] ++ rep 0x00 (padZeros s.length) ++ bytesBe (8 * s.length) 8

/-- The words `W[0..15]` of a 64-byte block, big-endian (R120). -/
def beWords (block : Bytes) : List Word32 := (pieces 4 16 block).map fun q => BitVec.ofNat 32 (be q)

/-- One more word of the message schedule, which is held newest word first: `W[t-2]`, `W[t-7]`, `W[t-15]` and `W[t-16]` are
at places 1, 6, 14 and 15 (R120). -/
def scheduleStep (w : List Word32) : List Word32 :=
  (ssig1 (w.getD 1 0) + w.getD 6 0 + ssig0 (w.getD 14 0) + w.getD 15 0) :: w

/-- The message schedule after `k` more words, newest word first. -/
def scheduleFrom : Nat → List Word32 → List Word32
  | 0, w => w
  | k + 1, w => scheduleFrom k (scheduleStep w)

/-- The message schedule `W[0..63]` of a block (R120). -/
def sha256Schedule (block : Bytes) : List Word32 := (scheduleFrom 48 (beWords block).reverse).reverse

/-- The eight working variables `a` to `h` (R120). -/
structure Sha256State where
  (a b c d e f g h : Word32)
  deriving DecidableEq, Repr

/-- One round, with the round's constant and schedule word (R120). -/
def sha256Round (v : Sha256State) (kw : Word32 × Word32) : Sha256State :=
  let t1 := v.h + bsig1 v.e + ch v.e v.f v.g + kw.1 + kw.2
  let t2 := bsig0 v.a + maj v.a v.b v.c
  ⟨t1 + t2, v.a, v.b, v.c, v.d + t1, v.e, v.f, v.g⟩

/-- The chaining value as working variables and back. -/
def Sha256State.ofWords (H : List Word32) : Sha256State :=
  ⟨H.getD 0 0, H.getD 1 0, H.getD 2 0, H.getD 3 0, H.getD 4 0, H.getD 5 0, H.getD 6 0, H.getD 7 0⟩

/-- The working variables in order. -/
def Sha256State.words (v : Sha256State) : List Word32 := [v.a, v.b, v.c, v.d, v.e, v.f, v.g, v.h]

/-- The 64 rounds over one block and the addition to the chaining value (R120). -/
def sha256Block (H : List Word32) (block : Bytes) : List Word32 :=
  let v := (sha256K.zip (sha256Schedule block)).foldl sha256Round (Sha256State.ofWords H)
  List.zipWith (· + ·) H v.words

/-- `SHA256(s)`, 32 bytes (R120). -/
def sha256 (s : Bytes) : Bytes :=
  let M := sha256Pad s
  ((pieces 64 (M.length / 64) M).foldl sha256Block sha256Init).flatMap fun w => bytesBe w.toNat 4

/-- `Sha256d(s)`: the double hash, 32 bytes (R121). -/
def sha256d (s : Bytes) : Bytes := sha256 (sha256 s)

end Sys2Proof.Machine
end

