-- ==== Sys2Proof/Machine/Ripemd160.lean ====
section
/-! DEFINITION. RIPEMD-160 (R122 [43_hash.md], the unit `ripemd160_core`) and `Hash160` (R121). The spec gives the algorithm
in full from general knowledge (K6); this file follows its text. -/

namespace Sys2Proof.Machine

/-! ## Constants -/

/-- The initial value `h0` to `h4` (R122). -/
def rmdInit : List Word32 := [0x67452301, 0xEFCDAB89, 0x98BADCFE, 0x10325476, 0xC3D2E1F0]

/-- The added constants of the left line, one for each of the five rounds (R122). -/
def rmdKL : List Word32 := [0x00000000, 0x5A827999, 0x6ED9EBA1, 0x8F1BBCDC, 0xA953FD4E]

/-- The added constants of the right line (R122). -/
def rmdKR : List Word32 := [0x50A28BE6, 0x5C4DD124, 0x6D703EF3, 0x7A6D76E9, 0x00000000]

/-- Message word selection of the left line, `RL[0..79]` (R122). -/
def rmdRL : List Nat :=
  [0, 1, 2, 3, 4, 5, 6, 7, 8, 9, 10, 11, 12, 13, 14, 15] ++
  [7, 4, 13, 1, 10, 6, 15, 3, 12, 0, 9, 5, 2, 14, 11, 8] ++
  [3, 10, 14, 4, 9, 15, 8, 1, 2, 7, 0, 6, 13, 11, 5, 12] ++
  [1, 9, 11, 10, 0, 8, 12, 4, 13, 3, 7, 15, 14, 5, 6, 2] ++
  [4, 0, 5, 9, 7, 12, 2, 10, 14, 1, 3, 8, 11, 6, 15, 13]

/-- Message word selection of the right line, `RR[0..79]` (R122). -/
def rmdRR : List Nat :=
  [5, 14, 7, 0, 9, 2, 11, 4, 13, 6, 15, 8, 1, 10, 3, 12] ++
  [6, 11, 3, 7, 0, 13, 5, 10, 14, 15, 8, 12, 4, 9, 1, 2] ++
  [15, 5, 1, 3, 7, 14, 6, 9, 11, 8, 12, 2, 10, 0, 4, 13] ++
  [8, 6, 4, 1, 3, 11, 15, 0, 5, 12, 2, 13, 9, 7, 10, 14] ++
  [12, 15, 10, 4, 1, 5, 8, 7, 6, 2, 13, 14, 0, 3, 9, 11]

/-- Rotation amounts of the left line, `SL[0..79]` (R122). -/
def rmdSL : List Nat :=
  [11, 14, 15, 12, 5, 8, 7, 9, 11, 13, 14, 15, 6, 7, 9, 8] ++
  [7, 6, 8, 13, 11, 9, 7, 15, 7, 12, 15, 9, 11, 7, 13, 12] ++
  [11, 13, 6, 7, 14, 9, 13, 15, 14, 8, 13, 6, 5, 12, 7, 5] ++
  [11, 12, 14, 15, 14, 15, 9, 8, 9, 14, 5, 6, 8, 6, 5, 12] ++
  [9, 15, 5, 11, 6, 8, 13, 12, 5, 12, 13, 14, 11, 8, 5, 6]

/-- Rotation amounts of the right line, `SR[0..79]` (R122). -/
def rmdSR : List Nat :=
  [8, 9, 9, 11, 13, 15, 15, 5, 7, 7, 8, 11, 14, 14, 12, 6] ++
  [9, 13, 15, 7, 12, 8, 9, 11, 7, 7, 12, 7, 6, 15, 13, 11] ++
  [9, 7, 15, 11, 8, 6, 6, 14, 12, 13, 5, 14, 13, 13, 7, 5] ++
  [15, 5, 8, 11, 14, 14, 6, 14, 6, 9, 12, 9, 12, 5, 15, 8] ++
  [8, 5, 12, 9, 12, 5, 14, 6, 8, 13, 6, 5, 15, 13, 11, 11]

/-! ## The compression function -/

/-- The round function `f(j, x, y, z)` (R122). -/
def rmdF (j : Nat) (x y z : Word32) : Word32 :=
  if j < 16 then x ^^^ y ^^^ z
  else if j < 32 then (x &&& y) ||| (~~~x &&& z)
  else if j < 48 then (x ||| ~~~y) ^^^ z
  else if j < 64 then (x &&& z) ||| (y &&& ~~~z)
  else x ^^^ (y ||| ~~~z)

/-- The padded message (R122): the length in bits little-endian. -/
def rmdPad (s : Bytes) : Bytes := s ++ [0x80] ++ rep 0x00 (padZeros s.length) ++ bytesLe (8 * s.length) 8

/-- The words `X[0..15]` of a 64-byte block, little-endian (R122). -/
def leWords (block : Bytes) : List Word32 := (pieces 4 16 block).map fun q => BitVec.ofNat 32 (le q)

/-- The five working variables of one line (R122). -/
structure RmdLine where
  (a b c d e : Word32)
  deriving DecidableEq, Repr

/-- One step of a line: round function `fj`, message word `x`, added constant `k`, rotation `s` (R122). -/
def rmdStep (fj : Nat) (x k : Word32) (s : Nat) (v : RmdLine) : RmdLine :=
  let t := (v.a + rmdF fj v.b v.c v.d + x + k).rotateLeft s + v.e
  ⟨v.e, t, v.b, v.c.rotateLeft 10, v.d⟩

/-- Step `j` of both lines; the right line takes the round functions in reverse order (R122). -/
def rmdBoth (X : List Word32) (lr : RmdLine × RmdLine) (j : Nat) : RmdLine × RmdLine :=
  (rmdStep j (X.getD (rmdRL.getD j 0) 0) (rmdKL.getD (j / 16) 0) (rmdSL.getD j 0) lr.1,
   rmdStep (79 - j) (X.getD (rmdRR.getD j 0) 0) (rmdKR.getD (j / 16) 0) (rmdSR.getD j 0) lr.2)

/-- The chaining value as working variables. -/
def RmdLine.ofWords (h : List Word32) : RmdLine := ⟨h.getD 0 0, h.getD 1 0, h.getD 2 0, h.getD 3 0, h.getD 4 0⟩

/-- The 80 steps over one block and the final combination (R122). -/
def rmdBlock (h : List Word32) (block : Bytes) : List Word32 :=
  let v := RmdLine.ofWords h
  let (l, r) := (List.range 80).foldl (rmdBoth (leWords block)) (v, v)
  [v.b + l.c + r.d, v.c + l.d + r.e, v.d + l.e + r.a, v.e + l.a + r.b, v.a + l.b + r.c]

/-- `RIPEMD160(s)`, 20 bytes (R122). -/
def rmd160 (s : Bytes) : Bytes :=
  let M := rmdPad s
  ((pieces 64 (M.length / 64) M).foldl rmdBlock rmdInit).flatMap fun w => bytesLe w.toNat 4

/-- `Hash160(s) = RIPEMD160(SHA256(s))`, 20 bytes (R121). -/
def hash160 (s : Bytes) : Bytes := rmd160 (sha256 s)

end Sys2Proof.Machine
end

