-- ==== Sys2Proof/Machine/Keys.lean ====
section
/-! DEFINITION. Encodings of a public key, key derivation and the address payload (R140 to R143 [44_key_derivation.md],
R160 [45_address_codec.md]). -/

namespace Sys2Proof.Machine

/-- `EncodeUncompressed(P)`, 65 bytes; the identity is a fatal failure (R140). -/
def encodeUncompressed : Point → Except Cause Bytes
  | .inf => .error .fIdentity
  | .aff x y => .ok ([0x04] ++ wordBytes x ++ wordBytes y)

/-- `EncodeCompressed(P)`, 33 bytes: prefix `0x02` for an even `y`, `0x03` for an odd one (R141). -/
def encodeCompressed : Point → Except Cause Bytes
  | .inf => .error .fIdentity
  | .aff x y => .ok ([if y.getLsbD 0 then 0x03 else 0x02] ++ wordBytes x)

/-- The message of attempt `c` of a key derivation: the base, with the counter byte from the second attempt on (R142). -/
def kdfMessage (base : Bytes) (c : Nat) : Bytes := if c = 0 then base else base ++ [BitVec.ofNat 8 c]

/-- The attempts of a key derivation, `k` of them left, the next one numbered `c` (R142). -/
def kdfLoop (base : Bytes) : Nat → Nat → Except Cause Word
  | 0, _ => .error .fRetryKdf
  | k + 1, c =>
    let d := be (sha256 (kdfMessage base c)) % Config.n
    if d = 0 then kdfLoop base k (c + 1) else .ok (BitVec.ofNat 256 d)

/-- `DerivePrivateKey(e, s)`: entropy is checked before salt (R142). -/
def derivePrivateKey (e s : Word) : Except Cause Word :=
  if e = 0 then .error .eEntropy
  else if s = 0 then .error .eSalt
  else kdfLoop (wordBytes e ++ wordBytes s) Config.kdfAttempts 0

/-- Whether a value is a private key: `1 <= d < n` (R143, R173 step 1). -/
def validKey (d : Word) : Bool := decide (d ≠ 0) && decide (d.toNat < Config.n)

/-- A finite point, or the fatal failure `F_IDENTITY` (R143, R173). -/
def requireFinite : Point → Except Cause Point
  | .inf => .error .fIdentity
  | .aff x y => .ok (.aff x y)

/-- `DerivePublicKey(d)` (R143). -/
def derivePublicKey (d : Word) : Except Cause Point :=
  if validKey d then do
    let Q ← scalarMultiply generator d
    requireFinite Q
  else .error .ePrivkey

/-- The version byte of an address: `0x6F` for testnet, `0x00` for mainnet (R160). -/
def versionByte (testnet : Bool) : Byte := if testnet then 0x6F else 0x00

/-- `AddressPayload(pub, testnet)`, 25 bytes; the checksum is always computed (R160). -/
def addressPayload (pub : Bytes) (testnet : Bool) : Bytes :=
  let body := [versionByte testnet] ++ hash160 pub
  body ++ (sha256d body).take 4

end Sys2Proof.Machine
end

