-- ==== Sys2Proof/Machine/Flags.lean ====
section
/-! DEFINITION. The two status views of the host window: the fields of `STATUS` (R15 [10_state.md]), the result codes
(R191 [60_exceptions.md]) and `PTINF` (R17). There is no other flag or condition code. -/

namespace Sys2Proof.Machine

/-- The code of a cause in `STATUS.ERR` and `STATUS.FCODE` (R191). -/
def Cause.code : Cause → Byte
  | .eIllegal => 0x01
  | .eRange => 0x02
  | .eLen => 0x03
  | .eNotOnCurve => 0x04
  | .eEntropy => 0x10
  | .eSalt => 0x11
  | .ePrivkey => 0x12
  | .fInvZero => 0x80
  | .fIdentity => 0x81
  | .fRetryNonce => 0x82
  | .fRetryKdf => 0x83
  | .eHalted => 0xFF

/-- The class of a cause: a fatal failure halts the engine, an error does not (R190, R191). -/
def Cause.isFatal : Cause → Bool
  | .fInvZero | .fIdentity | .fRetryNonce | .fRetryKdf => true
  | .eIllegal | .eRange | .eLen | .eNotOnCurve | .eEntropy | .eSalt | .ePrivkey | .eHalted => false

/-- `STATUS.ERR`, bits 7:0 (R15). -/
def errOf (st : Word32) : Byte := st.extractLsb' 0 8

/-- `STATUS.FATAL`, bit 8 (R15). -/
def fatalOf (st : Word32) : Bool := st.getLsbD 8

/-- `STATUS.FCODE`, bits 23:16 (R15). -/
def fcodeOf (st : Word32) : Byte := st.extractLsb' 16 8

/-- The reserved bits of `STATUS`: 31:24 and 15:9 (R15). -/
def reservedOf (st : Word32) : BitVec 15 := st.extractLsb' 24 8 ++ st.extractLsb' 9 7

/-- `STATUS.ERR <- e`, every other bit kept. -/
def withErr (st : Word32) (e : Byte) : Word32 := st.extractLsb' 8 24 ++ e

/-- `STATUS.FATAL <- 1`, every other bit kept. -/
def withFatal (st : Word32) : Word32 := st.extractLsb' 9 23 ++ 1#1 ++ st.extractLsb' 0 8

/-- `STATUS.FCODE <- c`, every other bit kept. -/
def withFcode (st : Word32) (c : Byte) : Word32 := st.extractLsb' 24 8 ++ c ++ st.extractLsb' 0 16

/-- `STATUS` after a success: `ERR <- 0x00` and nothing else (R50 step 4, R190). -/
def statusOk (st : Word32) : Word32 := withErr st 0x00

/-- `STATUS` after `raise`: `ERR <- code`; a fatal failure with `FATAL = 0` also sets `FCODE` and `FATAL` (R192, R193). -/
def statusRaise (c : Cause) (st : Word32) : Word32 :=
  if c.isFatal && !fatalOf st then withErr (withFatal (withFcode st c.code)) c.code else withErr st c.code

/-- Whether a point register holds the identity: its `inf` field (R13). -/
def Point.isInf : Point → Bool
  | .inf => true
  | .aff _ _ => false

/-- The `xc` field of a point register, 0 when it holds `Inf` (R13, R108). -/
def Point.xc : Point → Word
  | .inf => 0
  | .aff x _ => x

/-- The `yc` field of a point register, 0 when it holds `Inf` (R13, R109). -/
def Point.yc : Point → Word
  | .inf => 0
  | .aff _ y => y

/-- `PTINF`: bit `i` is 1 exactly when `pt[i] = Inf`, bits 31:4 read 0 (R17). -/
def ptinf (pt : Vector Point 4) : Word32 :=
  0#28 ++ BitVec.ofBool pt[3].isInf ++ BitVec.ofBool pt[2].isInf ++ BitVec.ofBool pt[1].isInf ++ BitVec.ofBool pt[0].isInf

end Sys2Proof.Machine
end

