-- ==== Sys2Proof/Machine/Ops.lean ====
section
/-! DEFINITION. The named operations over the state: the registers, the buffer, and how a command ends. Taking an
exception is the one operation `State.raise`; there is nothing to return from (R192 [60_exceptions.md]): nothing is saved
and control goes nowhere. -/

namespace Sys2Proof.Machine

/-! ## The buffer -/

/-- The byte at an address: the listed one, or the blank byte (R14). -/
def Memory.read : Memory → Nat → Byte
  | [], _ => Memory.blank
  | (k, v) :: rest, a => if k = a then v else Memory.read rest a

/-- A cell put in front of a memory, left out when it is blank. -/
def Memory.put (a : Nat) (b : Byte) (m : Memory) : Memory := if b = Memory.blank then m else (a, b) :: m

/-- The memory with one byte written, in canonical form again. -/
def Memory.write : Memory → Nat → Byte → Memory
  | [], a, b => Memory.put a b []
  | (k, v) :: rest, a, b =>
    if a < k then Memory.put a b ((k, v) :: rest)
    else if a = k then Memory.put a b rest
    else (k, v) :: Memory.write rest a b

/-- `MemRead(a, n)` (R8). -/
def Memory.readBytes (m : Memory) (a : Nat) : Nat → Bytes
  | 0 => []
  | n + 1 => m.read a :: m.readBytes (a + 1) n

/-- `MemWrite(a, len(s), s)` (R8). -/
def Memory.writeBytes (m : Memory) (a : Nat) : Bytes → Memory
  | [] => m
  | b :: s => (m.write a b).writeBytes (a + 1) s

/-! ## Registers and buffer of a state -/

/-- `x[i]` (R8, R11). -/
def State.getX (s : State) (i : XReg) : Word := s.x[i]

/-- `x[i] <- v` (R8, R11). No register is hardwired. -/
def State.setX (s : State) (i : XReg) (v : Word) : State := { s with x := s.x.set i v }

/-- `pt[i]` (R8, R13). -/
def State.getPt (s : State) (i : PReg) : Point := s.pt[i]

/-- `pt[i] <- P` (R8, R13). -/
def State.setPt (s : State) (i : PReg) (P : Point) : State := { s with pt := s.pt.set i P }

/-- The byte `BUF[a]` (R14). -/
def State.byteAt (s : State) (a : Nat) : Byte := s.buf.read a

/-- `MemRead(a, n)` on the state's buffer (R8). -/
def State.load (s : State) (a n : Nat) : Bytes := s.buf.readBytes a n

/-- `MemWrite(a, len(bs), bs)` on the state's buffer (R8). -/
def State.store (s : State) (a : Nat) (bs : Bytes) : State := { s with buf := s.buf.writeBytes a bs }

/-! ## How a command ends -/

/-- The outcome of a step of this machine. -/
abbrev Result := Host.Outcome State Fault Refusal

/-- Whether the engine is halted: `STATUS.FATAL = 1` (R193). -/
def State.halted (s : State) : Bool := fatalOf s.status

/-- Success: `STATUS.ERR <- 0x00` (R50 step 4, R190). -/
def State.succeed (s : State) : State := { s with status := statusOk s.status }

/-- Taking an exception: `raise` writes nothing but `STATUS` (R192, R193). -/
def State.raise (s : State) (c : Cause) : State := { s with status := statusRaise c s.status }

/-- A command from start to end: a halted engine raises `E_HALTED` (R193, step (1) of R196); a body that raises leaves the
state before the command with `STATUS` written (R192); a body that yields a state has made all its writes, and `ERR` becomes
0x00 (R190). The body computes from the state before the command, so every source is read before any write (R39). -/
def command (s : State) (body : Except Cause State) : Result :=
  if s.halted then .next (s.raise .eHalted)
  else match body with
    | .ok t => .next t.succeed
    | .error c => .next (s.raise c)

end Sys2Proof.Machine
end

