-- ==== Sys2Proof/Machine/Operands.lean ====
section
/-! DEFINITION. The operand checks of the commands and the buffer operand forms: an absolute 8-bit offset (R76
[40_data_movement.md]) with the range check of R37 [20_memory.md]. Register operands are `State.getX` and `State.getPt`;
immediates are used as they stand (R51). -/

namespace Sys2Proof.Machine

/-- A check at the start of a command: it passes or raises its cause (R196). -/
def check (ok : Bool) (c : Cause) : Except Cause Unit := if ok then .ok () else .error c

/-- An 8-bit immediate as a 256-bit value, zero-extended (R51, R71). -/
def zext256 (v : Byte) : Word := v.setWidth 256

/-- The range check of one buffer access (R37). -/
def checkRange (off : Byte) (len : Nat) : Except Cause Unit := check (fitsBuf off.toNat len) .eRange

/-- The range check of a format B command that reads `len` bytes at `src` and writes `out` bytes at `dst` (R34, R37). -/
def checkRanges (src len dst : Byte) (out : Nat) : Except Cause Unit :=
  check (fitsBuf src.toNat len.toNat && fitsBuf dst.toNat out) .eRange

/-- The length check of a public key (R161). -/
def checkPubkeyLen (len : Byte) : Except Cause Unit := check (pubkeyLen len.toNat) .eLen

end Sys2Proof.Machine
end

