-- ==== Sys2Proof/Machine/AddressCodec.lean ====
section
/-! DEFINITION. Addresses: GENADDR GENADDRT (R161, R162 [45_address_codec.md]). -/

namespace Sys2Proof.Machine

/-- An address command: the length is checked before the ranges (R161). -/
def addressBuf (testnet : Bool) (dst src len : Byte) (s : State) : Result :=
  command s do
    checkPubkeyLen len
    checkRanges src len dst 25
    .ok (s.store dst.toNat (addressPayload (s.load src.toNat len.toNat) testnet))

/-- `GENADDR dst, src, len` (R161). -/
def execGenaddr (dst src len : Byte) (s : State) : Result := addressBuf false dst src len s
/-- `GENADDRT dst, src, len` (R162). -/
def execGenaddrt (dst src len : Byte) (s : State) : Result := addressBuf true dst src len s

end Sys2Proof.Machine
end

