-- ==== Sys2Proof/Machine/CurvePoint.lean ====
section
/-! DEFINITION. Curve points: PINF PGEN PSET PMOV PGETX PGETY PADD PDBL PMUL (R104 to R112 [42_curve_point.md]), the units
`secp256k1_point_add`, `secp256k1_point_double` and `secp256k1_scalar_mult`. -/

namespace Sys2Proof.Machine

/-- A command that writes a point, or raises. -/
def writePoint (pd : PReg) (P : Except Cause Point) (s : State) : Result :=
  command s do
    let Q ← P
    .ok (s.setPt pd Q)

/-- `PINF pd` (R104). -/
def execPinf (pd : PReg) (s : State) : Result := writePoint pd (.ok .inf) s

/-- `PGEN pd` (R105). -/
def execPgen (pd : PReg) (s : State) : Result := writePoint pd (.ok generator) s

/-- `PSET pd, rs1, rs2` (R106): the only way from coordinates to a point, and it checks them. -/
def execPset (pd : PReg) (rs1 rs2 : XReg) (s : State) : Result :=
  command s do
    check (onCurve (s.getX rs1) (s.getX rs2)) .eNotOnCurve
    .ok (s.setPt pd (.aff (s.getX rs1) (s.getX rs2)))

/-- `PMOV pd, ps1` (R107). -/
def execPmov (pd ps1 : PReg) (s : State) : Result := writePoint pd (.ok (s.getPt ps1)) s

/-- `PGETX rd, ps1` (R108): 0 for `Inf`. -/
def execPgetx (rd : XReg) (ps1 : PReg) (s : State) : Result := command s (.ok (s.setX rd (s.getPt ps1).xc))

/-- `PGETY rd, ps1` (R109): 0 for `Inf`. -/
def execPgety (rd : XReg) (ps1 : PReg) (s : State) : Result := command s (.ok (s.setX rd (s.getPt ps1).yc))

/-- `PADD pd, ps1, ps2` (R110). -/
def execPadd (pd ps1 ps2 : PReg) (s : State) : Result := writePoint pd (pointAdd (s.getPt ps1) (s.getPt ps2)) s

/-- `PDBL pd, ps1` (R111). -/
def execPdbl (pd ps1 : PReg) (s : State) : Result := writePoint pd (pointDouble (s.getPt ps1)) s

/-- `PMUL pd, ps1, rs2` (R112): the scalar is not validated. -/
def execPmul (pd ps1 : PReg) (rs2 : XReg) (s : State) : Result :=
  writePoint pd (scalarMultiply (s.getPt ps1) (s.getX rs2)) s

end Sys2Proof.Machine
end

