-- ==== Sys2Proof/Machine/DataMovement.lean ====
section
/-! DEFINITION. Data movement: NOP, LI, MOV, LDW, STW (R70 to R74 [40_data_movement.md]). -/

namespace Sys2Proof.Machine

/-- `NOP` (R70): changes nothing but `STATUS.ERR`. -/
def execNop (s : State) : Result := command s (.ok s)

/-- `LI rd, imm8` (R71): the immediate zero-extended. -/
def execLi (rd : XReg) (imm8 : Byte) (s : State) : Result := command s (.ok (s.setX rd (zext256 imm8)))

/-- `MOV rd, rs1` (R72): all 256 bits, no reduction. -/
def execMov (rd rs1 : XReg) (s : State) : Result := command s (.ok (s.setX rd (s.getX rs1)))

/-- `LDW rd, off` (R73). -/
def execLdw (rd : XReg) (off : Byte) (s : State) : Result :=
  command s do
    checkRange off 32
    .ok (s.setX rd (beWord (s.load off.toNat 32)))

/-- `STW rs1, off` (R74). -/
def execStw (rs1 : XReg) (off : Byte) (s : State) : Result :=
  command s do
    checkRange off 32
    .ok (s.store off.toNat (wordBytes (s.getX rs1)))

end Sys2Proof.Machine
end

