-- ==== Sys2Proof/Machine/Hashes.lean ====
section
/-! DEFINITION. Hashes: SHA256 SHA256D RMD160 HASH160 (R124 to R127 [43_hash.md]). -/

namespace Sys2Proof.Machine

/-- A hash command: `len` bytes at `src` are read, the digest of `out` bytes is written at `dst` (R34). -/
def hashBuf (h : Bytes → Bytes) (out : Nat) (dst src len : Byte) (s : State) : Result :=
  command s do
    checkRanges src len dst out
    .ok (s.store dst.toNat (h (s.load src.toNat len.toNat)))

/-- `SHA256 dst, src, len` (R124). -/
def execSha256 (dst src len : Byte) (s : State) : Result := hashBuf sha256 32 dst src len s
/-- `SHA256D dst, src, len` (R125). -/
def execSha256d (dst src len : Byte) (s : State) : Result := hashBuf sha256d 32 dst src len s
/-- `RMD160 dst, src, len` (R126). -/
def execRmd160 (dst src len : Byte) (s : State) : Result := hashBuf rmd160 20 dst src len s
/-- `HASH160 dst, src, len` (R127). -/
def execHash160 (dst src len : Byte) (s : State) : Result := hashBuf hash160 20 dst src len s

end Sys2Proof.Machine
end

