-- ==== Sys2Proof/Machine/KeyDerivation.lean ====
section
/-! DEFINITION. Key derivation and encodings: DPRIV DPUB ENCU ENCC KEYPAIR (R144 to R148 [44_key_derivation.md]). -/

namespace Sys2Proof.Machine

/-- `DPRIV rd, rs1, rs2` (R144): `rs1` is the entropy, `rs2` the salt. -/
def execDpriv (rd rs1 rs2 : XReg) (s : State) : Result :=
  command s do
    let d ← derivePrivateKey (s.getX rs1) (s.getX rs2)
    .ok (s.setX rd d)

/-- `DPUB pd, rs1` (R145). -/
def execDpub (pd : PReg) (rs1 : XReg) (s : State) : Result :=
  command s do
    let Q ← derivePublicKey (s.getX rs1)
    .ok (s.setPt pd Q)

/-- `ENCU ps1, off` (R146): the range is checked before the identity. -/
def execEncu (ps1 : PReg) (off : Byte) (s : State) : Result :=
  command s do
    checkRange off 65
    let bs ← encodeUncompressed (s.getPt ps1)
    .ok (s.store off.toNat bs)

/-- `ENCC ps1, off` (R147). -/
def execEncc (ps1 : PReg) (off : Byte) (s : State) : Result :=
  command s do
    checkRange off 33
    let bs ← encodeCompressed (s.getPt ps1)
    .ok (s.store off.toNat bs)

/-- The 155 bytes `KEYPAIR` writes: private key, uncompressed key, compressed key, address (R148). -/
def keypairBytes (e salt : Word) (testnet addrCompressed : Bool) : Except Cause Bytes := do
  let d ← derivePrivateKey e salt
  let Q ← derivePublicKey d
  let pub ← encodeUncompressed Q
  let comp ← encodeCompressed Q
  .ok (wordBytes d ++ pub ++ comp ++ addressPayload (if addrCompressed then comp else pub) testnet)

/-- `KEYPAIR rs1, rs2, off, flags` (R148). -/
def execKeypair (rs1 rs2 : XReg) (off : Byte) (testnet addrCompressed : Bool) (s : State) : Result :=
  command s do
    checkRange off 155
    let bs ← keypairBytes (s.getX rs1) (s.getX rs2) testnet addrCompressed
    .ok (s.store off.toNat bs)

end Sys2Proof.Machine
end

