-- ==== Sys2Proof/Machine/ModularArithmetic.lean ====
section
/-! DEFINITION. Modular arithmetic: FADD FSUB FMUL FINV FRED mod `p` and SADD SSUB SMUL SINV SRED mod `n` (R84 to R93
[41_modular_arithmetic.md]), the units `montgomery_multiplier` and `modular_reducer`. -/

namespace Sys2Proof.Machine

/-- A command that writes a function of two general registers to `rd`. -/
def binaryX (f : Word → Word → Word) (rd rs1 rs2 : XReg) (s : State) : Result :=
  command s (.ok (s.setX rd (f (s.getX rs1) (s.getX rs2))))

/-- A command that writes a function of one general register to `rd`, or raises. -/
def unaryX (f : Word → Except Cause Word) (rd rs1 : XReg) (s : State) : Result :=
  command s do
    let r ← f (s.getX rs1)
    .ok (s.setX rd r)

/-- `FADD rd, rs1, rs2` (R84). -/
def execFadd (rd rs1 rs2 : XReg) (s : State) : Result := binaryX fieldAdd rd rs1 rs2 s
/-- `FSUB rd, rs1, rs2` (R85). -/
def execFsub (rd rs1 rs2 : XReg) (s : State) : Result := binaryX fieldSub rd rs1 rs2 s
/-- `FMUL rd, rs1, rs2` (R86). -/
def execFmul (rd rs1 rs2 : XReg) (s : State) : Result := binaryX fieldMul rd rs1 rs2 s
/-- `FINV rd, rs1` (R87). -/
def execFinv (rd rs1 : XReg) (s : State) : Result := unaryX fieldInv rd rs1 s
/-- `FRED rd, rs1, rs2` (R88): `rs1` is the high half, `rs2` the low half. -/
def execFred (rd rs1 rs2 : XReg) (s : State) : Result := binaryX (modRed Config.p) rd rs1 rs2 s

/-- `SADD rd, rs1, rs2` (R89). -/
def execSadd (rd rs1 rs2 : XReg) (s : State) : Result := binaryX scalarAdd rd rs1 rs2 s
/-- `SSUB rd, rs1, rs2` (R90). -/
def execSsub (rd rs1 rs2 : XReg) (s : State) : Result := binaryX scalarSub rd rs1 rs2 s
/-- `SMUL rd, rs1, rs2` (R91). -/
def execSmul (rd rs1 rs2 : XReg) (s : State) : Result := binaryX scalarMul rd rs1 rs2 s
/-- `SINV rd, rs1` (R92). -/
def execSinv (rd rs1 : XReg) (s : State) : Result := unaryX scalarInv rd rs1 s
/-- `SRED rd, rs1, rs2` (R93): `rs1` is the high half, `rs2` the low half. -/
def execSred (rd rs1 rs2 : XReg) (s : State) : Result := binaryX (modRed Config.n) rd rs1 rs2 s

end Sys2Proof.Machine
end

