-- ==== Sys2Proof/Machine/Ecdsa.lean ====
section
/-! DEFINITION. The signature engine: HMAC-SHA256 (R123 [43_hash.md]), the deterministic nonce generator of R172, the
signature of R173 and its serialization R176 [46_signer.md]. Working values exist only inside a command (R19). -/

namespace Sys2Proof.Machine

/-- `HMAC_SHA256(key, msg)` for a key of at most 64 bytes (R123). -/
def hmacSha256 (key msg : Bytes) : Bytes :=
  let key0 := key ++ rep 0x00 (64 - key.length)
  sha256 (key0.map (· ^^^ 0x5C) ++ sha256 (key0.map (· ^^^ 0x36) ++ msg))

/-- The generator's state: the two 32-byte strings `K` and `V` (R172). -/
structure NonceState where
  (K V : Bytes)
  deriving DecidableEq, Repr

/-- One half of `NonceInit`: `K` over `V`, a separator byte, the key and the digest, then `V` (R172). -/
def nonceMix (sep : Byte) (xo ho : Bytes) (kv : NonceState) : NonceState :=
  let K := hmacSha256 kv.K (kv.V ++ [sep] ++ xo ++ ho)
  ⟨K, hmacSha256 K kv.V⟩

/-- `NonceInit(d, z)` (R172). -/
def nonceInit (d z : Word) : NonceState :=
  let xo := wordBytes d
  let ho := wordBytes z
  nonceMix 0x01 xo ho (nonceMix 0x00 xo ho ⟨rep 0x00 32, rep 0x01 32⟩)

/-- `NonceCandidate(K, V)`: the candidate is `be(V)` of the state returned (R172). -/
def nonceCandidate (kv : NonceState) : NonceState := ⟨kv.K, hmacSha256 kv.K kv.V⟩

/-- `NonceReject(K, V)` (R172). -/
def nonceReject (kv : NonceState) : NonceState :=
  let K := hmacSha256 kv.K (kv.V ++ [0x00])
  ⟨K, hmacSha256 K kv.V⟩

/-- A signature: `r`, `s` and the recovery bit `v` (R170, R173). -/
structure Signature where
  (r s : Word)
  v : Bool
  deriving DecidableEq, Repr

/-- Canonical form: `s > n/2` is replaced by `n - s` and `v` flips (R173 step 6). -/
def canonicalize (sig : Signature) : Signature :=
  if sig.s.toNat > Config.halfN then ⟨sig.r, BitVec.ofNat 256 (Config.n - sig.s.toNat), !sig.v⟩ else sig

/-- One candidate of the nonce loop: a signature, or `none` when the candidate is rejected because `k` is out of range, `r`
is 0 or `s` is 0 (R173 steps 3 to 7). -/
def signWith (d z k : Word) : Except Cause (Option Signature) :=
  if validKey k then do
    let R ← scalarMultiply generator k
    let R' ← requireFinite R
    let r := BitVec.ofNat 256 (R'.xc.toNat % Config.n)
    if r = 0 then .ok none
    else do
      let kInv ← scalarInv k
      let s := scalarMul kInv (scalarAdd z (scalarMul r d))
      if s = 0 then .ok none else .ok (some (canonicalize ⟨r, s, R'.yc.getLsbD 0⟩))
  else .ok none

/-- The nonce loop, the given number of attempts left (R173). -/
def signLoop (d z : Word) : Nat → NonceState → Except Cause Signature
  | 0, _ => .error .fRetryNonce
  | a + 1, kv => do
    let kv' := nonceCandidate kv
    match ← signWith d z (beWord kv'.V) with
    | some sig => .ok sig
    | none => signLoop d z a (nonceReject kv')

/-- The digest as a scalar: `z = e mod n` (R171). -/
def digestScalar (e : Word) : Word := BitVec.ofNat 256 (e.toNat % Config.n)

/-- `Sign(d, e)` (R173). -/
def sign (d e : Word) : Except Cause Signature :=
  if validKey d then signLoop d (digestScalar e) Config.nonceAttempts (nonceInit d (digestScalar e))
  else .error .ePrivkey

/-- `SerializeSig(r, s, v)`, 65 bytes (R176). -/
def serializeSig (sig : Signature) : Bytes := wordBytes sig.r ++ wordBytes sig.s ++ [if sig.v then 0x01 else 0x00]

/-- `SerializeTx(r, s, v, t)`, 66 bytes (R176). -/
def serializeTx (sig : Signature) (t : Byte) : Bytes := serializeSig sig ++ [t]

end Sys2Proof.Machine
end

