-- ==== Sys2Proof/Machine/Signer.lean ====
section
/-! DEFINITION. Signatures: SIGN SIGNTX (R174, R175 [46_signer.md]), the unit `ecdsa_signature_engine`. -/

namespace Sys2Proof.Machine

/-- `SIGN rs1, rs2, off` (R174): `rs1` is the private key, `rs2` the digest. -/
def execSign (rs1 rs2 : XReg) (off : Byte) (s : State) : Result :=
  command s do
    checkRange off 65
    let sig ← sign (s.getX rs1) (s.getX rs2)
    .ok (s.store off.toNat (serializeSig sig))

/-- `SIGNTX rs1, rs2, off, imm8` (R175): the sighash type is copied, not interpreted. -/
def execSigntx (rs1 rs2 : XReg) (off : Byte) (imm8 : Byte) (s : State) : Result :=
  command s do
    checkRange off 66
    let sig ← sign (s.getX rs1) (s.getX rs2)
    .ok (s.store off.toNat (serializeTx sig imm8))

end Sys2Proof.Machine
end

