-- ==== Sys2Proof/Machine/Dispatch.lean ====
section
/-! DEFINITION. One arm per command, each one call of its meaning (R50 step 3 [30_encoding.md]). -/

namespace Sys2Proof.Machine

def exec (i : Instr) (s : State) : Host.Outcome State Fault Refusal :=
  match i with
  -- data movement
  | .nop => Sys2Proof.Machine.execNop s
  | .li rd imm8 => Sys2Proof.Machine.execLi rd imm8 s
  | .mov rd rs1 => Sys2Proof.Machine.execMov rd rs1 s
  | .ldw rd off => Sys2Proof.Machine.execLdw rd off s
  | .stw rs1 off => Sys2Proof.Machine.execStw rs1 off s
  -- arithmetic mod p
  | .fadd rd rs1 rs2 => Sys2Proof.Machine.execFadd rd rs1 rs2 s
  | .fsub rd rs1 rs2 => Sys2Proof.Machine.execFsub rd rs1 rs2 s
  | .fmul rd rs1 rs2 => Sys2Proof.Machine.execFmul rd rs1 rs2 s
  | .finv rd rs1 => Sys2Proof.Machine.execFinv rd rs1 s
  | .fred rd rs1 rs2 => Sys2Proof.Machine.execFred rd rs1 rs2 s
  -- arithmetic mod n
  | .sadd rd rs1 rs2 => Sys2Proof.Machine.execSadd rd rs1 rs2 s
  | .ssub rd rs1 rs2 => Sys2Proof.Machine.execSsub rd rs1 rs2 s
  | .smul rd rs1 rs2 => Sys2Proof.Machine.execSmul rd rs1 rs2 s
  | .sinv rd rs1 => Sys2Proof.Machine.execSinv rd rs1 s
  | .sred rd rs1 rs2 => Sys2Proof.Machine.execSred rd rs1 rs2 s
  -- curve points
  | .pinf pd => Sys2Proof.Machine.execPinf pd s
  | .pgen pd => Sys2Proof.Machine.execPgen pd s
  | .pset pd rs1 rs2 => Sys2Proof.Machine.execPset pd rs1 rs2 s
  | .pmov pd ps1 => Sys2Proof.Machine.execPmov pd ps1 s
  | .pgetx rd ps1 => Sys2Proof.Machine.execPgetx rd ps1 s
  | .pgety rd ps1 => Sys2Proof.Machine.execPgety rd ps1 s
  | .padd pd ps1 ps2 => Sys2Proof.Machine.execPadd pd ps1 ps2 s
  | .pdbl pd ps1 => Sys2Proof.Machine.execPdbl pd ps1 s
  | .pmul pd ps1 rs2 => Sys2Proof.Machine.execPmul pd ps1 rs2 s
  -- hashes
  | .sha256 dst src len => Sys2Proof.Machine.execSha256 dst src len s
  | .sha256d dst src len => Sys2Proof.Machine.execSha256d dst src len s
  | .rmd160 dst src len => Sys2Proof.Machine.execRmd160 dst src len s
  | .hash160 dst src len => Sys2Proof.Machine.execHash160 dst src len s
  -- keys and encodings
  | .dpriv rd rs1 rs2 => Sys2Proof.Machine.execDpriv rd rs1 rs2 s
  | .dpub pd rs1 => Sys2Proof.Machine.execDpub pd rs1 s
  | .encu ps1 off => Sys2Proof.Machine.execEncu ps1 off s
  | .encc ps1 off => Sys2Proof.Machine.execEncc ps1 off s
  | .keypair rs1 rs2 off testnet addrCompressed => Sys2Proof.Machine.execKeypair rs1 rs2 off testnet addrCompressed s
  -- addresses
  | .genaddr dst src len => Sys2Proof.Machine.execGenaddr dst src len s
  | .genaddrt dst src len => Sys2Proof.Machine.execGenaddrt dst src len s
  -- signatures
  | .sign rs1 rs2 off => Sys2Proof.Machine.execSign rs1 rs2 off s
  | .signtx rs1 rs2 off imm8 => Sys2Proof.Machine.execSigntx rs1 rs2 off imm8 s

end Sys2Proof.Machine
end

