-- ==== Sys2Proof/Machine/Port.lean ====
section
/-! DEFINITION. The host port (R30 to R33 [20_memory.md]): the window map, the two transactions, the issue of a command word
(R50 [30_encoding.md]) and the reset event (R220 [70_reset_and_hazards.md]). -/

namespace Sys2Proof.Machine

/-- What a word of the host window is (R32). -/
inductive Location where
  /-- word `j` of `x[i]`, `j = 0` the most significant -/
  | xWord (i : XReg) (j : Fin 8)
  /-- `BUF[4k]` to `BUF[4k+3]` -/
  | bufWord (k : Fin 64)
  | cmd
  | status
  | ptinf
  | reserved
  deriving DecidableEq, Repr

/-- The word address of `CMD`: byte address `0x300` (R18, R32). -/
def cmdWa : BitVec 8 := 0xC0

/-- The window map, by word address: `x` from byte address `0x000`, `BUF` from `0x200`, `CMD 0x300`, `STATUS 0x304`,
`PTINF 0x308`, reserved from `0x30C` (R32). -/
def locate (wa : BitVec 8) : Location :=
  if wa.toNat < 128 then .xWord (Fin.ofNat 16 (wa.toNat / 8)) (Fin.ofNat 8 wa.toNat)
  else if wa.toNat < 192 then .bufWord (Fin.ofNat 64 (wa.toNat - 128))
  else if wa = 0xC0 then .cmd
  else if wa = 0xC1 then .status
  else if wa = 0xC2 then .ptinf
  else .reserved

/-- The lowest bit of word `j` of a 256-bit value: `224 - 32 j` (R32). -/
def wordShift (j : Fin 8) : Nat := 224 - 32 * j.val

/-- Word `j` of a 256-bit value: bits `255-32j : 224-32j` (R32, R33). -/
def xWordGet (v : Word) (j : Fin 8) : Word32 := v.extractLsb' (wordShift j) 32

/-- A 256-bit value with word `j` replaced and the other 224 bits unchanged (R33). -/
def xWordSet (v : Word) (j : Fin 8) (d : Word32) : Word :=
  (v &&& ~~~((0xFFFFFFFF : Word) <<< wordShift j)) ||| (d.setWidth 256 <<< wordShift j)

/-- `HostRead`: the value; no read has a side effect (R32, R33). -/
def hostRead (s : State) (wa : BitVec 8) : Word32 :=
  match locate wa with
  | .xWord i j => xWordGet (s.getX i) j
  | .bufWord k => BitVec.ofNat 32 (be (s.load (4 * k.val) 4))
  | .cmd => 0
  | .status => s.status
  | .ptinf => ptinf s.pt
  | .reserved => 0

/-- The host issues a command word: a halted engine raises `E_HALTED`, a word that is no command `E_ILLEGAL`, any other is
executed (R50). -/
def issue (w : Word32) (s : State) : Result :=
  if s.halted then .next (s.raise .eHalted)
  else match decode w with
    | .ok i => exec i s
    | .error _ => .next (s.raise .eIllegal)

/-- `HostWrite`: storing to `x` or `BUF` works in every state, the write to `CMD` issues a command, any other write is
ignored (R32, R33). -/
def hostWrite (s : State) (wa : BitVec 8) (d : Word32) : Result :=
  match locate wa with
  | .xWord i j => .next (s.setX i (xWordSet (s.getX i) j d))
  | .bufWord k => .next (s.store (4 * k.val) (bytesBe d.toNat 4))
  | .cmd => issue d s
  | .status | .ptinf | .reserved => .next s

/-- Reset: every piece of the hardware's state at its reset value, whatever it was (R220, R22). What the host has still to do
and what it has read are the host's and stay (log 5). -/
def resetEvent (s : State) : State := { State.reset with pending := s.pending, replies := s.replies }

/-- One event of the port; a read's value joins the replies (log 2). -/
def deliver (e : HostEvent) (s : State) : Result :=
  match e with
  | .read wa => .next { s with replies := s.replies ++ [hostRead s wa] }
  | .write wa d => hostWrite s wa d
  | .reset => .next (resetEvent s)

end Sys2Proof.Machine
end

