-- ==== Sys2Proof/Safety.lean ====
section
/-! DEFINITION. The terms the statements use: what a good state is, what a command may read and write, the ways a command
ends, the group law and the signature as relations, written from the spec and not from the machine's functions. -/

namespace Sys2Proof

/-! ## What a command names (R34 [20_memory.md], R51 to R53 [30_encoding.md], R55) -/

/-- The general register a command writes when it succeeds. -/
def Instr.destX : Instr → Option XReg
  | .li rd _ | .mov rd _ | .ldw rd _ | .fadd rd _ _ | .fsub rd _ _ | .fmul rd _ _ | .finv rd _ | .fred rd _ _ | .sadd rd _ _
  | .ssub rd _ _ | .smul rd _ _ | .sinv rd _ | .sred rd _ _ | .pgetx rd _ | .pgety rd _ | .dpriv rd _ _ => some rd
  | .nop | .stw .. | .pinf .. | .pgen .. | .pset .. | .pmov .. | .padd .. | .pdbl .. | .pmul .. | .sha256 .. | .sha256d ..
  | .rmd160 .. | .hash160 .. | .dpub .. | .encu .. | .encc .. | .keypair .. | .genaddr .. | .genaddrt .. | .sign ..
  | .signtx .. => none

/-- The point register a command writes when it succeeds. -/
def Instr.destPt : Instr → Option PReg
  | .pinf pd | .pgen pd | .pset pd _ _ | .pmov pd _ | .padd pd _ _ | .pdbl pd _ | .pmul pd _ _ | .dpub pd _ => some pd
  | .nop | .li .. | .mov .. | .ldw .. | .stw .. | .fadd .. | .fsub .. | .fmul .. | .finv .. | .fred .. | .sadd .. | .ssub ..
  | .smul .. | .sinv .. | .sred .. | .pgetx .. | .pgety .. | .sha256 .. | .sha256d .. | .rmd160 .. | .hash160 .. | .dpriv ..
  | .encu .. | .encc .. | .keypair .. | .genaddr .. | .genaddrt .. | .sign .. | .signtx .. => none

/-- The buffer range a command writes when it succeeds: offset and width (R34). -/
def Instr.destBuf : Instr → Option (Nat × Nat)
  | .stw _ off => some (off.toNat, 32)
  | .sha256 dst _ _ | .sha256d dst _ _ => some (dst.toNat, 32)
  | .rmd160 dst _ _ | .hash160 dst _ _ => some (dst.toNat, 20)
  | .encu _ off => some (off.toNat, 65)
  | .encc _ off => some (off.toNat, 33)
  | .keypair _ _ off _ _ => some (off.toNat, 155)
  | .genaddr dst _ _ | .genaddrt dst _ _ => some (dst.toNat, 25)
  | .sign _ _ off => some (off.toNat, 65)
  | .signtx _ _ off _ => some (off.toNat, 66)
  | .nop | .li .. | .mov .. | .ldw .. | .fadd .. | .fsub .. | .fmul .. | .finv .. | .fred .. | .sadd .. | .ssub .. | .smul ..
  | .sinv .. | .sred .. | .pinf .. | .pgen .. | .pset .. | .pmov .. | .pgetx .. | .pgety .. | .padd .. | .pdbl .. | .pmul ..
  | .dpriv .. | .dpub .. => none

/-- The general registers a command reads. -/
def Instr.srcX : Instr → List XReg
  | .mov _ rs1 | .stw rs1 _ | .finv _ rs1 | .sinv _ rs1 | .dpub _ rs1 => [rs1]
  | .fadd _ rs1 rs2 | .fsub _ rs1 rs2 | .fmul _ rs1 rs2 | .fred _ rs1 rs2 | .sadd _ rs1 rs2 | .ssub _ rs1 rs2
  | .smul _ rs1 rs2 | .sred _ rs1 rs2 | .pset _ rs1 rs2 | .dpriv _ rs1 rs2 | .keypair rs1 rs2 _ _ _ | .sign rs1 rs2 _
  | .signtx rs1 rs2 _ _ => [rs1, rs2]
  | .pmul _ _ rs2 => [rs2]
  | .nop | .li .. | .ldw .. | .pinf .. | .pgen .. | .pmov .. | .pgetx .. | .pgety .. | .padd .. | .pdbl .. | .sha256 ..
  | .sha256d .. | .rmd160 .. | .hash160 .. | .encu .. | .encc .. | .genaddr .. | .genaddrt .. => []

/-- The point registers a command reads. -/
def Instr.srcPt : Instr → List PReg
  | .pmov _ ps1 | .pgetx _ ps1 | .pgety _ ps1 | .pdbl _ ps1 | .pmul _ ps1 _ | .encu ps1 _ | .encc ps1 _ => [ps1]
  | .padd _ ps1 ps2 => [ps1, ps2]
  | .nop | .li .. | .mov .. | .ldw .. | .stw .. | .fadd .. | .fsub .. | .fmul .. | .finv .. | .fred .. | .sadd .. | .ssub ..
  | .smul .. | .sinv .. | .sred .. | .pinf .. | .pgen .. | .pset .. | .sha256 .. | .sha256d .. | .rmd160 .. | .hash160 ..
  | .dpriv .. | .dpub .. | .keypair .. | .genaddr .. | .genaddrt .. | .sign .. | .signtx .. => []

/-- The buffer range a command reads: offset and width, width 0 for a command that reads none (R34). -/
def Instr.srcBuf : Instr → Nat × Nat
  | .ldw _ off => (off.toNat, 32)
  | .sha256 _ src len | .sha256d _ src len | .rmd160 _ src len | .hash160 _ src len | .genaddr _ src len
  | .genaddrt _ src len => (src.toNat, len.toNat)
  | .nop | .li .. | .mov .. | .stw .. | .fadd .. | .fsub .. | .fmul .. | .finv .. | .fred .. | .sadd .. | .ssub .. | .smul ..
  | .sinv .. | .sred .. | .pinf .. | .pgen .. | .pset .. | .pmov .. | .pgetx .. | .pgety .. | .padd .. | .pdbl .. | .pmul ..
  | .dpriv .. | .dpub .. | .encu .. | .encc .. | .keypair .. | .sign .. | .signtx .. => (0, 0)

end Sys2Proof

namespace Sys2Proof.Machine

/-! ## Good states -/

/-- The pair is a point of the curve with coordinates in the field (R21 [10_state.md], R103). -/
def OnCurve (x y : Word) : Prop :=
  x.toNat < Config.p ∧ y.toNat < Config.p ∧ y.toNat ^ 2 % Config.p = (x.toNat ^ 3 + 7) % Config.p

/-- A point register holds `Inf` or a point of the curve (R21). -/
def Point.OnCurve : Point → Prop
  | .inf => True
  | .aff x y => Machine.OnCurve x y

/-- The invariant of the point registers (R21). -/
def State.PointsOnCurve (s : State) : Prop := ∀ i : PReg, (s.getPt i).OnCurve

/-- The codes `STATUS.ERR` can hold: success, or the code of a cause; no other value ever appears (R191). -/
def KnownCode (e : Byte) : Prop := e = 0x00 ∨ ∃ c : Cause, e = c.code

/-- The rules of `STATUS` (R15, R191): the reserved bits read 0, `ERR` is a known code, `FCODE` is 0 while `FATAL` is 0 and
the code of a fatal failure while it is 1. -/
structure StatusGood (st : Word32) : Prop where
  reserved : reservedOf st = 0
  err : KnownCode (errOf st)
  fcodeClear : fatalOf st = false → fcodeOf st = 0x00
  fcodeSet : fatalOf st = true → ∃ c : Cause, c.isFatal = true ∧ fcodeOf st = c.code

/-- The invariant of the machine. -/
structure State.Inv (s : State) : Prop where
  points : s.PointsOnCurve
  memory : s.buf.wf
  status : StatusGood s.status

/-! ## How a command ends, as seen from outside -/

/-- The host's side of the port is untouched. -/
structure SameHost (s t : State) : Prop where
  pending : t.pending = s.pending
  replies : t.replies = s.replies

/-- `STATUS` after a success: `ERR` is 0x00 and every other field is as before (R50, R190). -/
structure Succeeded (s t : State) : Prop where
  err : errOf t.status = 0x00
  fatal : fatalOf t.status = fatalOf s.status
  fcode : fcodeOf t.status = fcodeOf s.status
  reserved : reservedOf t.status = reservedOf s.status
  host : SameHost s t

/-- A success that wrote `v` to `x[rd]` and nothing else. -/
structure WroteX (s t : State) (rd : XReg) (v : Word) : Prop extends Succeeded s t where
  value : t.getX rd = v
  others : ∀ r : XReg, r ≠ rd → t.getX r = s.getX r
  points : ∀ q : PReg, t.getPt q = s.getPt q
  bytes : ∀ a : Nat, t.byteAt a = s.byteAt a

/-- A success that wrote `P` to `pt[pd]` and nothing else. -/
structure WrotePt (s t : State) (pd : PReg) (P : Point) : Prop extends Succeeded s t where
  value : t.getPt pd = P
  registers : ∀ r : XReg, t.getX r = s.getX r
  others : ∀ q : PReg, q ≠ pd → t.getPt q = s.getPt q
  bytes : ∀ a : Nat, t.byteAt a = s.byteAt a

/-- A success that wrote the byte string `bs` to `BUF` from offset `off` on and nothing else. -/
structure WroteBuf (s t : State) (off : Nat) (bs : Bytes) : Prop extends Succeeded s t where
  written : ∀ k : Nat, (h : k < bs.length) → t.byteAt (off + k) = bs[k]
  outside : ∀ a : Nat, a < off ∨ off + bs.length ≤ a → t.byteAt a = s.byteAt a
  registers : ∀ r : XReg, t.getX r = s.getX r
  points : ∀ q : PReg, t.getPt q = s.getPt q

/-- A command raised `c`: nothing but `STATUS` is written; `ERR` is the code; an error leaves `FATAL` and `FCODE`, a fatal
failure sets `FATAL` and, where it was 0, `FCODE` (R190, R192, R193). -/
structure Raised (s t : State) (c : Cause) : Prop where
  err : errOf t.status = c.code
  error : c.isFatal = false → fatalOf t.status = fatalOf s.status ∧ fcodeOf t.status = fcodeOf s.status
  fatal : c.isFatal = true → fatalOf t.status = true ∧
    fcodeOf t.status = if fatalOf s.status then fcodeOf s.status else c.code
  reserved : reservedOf t.status = reservedOf s.status
  registers : ∀ r : XReg, t.getX r = s.getX r
  points : ∀ q : PReg, t.getPt q = s.getPt q
  bytes : ∀ a : Nat, t.byteAt a = s.byteAt a
  host : SameHost s t

/-- The encoding clause of a command's rule: this word, and no other, is the command (R55). -/
def EncodedAs (i : Instr) (word : Word32) : Prop := ∀ w : Word32, decode w = .ok i ↔ w = word

/-- The halted clause of a command's rule (R193). -/
def RefusedWhenHalted (i : Instr) : Prop :=
  ∀ s : State, s.halted = true → ∃ t, exec i s = .next t ∧ Raised s t .eHalted

/-- The clause on illegal words of a command's rule: a word with its `op` that its mask refuses raises `E_ILLEGAL` (R56). -/
def IllegalOutsideMask (op : Byte) (mask : Word32) : Prop :=
  ∀ (w : Word32) (s : State), w.extractLsb' 24 8 = op → w &&& mask ≠ op ++ 0#24 → s.halted = false →
    ∃ t, issue w s = .next t ∧ Raised s t .eIllegal

/-- The clauses every command's rule has beside its effect: its encoding, that a word with its `op` outside its mask is
illegal, and that a halted engine refuses it. -/
structure CommandForm (i : Instr) (word mask : Word32) : Prop where
  encoding : EncodedAs i word
  illegal : IllegalOutsideMask (word.extractLsb' 24 8) mask
  halted : RefusedWhenHalted i

/-- The bytes of `BUF` from an offset on. -/
def State.bytesAt (s : State) (off len : Nat) : Bytes := (List.range len).map fun k => s.byteAt (off + k)

/-! ## Which command raises what (R191, R196 [60_exceptions.md]) -/

/-- The commands a cause is raised by: the last column of the table of R191. -/
def Cause.raisedBy (c : Cause) (i : Instr) : Prop :=
  match c with
  | .eIllegal => False
  | .eRange => i.destBuf.isSome = true ∨ ∃ rd off, i = .ldw rd off
  | .eLen => ∃ dst src len, i = .genaddr dst src len ∨ i = .genaddrt dst src len
  | .eNotOnCurve => ∃ pd rs1 rs2, i = .pset pd rs1 rs2
  | .eEntropy | .eSalt | .fRetryKdf => (∃ rd rs1 rs2, i = .dpriv rd rs1 rs2) ∨ ∃ rs1 rs2 off a b, i = .keypair rs1 rs2 off a b
  | .ePrivkey => (∃ pd rs1, i = .dpub pd rs1) ∨ (∃ rs1 rs2 off, i = .sign rs1 rs2 off) ∨
      ∃ rs1 rs2 off t, i = .signtx rs1 rs2 off t
  | .fInvZero => (∃ rd rs1, i = .finv rd rs1 ∨ i = .sinv rd rs1) ∨ (∃ pd ps1 ps2, i = .padd pd ps1 ps2) ∨
      (∃ pd ps1, i = .pdbl pd ps1) ∨ (∃ pd ps1 rs2, i = .pmul pd ps1 rs2) ∨ (∃ pd rs1, i = .dpub pd rs1) ∨
      (∃ rs1 rs2 off a b, i = .keypair rs1 rs2 off a b) ∨ (∃ rs1 rs2 off, i = .sign rs1 rs2 off) ∨
      ∃ rs1 rs2 off t, i = .signtx rs1 rs2 off t
  | .fIdentity => (∃ ps1 off, i = .encu ps1 off ∨ i = .encc ps1 off) ∨ (∃ pd rs1, i = .dpub pd rs1) ∨
      (∃ rs1 rs2 off a b, i = .keypair rs1 rs2 off a b) ∨ (∃ rs1 rs2 off, i = .sign rs1 rs2 off) ∨
      ∃ rs1 rs2 off t, i = .signtx rs1 rs2 off t
  | .fRetryNonce => (∃ rs1 rs2 off, i = .sign rs1 rs2 off) ∨ ∃ rs1 rs2 off t, i = .signtx rs1 rs2 off t
  | .eHalted => True

/-- Whether a value is a private key: `1 <= d < n` (R143, R173). -/
def IsPrivateKey (d : Word) : Prop := 1 ≤ d.toNat ∧ d.toNat < Config.n

/-- Step (5) of R196: the operand validation of a command, `E_ENTROPY` before `E_SALT`. -/
def OperandFailure (i : Instr) (s : State) (c : Cause) : Prop :=
  match i with
  | .dpriv _ rs1 rs2 | .keypair rs1 rs2 _ _ _ =>
    (s.getX rs1 = 0 ∧ c = .eEntropy) ∨ (s.getX rs1 ≠ 0 ∧ s.getX rs2 = 0 ∧ c = .eSalt)
  | .dpub _ rs1 | .sign rs1 _ _ | .signtx rs1 _ _ _ => ¬ IsPrivateKey (s.getX rs1) ∧ c = .ePrivkey
  | .pset _ rs1 rs2 => ¬ OnCurve (s.getX rs1) (s.getX rs2) ∧ c = .eNotOnCurve
  | .nop | .li .. | .mov .. | .ldw .. | .stw .. | .fadd .. | .fsub .. | .fmul .. | .finv .. | .fred .. | .sadd .. | .ssub ..
  | .smul .. | .sinv .. | .sred .. | .pinf .. | .pgen .. | .pmov .. | .pgetx .. | .pgety .. | .padd .. | .pdbl .. | .pmul ..
  | .sha256 .. | .sha256d .. | .rmd160 .. | .hash160 .. | .encu .. | .encc .. | .genaddr .. | .genaddrt .. => False

/-- The check of steps (1) to (5) of R196 that fails first for a word issued in a state, by its cause. -/
inductive FirstFailure (w : Word32) (s : State) : Cause → Prop where
  | halted : s.halted = true → FirstFailure w s .eHalted
  | illegal : s.halted = false → (∀ r ∈ opcodeTable, w &&& r.mask ≠ r.pattern) → FirstFailure w s .eIllegal
  | len {i} : s.halted = false → decode w = .ok i → i.lenOk = false → FirstFailure w s .eLen
  | range {i} : s.halted = false → decode w = .ok i → i.lenOk = true → i.rangesOk = false → FirstFailure w s .eRange
  | operands {i c} : s.halted = false → decode w = .ok i → i.wellFormed = true → OperandFailure i s c → FirstFailure w s c

/-! ## The group law (R100 to R102 [42_curve_point.md]) -/

/-- The coordinate field. -/
abbrev Fp := ZMod Config.p

/-- A coordinate as a field element. -/
def fp (v : Word) : Fp := (v.toNat : Fp)

/-- `R` is the third point of the line of slope `lam` through `(x1, y1)` and a point with first coordinate `x2`, negated. -/
def OnChord (lam : Fp) (x1 y1 x2 : Word) (R : Point) : Prop :=
  ∃ x3 y3 : Word, R = .aff x3 y3 ∧ x3.toNat < Config.p ∧ y3.toNat < Config.p ∧
    fp x3 = lam ^ 2 - fp x1 - fp x2 ∧ fp y3 = lam * (fp x1 - fp x3) - fp y1

/-- `R = P + Q`: the identity is neutral, `P + (-P)` is the identity, `P + P` goes by the tangent and the rest by the chord
(R100, R101). -/
def IsSum : Point → Point → Point → Prop
  | .inf, Q, R => R = Q
  | .aff x1 y1, .inf, R => R = .aff x1 y1
  | .aff x1 y1, .aff x2 y2, R =>
    (x1 = x2 ∧ fp y1 + fp y2 = 0 ∧ R = .inf) ∨
    (x1 = x2 ∧ fp y1 + fp y2 ≠ 0 ∧ ∃ lam : Fp, lam * (2 * fp y1) = 3 * fp x1 ^ 2 ∧ OnChord lam x1 y1 x2 R) ∨
    (x1 ≠ x2 ∧ ∃ lam : Fp, lam * (fp x2 - fp x1) = fp y2 - fp y1 ∧ OnChord lam x1 y1 x2 R)

/-- `R` is the `k`-fold sum of `P` (R102). -/
inductive KFold (P : Point) : Nat → Point → Prop where
  | zero : KFold P 0 .inf
  | succ {k Q R} : KFold P k Q → IsSum Q P R → KFold P (k + 1) R

/-! ## The signature (R172, R173 [46_signer.md]) -/

/-- The generator's state before attempt `j`, the first attempt being 0. -/
def nonceStateAt (d z : Word) : Nat → NonceState
  | 0 => nonceInit d z
  | j + 1 => nonceReject (nonceCandidate (nonceStateAt d z j))

/-- The candidate `k` of attempt `j`. -/
def candidateAt (d z : Word) (j : Nat) : Word := beWord (nonceCandidate (nonceStateAt d z j)).V

/-- The candidate `k` gives the signature: `R = k G`, `r = R.x mod n`, `k s0 = z + r d` modulo `n`, neither is 0, and `s0` is
made canonical (R173 steps 3 to 6). -/
def Accepts (d z k : Word) (sig : Signature) : Prop :=
  IsPrivateKey k ∧ ∃ (rx ry : Word) (s0 : Nat), KFold generator k.toNat (.aff rx ry) ∧
    sig.r.toNat = rx.toNat % Config.n ∧ sig.r.toNat ≠ 0 ∧
    1 ≤ s0 ∧ s0 < Config.n ∧ (k.toNat * s0) % Config.n = (z.toNat + sig.r.toNat * d.toNat) % Config.n ∧
    sig.s.toNat = (if s0 > Config.halfN then Config.n - s0 else s0) ∧
    (sig.v = true ↔ (ry.toNat % 2 = 1 ↔ s0 ≤ Config.halfN))

/-- The candidate `k` is refused: out of range, or `r` or `s` is 0 (R173). -/
def Rejects (d z k : Word) : Prop :=
  ¬ IsPrivateKey k ∨ ∃ rx ry : Word, KFold generator k.toNat (.aff rx ry) ∧
    (rx.toNat % Config.n = 0 ∨ (z.toNat + rx.toNat % Config.n * d.toNat) % Config.n = 0)

/-- `SerializeSig(r, s, v)`: 32 bytes of `r`, 32 of `s`, and the byte `v` (R176). -/
def signatureBytes (sig : Signature) : Bytes := bytesBe sig.r.toNat 32 ++ bytesBe sig.s.toNat 32 ++ [if sig.v then 1 else 0]

/-! ## Encodings and addresses (R140, R141 [44_key_derivation.md], R160 [45_address_codec.md]) -/

/-- The uncompressed encoding of a finite point, 65 bytes (R140). -/
def uncompressedBytes (x y : Word) : Bytes := 0x04 :: bytesBe x.toNat 32 ++ bytesBe y.toNat 32

/-- The compressed encoding of a finite point, 33 bytes: the prefix tells the parity of `y` (R141). -/
def compressedBytes (x y : Word) : Bytes := BitVec.ofNat 8 (2 + y.toNat % 2) :: bytesBe x.toNat 32

/-- The address payload of a public key, 25 bytes: version, `hash160`, checksum (R160). -/
def addressBytes (pub : Bytes) (testnet : Bool) : Bytes :=
  (if testnet then 0x6F else 0x00) :: rmd160 (sha256 pub) ++
    (sha256 (sha256 ((if testnet then 0x6F else 0x00) :: rmd160 (sha256 pub)))).take 4

/-! ## Key derivation (R142 [44_key_derivation.md]) -/

/-- The digest of attempt `c` reduced modulo `n`: SHA-256 of entropy and salt, with the counter byte from the second attempt
on. -/
def kdfDigest (e s : Word) (c : Nat) : Nat :=
  be (sha256 (bytesBe e.toNat 32 ++ bytesBe s.toNat 32 ++ if c = 0 then [] else [BitVec.ofNat 8 c])) % Config.n

/-- `d` is the private key of entropy `e` and salt `s`: the first of the four reduced digests that is not 0. -/
def Derives (e s : Word) (d : Nat) : Prop :=
  ∃ c : Nat, c < Config.kdfAttempts ∧ (∀ j : Nat, j < c → kdfDigest e s j = 0) ∧ kdfDigest e s c ≠ 0 ∧ d = kdfDigest e s c

end Sys2Proof.Machine
end

