-- ==== Sys2Proof/Certificates/Slice0/Obligations.lean ====
section
/-! DEFINITION. The statements for the provers. Each docstring names the rules of the spec it formalises; a clause that rests on
the model's own choice names the log entry. -/

section
open Sys2Proof Sys2Proof.Machine

/-! ## Encoding (30_encoding.md) -/

/-- Decoding the word of a command gives the command back, every operand at every value (R51 to R55). -/
def Obligations.DecodeOfEncode : Prop := ∀ i : Instr, decode (encode i) = .ok i

/-- A command has one word only: whatever decodes to it is its encoding (R51: "A field a command does not use must be 0"). -/
def Obligations.EncodeOfDecode : Prop := ∀ (w : Word32) (i : Instr), decode w = .ok i → encode i = w

/-- R55: a word is the command of the first and only row of the opcode table it matches under the row's mask. -/
def Obligations.LegalWordMatchesItsOnlyRow : Prop :=
  (∀ (w : Word32) (i : Instr), decode w = .ok i →
    i.tableRow ∈ opcodeTable ∧ w &&& i.tableRow.mask = i.tableRow.pattern) ∧
  (∀ (w : Word32) (r : OpcodeRow), r ∈ opcodeTable → w &&& r.mask = r.pattern → ∃ i, decode w = .ok i ∧ i.tableRow = r) ∧
  (∀ (w : Word32) (r r' : OpcodeRow), r ∈ opcodeTable → r' ∈ opcodeTable → w &&& r.mask = r.pattern →
    w &&& r'.mask = r'.pattern → r = r') ∧
  (∀ r ∈ opcodeTable, r.mask &&& 0xFF000000 = 0xFF000000) ∧
  opcodeTable.length = 37

/-- R56: a word that matches no row is illegal, whatever the reason, and raises `E_ILLEGAL`; the engine is ready for the next
command. The all-zero word is `NOP`, the all-ones word is illegal, 219 values of `op` are unassigned. -/
def Obligations.IllegalWordRaisesIllegal : Prop :=
  (∀ (w : Word32) (s : State), s.halted = false → (∀ r ∈ opcodeTable, w &&& r.mask ≠ r.pattern) →
    ∃ t, issue w s = .next t ∧ Raised s t .eIllegal ∧ t.halted = false) ∧
  ((List.range 256).filter fun op => opcodeTable.all fun r => (r.pattern.extractLsb' 24 8).toNat != op).length = 219 ∧
  (∀ (w : Word32) (i : Instr), decode w = .ok i →
    (w.extractLsb' 24 8 < 0x30#8 ∨ (0x40#8 ≤ w.extractLsb' 24 8 ∧ w.extractLsb' 24 8 ≤ 0x43#8) → w.extractLsb' 8 4 = 0) ∧
    (w.extractLsb' 24 8 = 0x60#8 → w.extractLsb' 0 8 = 0) ∧
    (w.extractLsb' 24 8 = 0x44#8 → w.extractLsb' 2 6 = 0)) ∧
  decode 0x00000000 = .ok .nop ∧
  (∀ r ∈ opcodeTable, (0xFFFFFFFF : Word32) &&& r.mask ≠ r.pattern)

/-- R52: a format B word is `op`, `src`, `len`, `dst`, and every such word with an assigned `op` is legal. -/
def Obligations.FormatBWordsAreAllLegal : Prop :=
  ∀ src len dst : Byte,
    decode (0x30#8 ++ src ++ len ++ dst) = .ok (.sha256 dst src len) ∧
    decode (0x31#8 ++ src ++ len ++ dst) = .ok (.sha256d dst src len) ∧
    decode (0x32#8 ++ src ++ len ++ dst) = .ok (.rmd160 dst src len) ∧
    decode (0x33#8 ++ src ++ len ++ dst) = .ok (.hash160 dst src len) ∧
    decode (0x50#8 ++ src ++ len ++ dst) = .ok (.genaddr dst src len) ∧
    decode (0x51#8 ++ src ++ len ++ dst) = .ok (.genaddrt dst src len)

/-- R53: the fields of format S; the last byte is any value for `SIGNTX`, 0 for `SIGN`, two flag bits for `KEYPAIR`. -/
def Obligations.FormatSLastByte : Prop :=
  ∀ (rs1 rs2 : XReg) (off imm8 : Byte),
    decode (0x61#8 ++ xField rs1 ++ xField rs2 ++ off ++ imm8) = .ok (.signtx rs1 rs2 off imm8) ∧
    (imm8 = 0 → decode (0x60#8 ++ xField rs1 ++ xField rs2 ++ off ++ imm8) = .ok (.sign rs1 rs2 off)) ∧
    (imm8 ≠ 0 → ∀ i, decode (0x60#8 ++ xField rs1 ++ xField rs2 ++ off ++ imm8) ≠ .ok i) ∧
    (imm8.extractLsb' 2 6 = 0 → decode (0x44#8 ++ xField rs1 ++ xField rs2 ++ off ++ imm8) =
      .ok (.keypair rs1 rs2 off (imm8.getLsbD 0) (imm8.getLsbD 1))) ∧
    (imm8.extractLsb' 2 6 ≠ 0 → ∀ i, decode (0x44#8 ++ xField rs1 ++ xField rs2 ++ off ++ imm8) ≠ .ok i)

/-- Words of the spec's examples, one or more of each family, decode to the commands they stand for. -/
def Obligations.ExampleWordsDecode : Prop :=
  decode 0x01100005 = .ok (.li 1 5) ∧ decode 0x02210000 = .ok (.mov 2 1) ∧ decode 0x04030040 = .ok (.stw 3 0x40) ∧
  decode 0x11312000 = .ok (.fsub 3 1 2) ∧ decode 0x1B410000 = .ok (.sinv 4 1) ∧ decode 0x22112000 = .ok (.pset 1 1 2) ∧
  decode 0x2A104000 = .ok (.pmul 1 0 4) ∧ decode 0x30000340 = .ok (.sha256 0x40 0x00 3) ∧
  decode 0x40312000 = .ok (.dpriv 3 1 2) ∧ decode 0x43000080 = .ok (.encc 0 0x80) ∧
  decode 0x44120002 = .ok (.keypair 1 2 0x00 false true) ∧ decode 0x51004180 = .ok (.genaddrt 0x80 0x00 65) ∧
  decode 0x61124001 = .ok (.signtx 1 2 0x40 1)

/-! ## The step and the host port (20_memory.md, 10_state.md) -/

/-- When the next event of the port is a host write of a command's word to `CMD`, the step is that command, at the state with
the event taken off (R50 step 3, R12; the list of events is the model's, log 1). -/
def Obligations.StepRunsDecodedCommand : Prop :=
  (∀ (s : State) (w : Word32) (rest : List HostEvent) (i : Instr), s.pending = .write cmdWa w :: rest → decode w = .ok i →
    step s = exec i { s with pending := rest }) ∧
  (∀ (s : State) (w : Word32) (i : Instr), decode w = .ok i → step (s.withFetchWord 32 w.toNat) = exec i s)

/-- What the step does for every other event: a read appends its value to the replies and changes nothing else, a write to
another word is the host write, and with no event nothing happens (log 1, log 2). -/
def Obligations.StepDeliversTheNextEvent : Prop :=
  ∀ (s : State) (rest : List HostEvent),
    (∀ wa, s.pending = .read wa :: rest →
      step s = .next { s with pending := rest, replies := s.replies ++ [hostRead s wa] }) ∧
    (∀ wa d, s.pending = .write wa d :: rest → step s = hostWrite { s with pending := rest } wa d) ∧
    (s.pending = [] → step s = .next s)

/-- R32 and R33: the map of the host window. Reads: the words of `x`, of `BUF`, `CMD`, `STATUS`, `PTINF` and the reserved words.
Writes: 32 bits of a register with the other 224 unchanged, four bytes of the buffer, the issue of a command, and nothing at the
other words. None of it depends on `STATUS.FATAL`. That the value of a delivered read is appended to `State.replies`, in the last
clause, is the model's choice (log 2). -/
def Obligations.HostWindow : Prop :=
  (∀ (s : State) (i : XReg) (j : Fin 8),
    (∀ b : Nat, b < 32 → (hostRead s (BitVec.ofNat 8 (8 * i.val + j.val))).getLsbD b =
      (s.getX i).getLsbD (224 - 32 * j.val + b)) ∧
    ∀ d : Word32, ∃ t, hostWrite s (BitVec.ofNat 8 (8 * i.val + j.val)) d = .next t ∧
      (∀ b : Nat, b < 256 → (t.getX i).getLsbD b =
        if 224 - 32 * j.val ≤ b ∧ b < 256 - 32 * j.val then d.getLsbD (b - (224 - 32 * j.val)) else (s.getX i).getLsbD b) ∧
      (∀ r : XReg, r ≠ i → t.getX r = s.getX r) ∧ t.pt = s.pt ∧ t.buf = s.buf ∧ t.status = s.status ∧ SameHost s t) ∧
  (∀ (s : State) (k : Fin 64), s.buf.wf →
    hostRead s (BitVec.ofNat 8 (128 + k.val)) =
      s.byteAt (4 * k.val) ++ s.byteAt (4 * k.val + 1) ++ s.byteAt (4 * k.val + 2) ++ s.byteAt (4 * k.val + 3) ∧
    ∀ d : Word32, ∃ t, hostWrite s (BitVec.ofNat 8 (128 + k.val)) d = .next t ∧
      (∀ a : Nat, t.byteAt a = if 4 * k.val ≤ a ∧ a < 4 * k.val + 4 then d.extractLsb' (8 * (4 * k.val + 3 - a)) 8
        else s.byteAt a) ∧
      t.x = s.x ∧ t.pt = s.pt ∧ t.status = s.status ∧ SameHost s t) ∧
  (∀ (s : State) (d : Word32), hostRead s 0xC0 = 0 ∧ hostWrite s 0xC0 d = issue d s) ∧
  (∀ (s : State) (d : Word32), hostRead s 0xC1 = s.status ∧ hostWrite s 0xC1 d = .next s) ∧
  (∀ (s : State) (d : Word32), hostRead s 0xC2 = ptinf s.pt ∧ hostWrite s 0xC2 d = .next s) ∧
  (∀ (s : State) (wa : BitVec 8) (d : Word32), 0xC3 ≤ wa → hostRead s wa = 0 ∧ hostWrite s wa d = .next s) ∧
  (∀ (s : State) (wa : BitVec 8), deliver (.read wa) s = .next { s with replies := s.replies ++ [hostRead s wa] })

/-- R42: a host read returns the value of the latest write, and a write to one word of `x` or `BUF` changes what no other word
reads as. -/
def Obligations.HostReadReturnsLatestWrite : Prop :=
  ∀ (s t : State) (wa : BitVec 8) (d : Word32), s.buf.wf → wa.toNat < 192 → hostWrite s wa d = .next t →
    hostRead t wa = d ∧ ∀ wa' : BitVec 8, wa' ≠ wa → hostRead t wa' = hostRead s wa'

/-- R17: `PTINF` shows which point registers hold the identity, reads `0x0000000F` after reset, and ignores a write. -/
def Obligations.PtinfShowsIdentities : Prop :=
  (∀ (s : State) (i : PReg), (hostRead s 0xC2).getLsbD i.val = true ↔ s.getPt i = .inf) ∧
  (∀ (s : State) (b : Nat), 4 ≤ b → (hostRead s 0xC2).getLsbD b = false) ∧
  hostRead State.reset 0xC2 = 0x0000000F ∧
  (∀ (s : State) (d : Word32), hostWrite s 0xC2 d = .next s)

/-- R22: the reset values. -/
def Obligations.ResetValues : Prop :=
  (∀ r : XReg, State.reset.getX r = 0) ∧ (∀ q : PReg, State.reset.getPt q = .inf) ∧
  (∀ a : Nat, a < 256 → State.reset.byteAt a = 0x00) ∧ State.reset.status = 0x00000000 ∧
  ptinf State.reset.pt = 0x0000000F ∧
  errOf State.reset.status = 0 ∧ fatalOf State.reset.status = false ∧ fcodeOf State.reset.status = 0

/-- R220: the reset event puts every piece of the hardware's state at its reset value whatever the state was, halted included;
the host's own pending events and replies stay (log 5). -/
def Obligations.ResetEventClearsEverything : Prop :=
  ∀ (s : State) (rest : List HostEvent), s.pending = .reset :: rest →
    ∃ t, step s = .next t ∧ (∀ r : XReg, t.getX r = 0) ∧ (∀ q : PReg, t.getPt q = .inf) ∧ (∀ a : Nat, t.byteAt a = 0x00) ∧
      t.status = 0x00000000 ∧ t.pending = rest ∧ t.replies = s.replies

/-! ## Errors and fatal failures (60_exceptions.md) -/

/-- R190: a command ends in exactly one of three ways; the codes of the causes differ from success and from each other. -/
def Obligations.CommandEndsInOneOfThreeWays : Prop :=
  (∀ (i : Instr) (s : State), ∃ t, exec i s = .next t ∧
    (Succeeded s t ∨ (∃ c : Cause, c.isFatal = false ∧ Raised s t c) ∨
      ∃ c : Cause, c.isFatal = true ∧ Raised s t c ∧ t.halted = true)) ∧
  (∀ c : Cause, c.code ≠ 0x00) ∧ (∀ c d : Cause, c.code = d.code → c = d)

/-- R191: the codes, their classes, the commands that raise each, and no other value of `ERR`. -/
def Obligations.ResultCodesAndTheirCommands : Prop :=
  Cause.code .eIllegal = 0x01 ∧ Cause.code .eRange = 0x02 ∧ Cause.code .eLen = 0x03 ∧ Cause.code .eNotOnCurve = 0x04 ∧
  Cause.code .eEntropy = 0x10 ∧ Cause.code .eSalt = 0x11 ∧ Cause.code .ePrivkey = 0x12 ∧ Cause.code .fInvZero = 0x80 ∧
  Cause.code .fIdentity = 0x81 ∧ Cause.code .fRetryNonce = 0x82 ∧ Cause.code .fRetryKdf = 0x83 ∧ Cause.code .eHalted = 0xFF ∧
  (∀ c : Cause, c.isFatal = true ↔ c = .fInvZero ∨ c = .fIdentity ∨ c = .fRetryNonce ∨ c = .fRetryKdf) ∧
  (∀ (i : Instr) (s t : State), exec i s = .next t → errOf t.status = 0x00 ∨ ∃ c : Cause, errOf t.status = c.code ∧ c.raisedBy i) ∧
  (∀ (w : Word32) (s t : State), issue w s = .next t → KnownCode (errOf t.status))

/-- R193: a fatal failure writes nothing but `STATUS`, sets `FATAL` and `FCODE`; a halted engine answers every word with
`E_HALTED` and keeps `FCODE`; host reads and writes go on as before; only reset leaves the halted state. -/
def Obligations.FatalFailureHaltsUntilReset : Prop :=
  (∀ (i : Instr) (s t : State) (c : Cause), s.halted = false → c.isFatal = true → exec i s = .next t →
    errOf t.status = c.code → Raised s t c ∧ t.halted = true ∧ fcodeOf t.status = c.code) ∧
  (∀ (w : Word32) (s : State), s.halted = true → ∃ t, issue w s = .next t ∧ Raised s t .eHalted) ∧
  (∀ (s : State) (st : Word32) (wa : BitVec 8), wa.toNat < 192 →
    hostRead { s with status := st } wa = hostRead s wa ∧
    ∀ d, ∃ t, hostWrite s wa d = .next t ∧ hostWrite { s with status := st } wa d = .next { t with status := st }) ∧
  (∀ (s : State) (d : Word32), s.halted = true → hostRead s 0xC1 = s.status ∧ hostRead s 0xC2 = ptinf s.pt ∧
    hostWrite s 0xC1 d = .next s ∧ hostWrite s 0xC2 d = .next s) ∧
  (∀ s t : State, s.halted = true → step s = .next t → (∀ rest, s.pending ≠ .reset :: rest) → t.halted = true) ∧
  (∀ (s t : State) (rest : List HostEvent), s.pending = .reset :: rest → step s = .next t → t.halted = false)

/-- R195: from points on the curve, a fatal failure happens in exactly these ways. -/
def Obligations.ReachableFatalFailures : Prop :=
  ∀ (i : Instr) (s t : State), s.PointsOnCurve → s.halted = false → exec i s = .next t → t.halted = true →
    (∃ rd rs1, i = .finv rd rs1 ∧ (s.getX rs1).toNat % Config.p = 0 ∧ Raised s t .fInvZero) ∨
    (∃ rd rs1, i = .sinv rd rs1 ∧ (s.getX rs1).toNat % Config.n = 0 ∧ Raised s t .fInvZero) ∨
    (∃ ps1 off, (i = .encu ps1 off ∨ i = .encc ps1 off) ∧ s.getPt ps1 = .inf ∧ Raised s t .fIdentity) ∨
    (((∃ rs1 rs2 off, i = .sign rs1 rs2 off) ∨ ∃ rs1 rs2 off imm8, i = .signtx rs1 rs2 off imm8) ∧
      Raised s t .fRetryNonce) ∨
    (((∃ rd rs1 rs2, i = .dpriv rd rs1 rs2) ∨ ∃ rs1 rs2 off a b, i = .keypair rs1 rs2 off a b) ∧ Raised s t .fRetryKdf)

/-- R196: the checks of a command word are made in the fixed order and the first that fails is reported; a word that passes
them all succeeds or ends in a fatal failure. -/
def Obligations.FirstFailingCheckIsReported : Prop :=
  (∀ (w : Word32) (s : State) (c : Cause), FirstFailure w s c → ∃ t, issue w s = .next t ∧ Raised s t c) ∧
  (∀ (w : Word32) (s : State), (∀ c, ¬ FirstFailure w s c) → ∃ t, issue w s = .next t ∧
    (Succeeded s t ∨ ∃ c : Cause, c.isFatal = true ∧ Raised s t c))

/-! ## Invariants and rules of the whole machine -/

/-- The state after reset meets the invariant. -/
def Obligations.ResetMeetsInvariant : Prop := State.reset.Inv

/-- Every step keeps the invariant: points on the curve (R21), the buffer in canonical form, the rules of `STATUS` (R15,
R191). -/
def Obligations.EveryStepKeepsInvariant : Prop := ∀ s t : State, s.Inv → step s = .next t → t.Inv

/-- R21: in every reachable state each point register is `Inf` or a point of the curve: after reset, and kept by every step,
whatever the rest of the state. -/
def Obligations.PointRegistersStayOnCurve : Prop :=
  State.reset.PointsOnCurve ∧ ∀ s t : State, s.PointsOnCurve → step s = .next t → t.PointsOnCurve

/-- The frame of every command at once: whatever way it ends, it changes no general register but the one it names as `rd`, no
point register but `pd`, no byte outside the range R34 gives it, and nothing of the host's. -/
def Obligations.CommandWritesOnlyItsDestinations : Prop :=
  ∀ (i : Instr) (s t : State), s.buf.wf → exec i s = .next t →
    (∀ r : XReg, i.destX ≠ some r → t.getX r = s.getX r) ∧
    (∀ q : PReg, i.destPt ≠ some q → t.getPt q = s.getPt q) ∧
    (∀ a : Nat, (∀ off len, i.destBuf = some (off, len) → a < off ∨ off + len ≤ a) → t.byteAt a = s.byteAt a) ∧
    SameHost s t

/-- R11 over a step: a general register changes only by reset, by a host write to one of its own words, or by a command that
names it as `rd`. -/
def Obligations.RegisterHoldsUntilWritten : Prop :=
  ∀ (s t : State) (r : XReg), step s = .next t → t.getX r ≠ s.getX r →
    (∃ rest, s.pending = .reset :: rest) ∨
    (∃ wa d rest, s.pending = .write wa d :: rest ∧ wa.toNat / 8 = r.val) ∨
    ∃ w i rest, s.pending = .write cmdWa w :: rest ∧ decode w = .ok i ∧ i.destX = some r

/-- A command's outcome depends on nothing but whether the engine is halted, its source registers and its source bytes (R34,
R75): two states that agree on those report the same `ERR`, and a success leaves the same destination. -/
def Obligations.CommandDependsOnlyOnItsSources : Prop :=
  ∀ (i : Instr) (s s' t t' : State), s.buf.wf → s'.buf.wf → s.halted = s'.halted →
    (∀ r ∈ i.srcX, s.getX r = s'.getX r) → (∀ q ∈ i.srcPt, s.getPt q = s'.getPt q) →
    (∀ k : Nat, k < i.srcBuf.2 → s.byteAt (i.srcBuf.1 + k) = s'.byteAt (i.srcBuf.1 + k)) →
    exec i s = .next t → exec i s' = .next t' →
    errOf t.status = errOf t'.status ∧ t.halted = t'.halted ∧
    (errOf t.status = 0x00 →
      (∀ r : XReg, i.destX = some r → t.getX r = t'.getX r) ∧
      (∀ q : PReg, i.destPt = some q → t.getPt q = t'.getPt q) ∧
      (∀ off len k : Nat, i.destBuf = some (off, len) → k < len → t.byteAt (off + k) = t'.byteAt (off + k)))

/-! ## Data movement (40_data_movement.md) -/

/-- `NOP` changes nothing but `STATUS.ERR` (R70). -/
def Obligations.NopChangesNothingButErr : Prop :=
  CommandForm .nop 0x00000000 0xFFFFFFFF ∧
  ∀ s : State, s.halted = false → ∃ t, exec .nop s = .next t ∧ Succeeded s t ∧ (∀ r : XReg, t.getX r = s.getX r) ∧
    (∀ q : PReg, t.getPt q = s.getPt q) ∧ ∀ a : Nat, t.byteAt a = s.byteAt a

/-- R71: `LI` writes the zero-extended immediate. -/
def Obligations.LiWritesZeroExtendedImmediate : Prop :=
  ∀ (rd : XReg) (imm8 : Byte),
    CommandForm (.li rd imm8) (0x01#8 ++ xField rd ++ 0#4 ++ 0#4 ++ 0#4 ++ imm8) 0xFF0FFF00 ∧
    ∀ s : State, s.halted = false → ∃ t v, exec (.li rd imm8) s = .next t ∧ WroteX s t rd v ∧ v.toNat = imm8.toNat

/-- R72: `MOV` copies all 256 bits. -/
def Obligations.MovCopiesRegister : Prop :=
  ∀ rd rs1 : XReg,
    CommandForm (.mov rd rs1) (0x02#8 ++ xField rd ++ xField rs1 ++ 0#4 ++ 0#4 ++ 0#8) 0xFF00FFFF ∧
    ∀ s : State, s.halted = false → ∃ t, exec (.mov rd rs1) s = .next t ∧ WroteX s t rd (s.getX rs1)

/-- R73: `LDW` reads 32 bytes, `BUF[off]` into bits 255:248; past offset 224 it raises `E_RANGE`. -/
def Obligations.LdwLoadsBigEndian : Prop :=
  ∀ (rd : XReg) (off : Byte),
    CommandForm (.ldw rd off) (0x03#8 ++ xField rd ++ 0#4 ++ 0#4 ++ 0#4 ++ off) 0xFF0FFF00 ∧
    ∀ s : State, s.halted = false →
      (off.toNat ≤ 224 → ∃ t v, exec (.ldw rd off) s = .next t ∧ WroteX s t rd v ∧
        ∀ k : Nat, k < 32 → v.extractLsb' (8 * (31 - k)) 8 = s.byteAt (off.toNat + k)) ∧
      (224 < off.toNat → ∃ t, exec (.ldw rd off) s = .next t ∧ Raised s t .eRange)

/-- R74: `STW` writes 32 bytes, bits 255:248 to `BUF[off]`; past offset 224 it raises `E_RANGE`; `LDW` at the same offset then
returns the value. -/
def Obligations.StwStoresBigEndian : Prop :=
  ∀ (rs1 : XReg) (off : Byte),
    CommandForm (.stw rs1 off) (0x04#8 ++ 0#4 ++ xField rs1 ++ 0#4 ++ 0#4 ++ off) 0xFFF0FF00 ∧
    ∀ s : State, s.halted = false →
      (s.buf.wf → off.toNat ≤ 224 → ∃ t bs, exec (.stw rs1 off) s = .next t ∧ WroteBuf s t off.toNat bs ∧ bs.length = 32 ∧
        (∀ k : Nat, k < 32 → t.byteAt (off.toNat + k) = (s.getX rs1).extractLsb' (8 * (31 - k)) 8) ∧
        ∀ rd : XReg, ∃ u, exec (.ldw rd off) t = .next u ∧ u.getX rd = s.getX rs1) ∧
      (224 < off.toNat → ∃ t, exec (.stw rs1 off) s = .next t ∧ Raised s t .eRange)

/-! ## Modular arithmetic (41_modular_arithmetic.md) -/

/-- R84, R89: `FADD` and `SADD` write the residue of the exact sum. -/
def Obligations.AddWritesResidueOfSum : Prop :=
  ∀ rd rs1 rs2 : XReg,
    CommandForm (.fadd rd rs1 rs2) (0x10#8 ++ xField rd ++ xField rs1 ++ xField rs2 ++ 0#4 ++ 0#8) 0xFF000FFF ∧
    CommandForm (.sadd rd rs1 rs2) (0x18#8 ++ xField rd ++ xField rs1 ++ xField rs2 ++ 0#4 ++ 0#8) 0xFF000FFF ∧
    ∀ s : State, s.halted = false →
      (∃ t v, exec (.fadd rd rs1 rs2) s = .next t ∧ WroteX s t rd v ∧
        v.toNat = ((s.getX rs1).toNat + (s.getX rs2).toNat) % Config.p) ∧
      (∃ t v, exec (.sadd rd rs1 rs2) s = .next t ∧ WroteX s t rd v ∧
        v.toNat = ((s.getX rs1).toNat + (s.getX rs2).toNat) % Config.n)

/-- R85, R90: `FSUB` and `SSUB` write the non-negative residue of the exact difference. -/
def Obligations.SubWritesResidueOfDifference : Prop :=
  ∀ rd rs1 rs2 : XReg,
    CommandForm (.fsub rd rs1 rs2) (0x11#8 ++ xField rd ++ xField rs1 ++ xField rs2 ++ 0#4 ++ 0#8) 0xFF000FFF ∧
    CommandForm (.ssub rd rs1 rs2) (0x19#8 ++ xField rd ++ xField rs1 ++ xField rs2 ++ 0#4 ++ 0#8) 0xFF000FFF ∧
    ∀ s : State, s.halted = false →
      (∃ t v, exec (.fsub rd rs1 rs2) s = .next t ∧ WroteX s t rd v ∧
        (v.toNat : Int) = ((s.getX rs1).toNat - (s.getX rs2).toNat : Int) % Config.p) ∧
      (∃ t v, exec (.ssub rd rs1 rs2) s = .next t ∧ WroteX s t rd v ∧
        (v.toNat : Int) = ((s.getX rs1).toNat - (s.getX rs2).toNat : Int) % Config.n)

/-- R86, R91: `FMUL` and `SMUL` write the residue of the exact product. -/
def Obligations.MulWritesResidueOfProduct : Prop :=
  ∀ rd rs1 rs2 : XReg,
    CommandForm (.fmul rd rs1 rs2) (0x12#8 ++ xField rd ++ xField rs1 ++ xField rs2 ++ 0#4 ++ 0#8) 0xFF000FFF ∧
    CommandForm (.smul rd rs1 rs2) (0x1A#8 ++ xField rd ++ xField rs1 ++ xField rs2 ++ 0#4 ++ 0#8) 0xFF000FFF ∧
    ∀ s : State, s.halted = false →
      (∃ t v, exec (.fmul rd rs1 rs2) s = .next t ∧ WroteX s t rd v ∧
        v.toNat = ((s.getX rs1).toNat * (s.getX rs2).toNat) % Config.p) ∧
      (∃ t v, exec (.smul rd rs1 rs2) s = .next t ∧ WroteX s t rd v ∧
        v.toNat = ((s.getX rs1).toNat * (s.getX rs2).toNat) % Config.n)

/-- R88, R93: `FRED` and `SRED` write the residue of the 512-bit value with high half `rs1` and low half `rs2`. -/
def Obligations.RedWritesResidueOfWideValue : Prop :=
  ∀ rd rs1 rs2 : XReg,
    CommandForm (.fred rd rs1 rs2) (0x14#8 ++ xField rd ++ xField rs1 ++ xField rs2 ++ 0#4 ++ 0#8) 0xFF000FFF ∧
    CommandForm (.sred rd rs1 rs2) (0x1C#8 ++ xField rd ++ xField rs1 ++ xField rs2 ++ 0#4 ++ 0#8) 0xFF000FFF ∧
    ∀ s : State, s.halted = false →
      (∃ t v, exec (.fred rd rs1 rs2) s = .next t ∧ WroteX s t rd v ∧
        v.toNat = ((s.getX rs1).toNat * 2 ^ 256 + (s.getX rs2).toNat) % Config.p) ∧
      (∃ t v, exec (.sred rd rs1 rs2) s = .next t ∧ WroteX s t rd v ∧
        v.toNat = ((s.getX rs1).toNat * 2 ^ 256 + (s.getX rs2).toNat) % Config.n)

/-- R87: `FINV` writes the unique inverse modulo `p`, or fails fatally on 0 and `p`, the multiples of `p`. -/
def Obligations.FinvWritesUniqueInverse : Prop :=
  ∀ rd rs1 : XReg,
    CommandForm (.finv rd rs1) (0x13#8 ++ xField rd ++ xField rs1 ++ 0#4 ++ 0#4 ++ 0#8) 0xFF00FFFF ∧
    ∀ s : State, s.halted = false →
      ((s.getX rs1).toNat % Config.p ≠ 0 → ∃ t v, exec (.finv rd rs1) s = .next t ∧ WroteX s t rd v ∧
        1 ≤ v.toNat ∧ v.toNat < Config.p ∧ ((s.getX rs1).toNat % Config.p * v.toNat) % Config.p = 1 ∧
        ∀ r : Nat, r < Config.p → ((s.getX rs1).toNat % Config.p * r) % Config.p = 1 → r = v.toNat) ∧
      ((s.getX rs1).toNat % Config.p = 0 → ∃ t, exec (.finv rd rs1) s = .next t ∧ Raised s t .fInvZero) ∧
      ((s.getX rs1).toNat % Config.p = 0 ↔ (s.getX rs1).toNat = 0 ∨ (s.getX rs1).toNat = Config.p)

/-- R92: `SINV` writes the unique inverse modulo `n`, or fails fatally on 0 and `n`, the multiples of `n`. -/
def Obligations.SinvWritesUniqueInverse : Prop :=
  ∀ rd rs1 : XReg,
    CommandForm (.sinv rd rs1) (0x1B#8 ++ xField rd ++ xField rs1 ++ 0#4 ++ 0#4 ++ 0#8) 0xFF00FFFF ∧
    ∀ s : State, s.halted = false →
      ((s.getX rs1).toNat % Config.n ≠ 0 → ∃ t v, exec (.sinv rd rs1) s = .next t ∧ WroteX s t rd v ∧
        1 ≤ v.toNat ∧ v.toNat < Config.n ∧ ((s.getX rs1).toNat % Config.n * v.toNat) % Config.n = 1 ∧
        ∀ r : Nat, r < Config.n → ((s.getX rs1).toNat % Config.n * r) % Config.n = 1 → r = v.toNat) ∧
      ((s.getX rs1).toNat % Config.n = 0 → ∃ t, exec (.sinv rd rs1) s = .next t ∧ Raised s t .fInvZero) ∧
      ((s.getX rs1).toNat % Config.n = 0 ↔ (s.getX rs1).toNat = 0 ∨ (s.getX rs1).toNat = Config.n)

/-! ## Curve points (42_curve_point.md, 10_state.md) -/

/-- R16: the constants of the curve, and what the spec says of them. -/
def Obligations.CurveConstants : Prop :=
  Config.p = 0xFFFFFFFFFFFFFFFFFFFFFFFFFFFFFFFFFFFFFFFFFFFFFFFFFFFFFFFEFFFFFC2F ∧
  Config.n = 0xFFFFFFFFFFFFFFFFFFFFFFFFFFFFFFFEBAAEDCE6AF48A03BBFD25E8CD0364141 ∧
  Config.halfN = 0x7FFFFFFFFFFFFFFFFFFFFFFFFFFFFFFF5D576E7357A4501DDFE92F46681B20A0 ∧ Config.b = 7 ∧
  Config.gx = 0x79BE667EF9DCBBAC55A06295CE870B07029BFCDB2DCE28D959F2815B16F81798 ∧
  Config.gy = 0x483ADA7726A3C4655DA4FBFC0E1108A8FD17B448A68554199C47D08FFB10D4B8 ∧
  (∀ s : Nat, 2 * s ≤ Config.n ↔ s ≤ Config.halfN) ∧
  Config.p = 2 ^ 256 - 2 ^ 32 - 977 ∧ Nat.Prime Config.p ∧ Nat.Prime Config.n ∧ Config.halfN = (Config.n - 1) / 2 ∧
  Config.n % 2 = 1 ∧ generator = .aff Config.gx Config.gy ∧ OnCurve Config.gx Config.gy ∧
  (∀ R, KFold generator Config.n R ↔ R = .inf) ∧
  (∀ R, KFold generator (Config.n - 1) R ↔ R = .aff Config.gx (BitVec.ofNat 256 (Config.p - Config.gy.toNat)))

/-- R104, R105, R107: `PINF`, `PGEN` and `PMOV` write the identity, the generator and a copy. -/
def Obligations.PinfPgenPmovWritePoint : Prop :=
  ∀ pd ps1 : PReg,
    CommandForm (.pinf pd) (0x20#8 ++ pField pd ++ 0#4 ++ 0#4 ++ 0#4 ++ 0#8) 0xFFCFFFFF ∧
    CommandForm (.pgen pd) (0x21#8 ++ pField pd ++ 0#4 ++ 0#4 ++ 0#4 ++ 0#8) 0xFFCFFFFF ∧
    CommandForm (.pmov pd ps1) (0x23#8 ++ pField pd ++ pField ps1 ++ 0#4 ++ 0#4 ++ 0#8) 0xFFCCFFFF ∧
    ∀ s : State, s.halted = false →
      (∃ t, exec (.pinf pd) s = .next t ∧ WrotePt s t pd .inf) ∧
      (∃ t, exec (.pgen pd) s = .next t ∧ WrotePt s t pd (.aff Config.gx Config.gy)) ∧
      (∃ t, exec (.pmov pd ps1) s = .next t ∧ WrotePt s t pd (s.getPt ps1))

/-- R106: `PSET` makes a point of two registers, after the check of R103; other pairs raise `E_NOT_ON_CURVE`. -/
def Obligations.PsetChecksTheCurve : Prop :=
  ∀ (pd : PReg) (rs1 rs2 : XReg),
    CommandForm (.pset pd rs1 rs2) (0x22#8 ++ pField pd ++ xField rs1 ++ xField rs2 ++ 0#4 ++ 0#8) 0xFFC00FFF ∧
    ∀ s : State, s.halted = false →
      (OnCurve (s.getX rs1) (s.getX rs2) → ∃ t, exec (.pset pd rs1 rs2) s = .next t ∧
        WrotePt s t pd (.aff (s.getX rs1) (s.getX rs2))) ∧
      (¬ OnCurve (s.getX rs1) (s.getX rs2) → ∃ t, exec (.pset pd rs1 rs2) s = .next t ∧ Raised s t .eNotOnCurve)

/-- R108, R109: `PGETX` and `PGETY` read a coordinate, 0 for the identity; no point of the curve has first coordinate 0. -/
def Obligations.PgetReadsCoordinate : Prop :=
  ∀ (rd : XReg) (ps1 : PReg),
    CommandForm (.pgetx rd ps1) (0x24#8 ++ xField rd ++ pField ps1 ++ 0#4 ++ 0#4 ++ 0#8) 0xFF0CFFFF ∧
    CommandForm (.pgety rd ps1) (0x25#8 ++ xField rd ++ pField ps1 ++ 0#4 ++ 0#4 ++ 0#8) 0xFF0CFFFF ∧
    ∀ s : State, s.halted = false →
      (s.getPt ps1 = .inf → (∃ t, exec (.pgetx rd ps1) s = .next t ∧ WroteX s t rd 0) ∧
        ∃ t, exec (.pgety rd ps1) s = .next t ∧ WroteX s t rd 0) ∧
      (∀ x y : Word, s.getPt ps1 = .aff x y → (∃ t, exec (.pgetx rd ps1) s = .next t ∧ WroteX s t rd x) ∧
        ∃ t, exec (.pgety rd ps1) s = .next t ∧ WroteX s t rd y) ∧
      ∀ y : Word, ¬ OnCurve 0 y

/-- R110: from points on the curve (R21) `PADD` writes their sum by the group law of R100, a point of the curve again, and the
order of the sources does not matter. -/
def Obligations.PaddWritesTheSum : Prop :=
  ∀ pd ps1 ps2 : PReg,
    CommandForm (.padd pd ps1 ps2) (0x28#8 ++ pField pd ++ pField ps1 ++ pField ps2 ++ 0#4 ++ 0#8) 0xFFCCCFFF ∧
    ∀ s : State, s.halted = false → (s.getPt ps1).OnCurve → (s.getPt ps2).OnCurve →
      ∃ t R, exec (.padd pd ps1 ps2) s = .next t ∧ WrotePt s t pd R ∧ IsSum (s.getPt ps1) (s.getPt ps2) R ∧
        IsSum (s.getPt ps2) (s.getPt ps1) R ∧ R.OnCurve

/-- R111: from a point on the curve (R21) `PDBL` writes its double: the identity for the identity, the tangent's third point
negated for any other; no point of the curve has second coordinate 0. -/
def Obligations.PdblWritesTheDouble : Prop :=
  ∀ pd ps1 : PReg,
    CommandForm (.pdbl pd ps1) (0x29#8 ++ pField pd ++ pField ps1 ++ 0#4 ++ 0#4 ++ 0#8) 0xFFCCFFFF ∧
    (∀ s : State, s.halted = false → (s.getPt ps1).OnCurve →
      ∃ t R, exec (.pdbl pd ps1) s = .next t ∧ WrotePt s t pd R ∧ IsSum (s.getPt ps1) (s.getPt ps1) R ∧ R.OnCurve) ∧
    (∀ (s : State) (x : Word), s.halted = false → s.getPt ps1 = .aff x 0 →
      ∃ t, exec (.pdbl pd ps1) s = .next t ∧ WrotePt s t pd .inf) ∧
    ∀ x : Word, ¬ OnCurve x 0

/-- R112 and R102: from a point on the curve (R21) `PMUL` writes the `k`-fold sum for every 256-bit `k` (R112), the same as for
`k mod n` (R102). -/
def Obligations.PmulWritesTheMultiple : Prop :=
  ∀ (pd ps1 : PReg) (rs2 : XReg),
    CommandForm (.pmul pd ps1 rs2) (0x2A#8 ++ pField pd ++ pField ps1 ++ xField rs2 ++ 0#4 ++ 0#8) 0xFFCC0FFF ∧
    ∀ s : State, s.halted = false → (s.getPt ps1).OnCurve →
      ∃ t R, exec (.pmul pd ps1 rs2) s = .next t ∧ WrotePt s t pd R ∧ KFold (s.getPt ps1) (s.getX rs2).toNat R ∧
        KFold (s.getPt ps1) ((s.getX rs2).toNat % Config.n) R ∧ R.OnCurve

/-! ## Hashes (43_hash.md) -/

/-- R124 to R127: each hash command writes its digest of the source bytes, read before any is written, or raises `E_RANGE`. -/
def Obligations.HashCommandsWriteDigest : Prop :=
  ∀ dst src len : Byte,
    CommandForm (.sha256 dst src len) (0x30#8 ++ src ++ len ++ dst) 0xFF000000 ∧
    CommandForm (.sha256d dst src len) (0x31#8 ++ src ++ len ++ dst) 0xFF000000 ∧
    CommandForm (.rmd160 dst src len) (0x32#8 ++ src ++ len ++ dst) 0xFF000000 ∧
    CommandForm (.hash160 dst src len) (0x33#8 ++ src ++ len ++ dst) 0xFF000000 ∧
    ∀ s : State, s.halted = false →
      (s.buf.wf → src.toNat + len.toNat ≤ 256 → dst.toNat + 32 ≤ 256 →
        (∃ t, exec (.sha256 dst src len) s = .next t ∧
          WroteBuf s t dst.toNat (sha256 (s.bytesAt src.toNat len.toNat))) ∧
        ∃ t, exec (.sha256d dst src len) s = .next t ∧
          WroteBuf s t dst.toNat (sha256 (sha256 (s.bytesAt src.toNat len.toNat)))) ∧
      (s.buf.wf → src.toNat + len.toNat ≤ 256 → dst.toNat + 20 ≤ 256 →
        (∃ t, exec (.rmd160 dst src len) s = .next t ∧
          WroteBuf s t dst.toNat (rmd160 (s.bytesAt src.toNat len.toNat))) ∧
        ∃ t, exec (.hash160 dst src len) s = .next t ∧
          WroteBuf s t dst.toNat (rmd160 (sha256 (s.bytesAt src.toNat len.toNat)))) ∧
      (256 < src.toNat + len.toNat ∨ 256 < dst.toNat + 32 →
        (∃ t, exec (.sha256 dst src len) s = .next t ∧ Raised s t .eRange) ∧
        ∃ t, exec (.sha256d dst src len) s = .next t ∧ Raised s t .eRange) ∧
      (256 < src.toNat + len.toNat ∨ 256 < dst.toNat + 20 →
        (∃ t, exec (.rmd160 dst src len) s = .next t ∧ Raised s t .eRange) ∧
        ∃ t, exec (.hash160 dst src len) s = .next t ∧ Raised s t .eRange)

/-- The digests the spec gives for the empty string and "abc" (R124 to R127). -/
def Obligations.HashesOfKnownMessages : Prop :=
  be (sha256 []) = 0xE3B0C44298FC1C149AFBF4C8996FB92427AE41E4649B934CA495991B7852B855 ∧
  be (sha256 [0x61, 0x62, 0x63]) = 0xBA7816BF8F01CFEA414140DE5DAE2223B00361A396177A9CB410FF61F20015AD ∧
  be (rmd160 []) = 0x9C1185A5C5E9FC54612808977EE8F548B2258D31 ∧
  be (rmd160 [0x61, 0x62, 0x63]) = 0x8EB208F7E05D987A9B044A8E98C6B087F15A0BFC

/-! ## Keys, encodings, addresses (44_key_derivation.md, 45_address_codec.md) -/

/-- R144: `DPRIV` derives a key in `[1, n)` from entropy and salt, or reports which of them is 0, entropy first, or that
all four digests reduce to 0; nothing else can happen. -/
def Obligations.DprivDerivesPrivateKey : Prop :=
  ∀ rd rs1 rs2 : XReg,
    CommandForm (.dpriv rd rs1 rs2) (0x40#8 ++ xField rd ++ xField rs1 ++ xField rs2 ++ 0#4 ++ 0#8) 0xFF000FFF ∧
    ∀ s : State, s.halted = false →
      (s.getX rs1 = 0 → ∃ t, exec (.dpriv rd rs1 rs2) s = .next t ∧ Raised s t .eEntropy) ∧
      (s.getX rs1 ≠ 0 → s.getX rs2 = 0 → ∃ t, exec (.dpriv rd rs1 rs2) s = .next t ∧ Raised s t .eSalt) ∧
      (s.getX rs1 ≠ 0 → s.getX rs2 ≠ 0 →
        (∀ d : Nat, Derives (s.getX rs1) (s.getX rs2) d → ∃ t v, exec (.dpriv rd rs1 rs2) s = .next t ∧ WroteX s t rd v ∧
          v.toNat = d ∧ IsPrivateKey v) ∧
        ((∀ c : Nat, c < 4 → kdfDigest (s.getX rs1) (s.getX rs2) c = 0) →
          ∃ t, exec (.dpriv rd rs1 rs2) s = .next t ∧ Raised s t .fRetryKdf) ∧
        ((∃ d : Nat, Derives (s.getX rs1) (s.getX rs2) d) ∨ ∀ c : Nat, c < 4 → kdfDigest (s.getX rs1) (s.getX rs2) c = 0))

/-- R145: for a private key in range `DPUB` always writes `d` times the generator, and that is never the identity; for any
other value it raises `E_PRIVKEY`. -/
def Obligations.DpubWritesFinitePublicKey : Prop :=
  ∀ (pd : PReg) (rs1 : XReg),
    CommandForm (.dpub pd rs1) (0x41#8 ++ pField pd ++ xField rs1 ++ 0#4 ++ 0#4 ++ 0#8) 0xFFC0FFFF ∧
    ∀ s : State, s.halted = false →
      (IsPrivateKey (s.getX rs1) → ∃ t x y, exec (.dpub pd rs1) s = .next t ∧ WrotePt s t pd (.aff x y) ∧
        KFold generator (s.getX rs1).toNat (.aff x y) ∧ OnCurve x y) ∧
      (¬ IsPrivateKey (s.getX rs1) → ∃ t, exec (.dpub pd rs1) s = .next t ∧ Raised s t .ePrivkey)

/-- R146, R147: `ENCU` and `ENCC` write the 65 and 33 bytes of a finite point; the range is checked first, and in
range the identity is the fatal failure `F_IDENTITY`. -/
def Obligations.EncodingsOfPoint : Prop :=
  ∀ (ps1 : PReg) (off : Byte),
    CommandForm (.encu ps1 off) (0x42#8 ++ 0#4 ++ pField ps1 ++ 0#4 ++ 0#4 ++ off) 0xFFFCFF00 ∧
    CommandForm (.encc ps1 off) (0x43#8 ++ 0#4 ++ pField ps1 ++ 0#4 ++ 0#4 ++ off) 0xFFFCFF00 ∧
    ∀ s : State, s.halted = false →
      (∀ x y : Word, s.buf.wf → s.getPt ps1 = .aff x y →
        (off.toNat ≤ 191 → ∃ t, exec (.encu ps1 off) s = .next t ∧ WroteBuf s t off.toNat (uncompressedBytes x y)) ∧
        (off.toNat ≤ 223 → ∃ t, exec (.encc ps1 off) s = .next t ∧ WroteBuf s t off.toNat (compressedBytes x y))) ∧
      (s.getPt ps1 = .inf →
        (off.toNat ≤ 191 → ∃ t, exec (.encu ps1 off) s = .next t ∧ Raised s t .fIdentity) ∧
        (off.toNat ≤ 223 → ∃ t, exec (.encc ps1 off) s = .next t ∧ Raised s t .fIdentity)) ∧
      (191 < off.toNat → ∃ t, exec (.encu ps1 off) s = .next t ∧ Raised s t .eRange) ∧
      (223 < off.toNat → ∃ t, exec (.encc ps1 off) s = .next t ∧ Raised s t .eRange)

/-- R148: the 155 bytes of `KEYPAIR`: private key, uncompressed key, compressed key, address payload; and its failures in
order. -/
def Obligations.KeypairWritesItsRecord : Prop :=
  ∀ (rs1 rs2 : XReg) (off : Byte) (testnet addrCompressed : Bool),
    CommandForm (.keypair rs1 rs2 off testnet addrCompressed)
      (0x44#8 ++ xField rs1 ++ xField rs2 ++ off ++ (0#6 ++ BitVec.ofBool addrCompressed ++ BitVec.ofBool testnet)) 0xFF0000FC ∧
    ∀ s : State, s.halted = false →
      (101 < off.toNat → ∃ t, exec (.keypair rs1 rs2 off testnet addrCompressed) s = .next t ∧ Raised s t .eRange) ∧
      (off.toNat ≤ 101 →
        (s.getX rs1 = 0 → ∃ t, exec (.keypair rs1 rs2 off testnet addrCompressed) s = .next t ∧ Raised s t .eEntropy) ∧
        (s.getX rs1 ≠ 0 → s.getX rs2 = 0 →
          ∃ t, exec (.keypair rs1 rs2 off testnet addrCompressed) s = .next t ∧ Raised s t .eSalt) ∧
        (s.getX rs1 ≠ 0 → s.getX rs2 ≠ 0 →
          (∀ d : Nat, s.buf.wf → Derives (s.getX rs1) (s.getX rs2) d → ∃ t x y,
            exec (.keypair rs1 rs2 off testnet addrCompressed) s = .next t ∧ KFold generator d (.aff x y) ∧
            WroteBuf s t off.toNat (bytesBe d 32 ++ uncompressedBytes x y ++ compressedBytes x y ++
              addressBytes (if addrCompressed then compressedBytes x y else uncompressedBytes x y) testnet)) ∧
          ((∀ c : Nat, c < 4 → kdfDigest (s.getX rs1) (s.getX rs2) c = 0) →
            ∃ t, exec (.keypair rs1 rs2 off testnet addrCompressed) s = .next t ∧ Raised s t .fRetryKdf)))

/-- R161, R162: `GENADDR` and `GENADDRT` write the 25-byte address payload of the key bytes; `E_LEN` is tested before
`E_RANGE`. -/
def Obligations.AddressCommandsWritePayload : Prop :=
  ∀ dst src len : Byte,
    CommandForm (.genaddr dst src len) (0x50#8 ++ src ++ len ++ dst) 0xFF000000 ∧
    CommandForm (.genaddrt dst src len) (0x51#8 ++ src ++ len ++ dst) 0xFF000000 ∧
    ∀ s : State, s.halted = false →
      (len.toNat ≠ 33 ∧ len.toNat ≠ 65 →
        (∃ t, exec (.genaddr dst src len) s = .next t ∧ Raised s t .eLen) ∧
        ∃ t, exec (.genaddrt dst src len) s = .next t ∧ Raised s t .eLen) ∧
      (len.toNat = 33 ∨ len.toNat = 65 →
        (256 < src.toNat + len.toNat ∨ 256 < dst.toNat + 25 →
          (∃ t, exec (.genaddr dst src len) s = .next t ∧ Raised s t .eRange) ∧
          ∃ t, exec (.genaddrt dst src len) s = .next t ∧ Raised s t .eRange) ∧
        (s.buf.wf → src.toNat + len.toNat ≤ 256 → dst.toNat + 25 ≤ 256 →
          (∃ t, exec (.genaddr dst src len) s = .next t ∧
            WroteBuf s t dst.toNat (addressBytes (s.bytesAt src.toNat len.toNat) false)) ∧
          ∃ t, exec (.genaddrt dst src len) s = .next t ∧
            WroteBuf s t dst.toNat (addressBytes (s.bytesAt src.toNat len.toNat) true)))

/-- R163: the payload either address command leaves is 25 bytes, its first byte is the version, and its last four are the first
four of the double SHA-256 of the other 21. -/
def Obligations.AddressChecksumIsOfItsBody : Prop :=
  ∀ (dst src len : Byte) (testnet : Bool) (s t : State), s.halted = false → s.buf.wf →
    exec (if testnet then .genaddrt dst src len else .genaddr dst src len) s = .next t → errOf t.status = 0x00 →
    t.byteAt dst.toNat = (if testnet then 0x6F else 0x00) ∧
    t.bytesAt (dst.toNat + 21) 4 = (sha256 (sha256 (t.bytesAt dst.toNat 21))).take 4 ∧
    ∀ a : Nat, a < dst.toNat ∨ dst.toNat + 25 ≤ a → t.byteAt a = s.byteAt a

/-! ## Signatures (46_signer.md) -/

/-- R174, R175: `SIGN` and `SIGNTX` write the signature of the first candidate that is not rejected, `SIGNTX` with
the sighash byte last; the failures come in order; of the first eight candidates one is accepted or all are rejected. -/
def Obligations.SignCommandsWriteSignature : Prop :=
  ∀ (rs1 rs2 : XReg) (off imm8 : Byte),
    CommandForm (.sign rs1 rs2 off) (0x60#8 ++ xField rs1 ++ xField rs2 ++ off ++ 0#8) 0xFF0000FF ∧
    CommandForm (.signtx rs1 rs2 off imm8) (0x61#8 ++ xField rs1 ++ xField rs2 ++ off ++ imm8) 0xFF000000 ∧
    ∀ (s : State) (z : Word), s.halted = false → z.toNat = (s.getX rs2).toNat % Config.n →
      (191 < off.toNat → ∃ t, exec (.sign rs1 rs2 off) s = .next t ∧ Raised s t .eRange) ∧
      (190 < off.toNat → ∃ t, exec (.signtx rs1 rs2 off imm8) s = .next t ∧ Raised s t .eRange) ∧
      (¬ IsPrivateKey (s.getX rs1) →
        (off.toNat ≤ 191 → ∃ t, exec (.sign rs1 rs2 off) s = .next t ∧ Raised s t .ePrivkey) ∧
        (off.toNat ≤ 190 → ∃ t, exec (.signtx rs1 rs2 off imm8) s = .next t ∧ Raised s t .ePrivkey)) ∧
      (IsPrivateKey (s.getX rs1) →
        (∀ (j : Nat) (sig : Signature), s.buf.wf → j < 8 →
          (∀ i, i < j → Rejects (s.getX rs1) z (candidateAt (s.getX rs1) z i)) →
          Accepts (s.getX rs1) z (candidateAt (s.getX rs1) z j) sig →
          (off.toNat ≤ 191 → ∃ t, exec (.sign rs1 rs2 off) s = .next t ∧ WroteBuf s t off.toNat (signatureBytes sig)) ∧
          (off.toNat ≤ 190 → ∃ t, exec (.signtx rs1 rs2 off imm8) s = .next t ∧
            WroteBuf s t off.toNat (signatureBytes sig ++ [imm8]))) ∧
        ((∀ i, i < 8 → Rejects (s.getX rs1) z (candidateAt (s.getX rs1) z i)) →
          (off.toNat ≤ 191 → ∃ t, exec (.sign rs1 rs2 off) s = .next t ∧ Raised s t .fRetryNonce) ∧
          (off.toNat ≤ 190 → ∃ t, exec (.signtx rs1 rs2 off imm8) s = .next t ∧ Raised s t .fRetryNonce)) ∧
        ∀ i : Nat, Rejects (s.getX rs1) z (candidateAt (s.getX rs1) z i) ∨
          ∃ sig, Accepts (s.getX rs1) z (candidateAt (s.getX rs1) z i) sig)

/-- R177: what a successful `SIGN` or `SIGNTX` leaves in the buffer is a canonical signature, `1 <= r < n`, `1 <= s <= HALF_N`,
`v` 0 or 1, and it verifies: with `w` the inverse of `s`, the first coordinate of `(z w) G + (r w) (d G)` is `r` modulo `n`. -/
def Obligations.SignatureIsCanonicalAndVerifies : Prop :=
  ∀ (i : Instr) (rs1 rs2 : XReg) (off imm8 : Byte) (s t : State),
    i = .sign rs1 rs2 off ∨ i = .signtx rs1 rs2 off imm8 → s.halted = false → s.buf.wf →
    exec i s = .next t → errOf t.status = 0x00 →
    ∀ r sg : Nat, r = be (t.bytesAt off.toNat 32) → sg = be (t.bytesAt (off.toNat + 32) 32) →
      1 ≤ r ∧ r < Config.n ∧ 1 ≤ sg ∧ sg ≤ Config.halfN ∧ (t.byteAt (off.toNat + 64) = 0 ∨ t.byteAt (off.toNat + 64) = 1) ∧
      ∀ (w : Nat) (Q A B R : Point), (sg * w) % Config.n = 1 → KFold generator (s.getX rs1).toNat Q →
        KFold generator ((s.getX rs2).toNat % Config.n * w % Config.n) A → KFold Q (r * w % Config.n) B → IsSum A B R →
        ∃ x y : Word, R = .aff x y ∧ x.toNat % Config.n = r

end
end

