-- ==== Sys2Proof/Laws/ByteString.lean ====
section
/-! SUPPORT. Byte strings and their integers: lengths, and that `be` and `bytes_be` undo each other (R8). -/

namespace Sys2Proof.Machine

theorem be_append_one (s : Bytes) (b : Byte) : be (s ++ [b]) = be s * 256 + b.toNat := by simp [be]

theorem foldl_be (s : Bytes) (a : Nat) :
    s.foldl (fun acc (b : Byte) => acc * 256 + b.toNat) a = a * 256 ^ s.length + be s := by
  induction s generalizing a with
  | nil => simp [be]
  | cons b s ih =>
    have h0 := ih b.toNat
    simp only [be, List.foldl_cons, List.length_cons, Nat.zero_mul, Nat.zero_add] at *
    rw [ih, h0]; ring

theorem be_cons (b : Byte) (s : Bytes) : be (b :: s) = b.toNat * 256 ^ s.length + be s := by
  have := foldl_be s b.toNat
  simpa [be] using this

theorem be_append (s t : Bytes) : be (s ++ t) = be s * 256 ^ t.length + be t := by
  rw [be, List.foldl_append, foldl_be]; rfl

@[simp] theorem be_nil : be [] = 0 := rfl

theorem be_lt (s : Bytes) : be s < 256 ^ s.length := by
  induction s with
  | nil => simp
  | cons b s ih =>
    rw [be_cons, List.length_cons, pow_succ]
    have := b.isLt
    have hp : 0 < 256 ^ s.length := by positivity
    nlinarith

@[simp] theorem length_bytesBe (v k : Nat) : (bytesBe v k).length = k := by
  induction k with
  | zero => rfl
  | succ k ih => simp [bytesBe, ih]

@[simp] theorem length_bytesLe (v k : Nat) : (bytesLe v k).length = k := by
  induction k generalizing v with
  | zero => rfl
  | succ k ih => simp [bytesLe, ih]

@[simp] theorem length_wordBytes (v : Word) : (wordBytes v).length = 32 := length_bytesBe _ _

theorem be_bytesBe_mod (v k : Nat) : be (bytesBe v k) = v % 256 ^ k := by
  induction k with
  | zero => simp [bytesBe, Nat.mod_one]
  | succ k ih =>
    rw [bytesBe, be_cons, ih, length_bytesBe, BitVec.toNat_ofNat, pow_succ 256, Nat.mod_mul (a := 256 ^ k) (b := 256)]
    norm_num; ring

theorem be_bytesBe {v k : Nat} (h : v < 256 ^ k) : be (bytesBe v k) = v := by
  rw [be_bytesBe_mod, Nat.mod_eq_of_lt h]

@[simp] theorem be_wordBytes (v : Word) : be (wordBytes v) = v.toNat :=
  be_bytesBe (by have := v.isLt; norm_num at this ⊢; exact this)

@[simp] theorem beWord_wordBytes (v : Word) : beWord (wordBytes v) = v := by simp [beWord]

theorem toNat_beWord {s : Bytes} (h : s.length = 32) : (beWord s).toNat = be s := by
  have := be_lt s
  rw [h] at this
  rw [beWord, BitVec.toNat_ofNat, Nat.mod_eq_of_lt (lt_of_lt_of_eq this (by norm_num))]

/-- Byte `i` of `bytes_be(v, k)` is bits `8(k-1-i) + 7 : 8(k-1-i)` of `v`. -/
theorem getElem_bytesBe (v k i : Nat) (h : i < (bytesBe v k).length) :
    (bytesBe v k)[i] = BitVec.ofNat 8 (v / 256 ^ (k - 1 - i)) := by
  induction k generalizing i with
  | zero => simp [bytesBe] at h
  | succ k ih =>
    cases i with
    | zero => simp [bytesBe]
    | succ i =>
      simp only [bytesBe, List.getElem_cons_succ]
      rw [ih]; congr 3; omega

theorem getElem_wordBytes (v : Word) (i : Nat) (h : i < (wordBytes v).length) :
    (wordBytes v)[i] = v.extractLsb' (8 * (31 - i)) 8 := by
  have hi : i < 32 := by simpa using h
  refine (getElem_bytesBe v.toNat 32 i h).trans ?_
  apply BitVec.eq_of_toNat_eq
  rw [BitVec.toNat_ofNat, BitVec.extractLsb'_toNat, Nat.shiftRight_eq_div_pow,
    show (256 : Nat) ^ (32 - 1 - i) = 2 ^ (8 * (31 - i)) by rw [show 32 - 1 - i = 31 - i by omega, pow_mul]; norm_num]

/-- `bytes_be` undoes `be`. -/
theorem bytesBe_be (s : Bytes) : bytesBe (be s) s.length = s := by
  induction s with
  | nil => rfl
  | cons b s ih =>
    have key : ∀ k, k ≤ s.length → bytesBe (b.toNat * 256 ^ s.length + be s) k = bytesBe (be s) k := by
      intro k hk
      induction k with
      | zero => rfl
      | succ k ihk =>
        have : b.toNat * 256 ^ s.length + be s = be s + 256 ^ k * (b.toNat * 256 ^ (s.length - k)) := by
          have : s.length = k + (s.length - k) := by omega
          conv_lhs => rw [this, pow_add]
          ring
        rw [bytesBe, bytesBe, ihk (by omega), this, Nat.add_mul_div_left _ _ (by positivity)]
        congr 1
        apply BitVec.eq_of_toNat_eq
        have h2 : s.length - k = (s.length - k - 1) + 1 := by omega
        rw [BitVec.toNat_ofNat, BitVec.toNat_ofNat, h2, pow_succ, ← mul_assoc]
        exact Nat.add_mul_mod_self_right _ _ _
    rw [be_cons, List.length_cons, bytesBe, key _ le_rfl, ih]
    have hlt := be_lt s
    have : (b.toNat * 256 ^ s.length + be s) / 256 ^ s.length = b.toNat := by
      rw [mul_comm, Nat.mul_add_div (by positivity), Nat.div_eq_of_lt hlt, add_zero]
    rw [this]; simp

/-- Reading 32 bytes as a word and writing them again. -/
theorem wordBytes_beWord {s : Bytes} (h : s.length = 32) : wordBytes (beWord s) = s := by
  rw [wordBytes, toNat_beWord h, ← h, bytesBe_be]

/-! ## Lengths of the hashes -/

theorem length_flatMap_const {α : Type} {f : α → Bytes} {k : Nat} (h : ∀ a, (f a).length = k) (l : List α) :
    (l.flatMap f).length = l.length * k := by
  induction l with
  | nil => simp
  | cons a l ih => rw [List.flatMap_cons, List.length_append, h, ih, List.length_cons]; ring

theorem length_sha256Block {H : List Word32} (h : H.length = 8) (block : Bytes) : (sha256Block H block).length = 8 := by
  simp [sha256Block, Sha256State.words, h]

theorem length_foldl {α β : Type} {f : List α → β → List α} {k : Nat} (hf : ∀ l b, l.length = k → (f l b).length = k)
    (bs : List β) {l : List α} (h : l.length = k) : (bs.foldl f l).length = k := by
  induction bs generalizing l with
  | nil => exact h
  | cons b bs ih => exact ih (hf l b h)

@[simp] theorem length_sha256 (s : Bytes) : (sha256 s).length = 32 := by
  unfold sha256
  rw [length_flatMap_const (k := 4) (fun w => length_bytesBe _ _),
    length_foldl (k := 8) (fun l b hl => length_sha256Block hl b) _ rfl]

@[simp] theorem length_sha256d (s : Bytes) : (sha256d s).length = 32 := length_sha256 _

@[simp] theorem length_rmd160 (s : Bytes) : (rmd160 s).length = 20 := by
  unfold rmd160
  rw [length_flatMap_const (k := 4) (fun w => length_bytesLe _ _),
    length_foldl (k := 5) (fun l b _ => rfl) _ rfl]

@[simp] theorem length_hash160 (s : Bytes) : (hash160 s).length = 20 := length_rmd160 _

@[simp] theorem length_hmacSha256 (key msg : Bytes) : (hmacSha256 key msg).length = 32 := length_sha256 _

@[simp] theorem length_addressPayload (pub : Bytes) (testnet : Bool) : (addressPayload pub testnet).length = 25 := by
  simp [addressPayload]

@[simp] theorem length_serializeSig (sig : Signature) : (serializeSig sig).length = 65 := by simp [serializeSig]

@[simp] theorem length_serializeTx (sig : Signature) (t : Byte) : (serializeTx sig t).length = 66 := by simp [serializeTx]

theorem length_encodeUncompressed {P : Point} {bs : Bytes} (h : encodeUncompressed P = .ok bs) : bs.length = 65 := by
  cases P with
  | inf => cases h
  | aff x y => cases h; simp

theorem length_encodeCompressed {P : Point} {bs : Bytes} (h : encodeCompressed P = .ok bs) : bs.length = 33 := by
  cases P with
  | inf => cases h
  | aff x y => cases h; simp

end Sys2Proof.Machine
end

