-- ==== Sys2Proof/Laws/State.lean ====
section
/-! SUPPORT. One lemma per field and update of State, true by rfl, so that no later proof unfolds a record update; then the
accessors over the updates. -/

namespace Sys2Proof.Machine

variable (s : State)

/-! ## setX -/

@[simp] theorem State.setX_x (i : XReg) (v : Word) : (s.setX i v).x = s.x.set i v := rfl
@[simp] theorem State.setX_pt (i : XReg) (v : Word) : (s.setX i v).pt = s.pt := rfl
@[simp] theorem State.setX_buf (i : XReg) (v : Word) : (s.setX i v).buf = s.buf := rfl
@[simp] theorem State.setX_status (i : XReg) (v : Word) : (s.setX i v).status = s.status := rfl
@[simp] theorem State.setX_pending (i : XReg) (v : Word) : (s.setX i v).pending = s.pending := rfl
@[simp] theorem State.setX_replies (i : XReg) (v : Word) : (s.setX i v).replies = s.replies := rfl

/-! ## setPt -/

@[simp] theorem State.setPt_x (i : PReg) (P : Point) : (s.setPt i P).x = s.x := rfl
@[simp] theorem State.setPt_pt (i : PReg) (P : Point) : (s.setPt i P).pt = s.pt.set i P := rfl
@[simp] theorem State.setPt_buf (i : PReg) (P : Point) : (s.setPt i P).buf = s.buf := rfl
@[simp] theorem State.setPt_status (i : PReg) (P : Point) : (s.setPt i P).status = s.status := rfl
@[simp] theorem State.setPt_pending (i : PReg) (P : Point) : (s.setPt i P).pending = s.pending := rfl
@[simp] theorem State.setPt_replies (i : PReg) (P : Point) : (s.setPt i P).replies = s.replies := rfl

/-! ## store -/

@[simp] theorem State.store_x (a : Nat) (bs : Bytes) : (s.store a bs).x = s.x := rfl
@[simp] theorem State.store_pt (a : Nat) (bs : Bytes) : (s.store a bs).pt = s.pt := rfl
@[simp] theorem State.store_buf (a : Nat) (bs : Bytes) : (s.store a bs).buf = s.buf.writeBytes a bs := rfl
@[simp] theorem State.store_status (a : Nat) (bs : Bytes) : (s.store a bs).status = s.status := rfl
@[simp] theorem State.store_pending (a : Nat) (bs : Bytes) : (s.store a bs).pending = s.pending := rfl
@[simp] theorem State.store_replies (a : Nat) (bs : Bytes) : (s.store a bs).replies = s.replies := rfl

/-! ## succeed -/

@[simp] theorem State.succeed_x : (s.succeed).x = s.x := rfl
@[simp] theorem State.succeed_pt : (s.succeed).pt = s.pt := rfl
@[simp] theorem State.succeed_buf : (s.succeed).buf = s.buf := rfl
@[simp] theorem State.succeed_status : (s.succeed).status = statusOk s.status := rfl
@[simp] theorem State.succeed_pending : (s.succeed).pending = s.pending := rfl
@[simp] theorem State.succeed_replies : (s.succeed).replies = s.replies := rfl

/-! ## raise -/

@[simp] theorem State.raise_x (c : Cause) : (s.raise c).x = s.x := rfl
@[simp] theorem State.raise_pt (c : Cause) : (s.raise c).pt = s.pt := rfl
@[simp] theorem State.raise_buf (c : Cause) : (s.raise c).buf = s.buf := rfl
@[simp] theorem State.raise_status (c : Cause) : (s.raise c).status = statusRaise c s.status := rfl
@[simp] theorem State.raise_pending (c : Cause) : (s.raise c).pending = s.pending := rfl
@[simp] theorem State.raise_replies (c : Cause) : (s.raise c).replies = s.replies := rfl

/-! ## The reset event -/

@[simp] theorem resetEvent_x : (resetEvent s).x = State.reset.x := rfl
@[simp] theorem resetEvent_pt : (resetEvent s).pt = State.reset.pt := rfl
@[simp] theorem resetEvent_buf : (resetEvent s).buf = [] := rfl
@[simp] theorem resetEvent_status : (resetEvent s).status = 0 := rfl
@[simp] theorem resetEvent_pending : (resetEvent s).pending = s.pending := rfl
@[simp] theorem resetEvent_replies : (resetEvent s).replies = s.replies := rfl

/-! ## Accessors -/

@[simp] theorem State.getX_setX_self (i : XReg) (v : Word) : (s.setX i v).getX i = v := by simp [State.getX]

theorem State.getX_setX_of_ne {i j : XReg} (v : Word) (h : j ≠ i) : (s.setX i v).getX j = s.getX j := by
  have h' : i.val ≠ j.val := fun e => h (Fin.ext e.symm)
  simp [State.getX, Vector.getElem_set_ne _ _ h']

theorem State.getX_setX (i j : XReg) (v : Word) : (s.setX i v).getX j = if j = i then v else s.getX j := by
  by_cases h : j = i
  · subst h; simp
  · simp [h, State.getX_setX_of_ne]

@[simp] theorem State.getPt_setPt_self (i : PReg) (P : Point) : (s.setPt i P).getPt i = P := by simp [State.getPt]

theorem State.getPt_setPt_of_ne {i j : PReg} (P : Point) (h : j ≠ i) : (s.setPt i P).getPt j = s.getPt j := by
  have h' : i.val ≠ j.val := fun e => h (Fin.ext e.symm)
  simp [State.getPt, Vector.getElem_set_ne _ _ h']

theorem State.getPt_setPt (i j : PReg) (P : Point) : (s.setPt i P).getPt j = if j = i then P else s.getPt j := by
  by_cases h : j = i
  · subst h; simp
  · simp [h, State.getPt_setPt_of_ne]

@[simp] theorem State.getX_setPt (i : PReg) (P : Point) (j : XReg) : (s.setPt i P).getX j = s.getX j := rfl
@[simp] theorem State.getX_store (a : Nat) (bs : Bytes) (j : XReg) : (s.store a bs).getX j = s.getX j := rfl
@[simp] theorem State.getX_succeed (j : XReg) : s.succeed.getX j = s.getX j := rfl
@[simp] theorem State.getX_raise (c : Cause) (j : XReg) : (s.raise c).getX j = s.getX j := rfl
@[simp] theorem State.getPt_setX (i : XReg) (v : Word) (j : PReg) : (s.setX i v).getPt j = s.getPt j := rfl
@[simp] theorem State.getPt_store (a : Nat) (bs : Bytes) (j : PReg) : (s.store a bs).getPt j = s.getPt j := rfl
@[simp] theorem State.getPt_succeed (j : PReg) : s.succeed.getPt j = s.getPt j := rfl
@[simp] theorem State.getPt_raise (c : Cause) (j : PReg) : (s.raise c).getPt j = s.getPt j := rfl
@[simp] theorem State.byteAt_setX (i : XReg) (v : Word) (a : Nat) : (s.setX i v).byteAt a = s.byteAt a := rfl
@[simp] theorem State.byteAt_setPt (i : PReg) (P : Point) (a : Nat) : (s.setPt i P).byteAt a = s.byteAt a := rfl
@[simp] theorem State.byteAt_succeed (a : Nat) : s.succeed.byteAt a = s.byteAt a := rfl
@[simp] theorem State.byteAt_raise (c : Cause) (a : Nat) : (s.raise c).byteAt a = s.byteAt a := rfl
@[simp] theorem State.load_succeed (a n : Nat) : s.succeed.load a n = s.load a n := rfl
@[simp] theorem State.load_raise (c : Cause) (a n : Nat) : (s.raise c).load a n = s.load a n := rfl

@[simp] theorem State.getX_reset (i : XReg) : State.reset.getX i = 0 := by simp [State.getX, State.reset]
@[simp] theorem State.getPt_reset (i : PReg) : State.reset.getPt i = .inf := by simp [State.getPt, State.reset]
@[simp] theorem State.byteAt_reset (a : Nat) : State.reset.byteAt a = 0 := rfl

end Sys2Proof.Machine
end

