-- ==== Sys2Proof/Laws/Memory.lean ====
section
/-! SUPPORT. The laws of the buffer: read after write, and every operation keeps the canonical form. -/

namespace Sys2Proof.Machine

theorem Memory.read_put (a b : Nat) (v : Byte) (m : Memory) (h : a = b → v = Memory.blank → m.read b = Memory.blank) :
    (Memory.put a v m).read b = if a = b then v else m.read b := by
  unfold Memory.put
  split
  · next hv =>
    split
    · next hab => rw [h hab hv, hv]
    · rfl
  · simp [Memory.read]

/-- A memory whose addresses all lie above `a` reads blank at `a`. -/
theorem Memory.read_below {m : Memory} {a : Nat} (h : ∀ c ∈ m, a < c.1) : m.read a = Memory.blank := by
  induction m with
  | nil => rfl
  | cons c rest ih =>
    obtain ⟨k, v⟩ := c
    have hk : a < k := h (k, v) (by simp)
    simp only [Memory.read, if_neg (Nat.ne_of_gt hk)]
    exact ih fun c hc => h c (List.mem_cons_of_mem _ hc)

/-- Read after write, on addresses in rising order. -/
theorem Memory.read_write {m : Memory} (hm : m.Pairwise (fun c d => c.1 < d.1)) (a b : Nat) (v : Byte) :
    (m.write a v).read b = if a = b then v else m.read b := by
  induction m with
  | nil => exact Memory.read_put a b v [] fun _ _ => rfl
  | cons c rest ih =>
    obtain ⟨k, w⟩ := c
    obtain ⟨hk, hrest⟩ := List.pairwise_cons.1 hm
    simp only [Memory.write]
    split
    · next hak =>
      refine Memory.read_put a b v _ fun hab _ => ?_
      subst hab
      exact Memory.read_below fun c hc => by
        rcases List.mem_cons.1 hc with rfl | hc
        · exact hak
        · exact Nat.lt_trans hak (hk c hc)
    · split
      · next hak =>
        subst hak
        rw [Memory.read_put a b v rest fun hab _ => hab ▸ Memory.read_below fun c hc => hk c hc]
        by_cases hab : a = b <;> simp [Memory.read, hab]
      · next hlt hne =>
        simp only [Memory.read]
        by_cases hkb : k = b
        · subst hkb; simp [hne]
        · simp [hkb, ih hrest]

theorem Memory.mem_put {a : Nat} {v : Byte} {m : Memory} {c : Host.Cell} (h : c ∈ Memory.put a v m) :
    (c = (a, v) ∧ v ≠ Memory.blank) ∨ c ∈ m := by
  unfold Memory.put at h
  split at h
  · exact .inr h
  · next hv =>
    rcases List.mem_cons.1 h with rfl | h
    · exact .inl ⟨rfl, hv⟩
    · exact .inr h

/-- A cell of a written memory is the cell written or one the memory had. -/
theorem Memory.mem_write {m : Memory} {a : Nat} {v : Byte} {c : Host.Cell} (h : c ∈ m.write a v) :
    (c = (a, v) ∧ v ≠ Memory.blank) ∨ c ∈ m := by
  induction m with
  | nil => exact Memory.mem_put h
  | cons d rest ih =>
    obtain ⟨k, w⟩ := d
    simp only [Memory.write] at h
    split at h
    · exact Memory.mem_put h
    · split at h
      · exact (Memory.mem_put h).imp_right (List.mem_cons_of_mem _)
      · rcases List.mem_cons.1 h with rfl | h
        · exact .inr (by simp)
        · exact (ih h).imp_right (List.mem_cons_of_mem _)

theorem Memory.pairwise_put {a : Nat} {v : Byte} {m : Memory} (hm : m.Pairwise (fun c d => c.1 < d.1))
    (h : ∀ c ∈ m, a < c.1) : (Memory.put a v m).Pairwise (fun c d => c.1 < d.1) := by
  unfold Memory.put
  split
  · exact hm
  · exact List.pairwise_cons.2 ⟨h, hm⟩

theorem Memory.pairwise_write {m : Memory} (hm : m.Pairwise (fun c d => c.1 < d.1)) (a : Nat) (v : Byte) :
    (m.write a v).Pairwise (fun c d => c.1 < d.1) := by
  induction m with
  | nil => exact Memory.pairwise_put List.Pairwise.nil (by simp)
  | cons c rest ih =>
    obtain ⟨k, w⟩ := c
    obtain ⟨hk, hrest⟩ := List.pairwise_cons.1 hm
    simp only [Memory.write]
    split
    · next hak =>
      refine Memory.pairwise_put hm fun c hc => ?_
      rcases List.mem_cons.1 hc with rfl | hc
      · exact hak
      · exact Nat.lt_trans hak (hk c hc)
    · split
      · next hak => subst hak; exact Memory.pairwise_put hrest hk
      · next hlt hne =>
        refine List.pairwise_cons.2 ⟨fun c hc => ?_, ih hrest⟩
        rcases Memory.mem_write hc with ⟨rfl, _⟩ | hc
        · show k < a; omega
        · exact hk c hc

/-- A write inside the buffer keeps the canonical form. -/
theorem Memory.wf_write {m : Memory} (hm : m.wf) {a : Nat} (ha : a < Config.bufSize) (v : Byte) : (m.write a v).wf :=
  ⟨Memory.pairwise_write hm.1 a v, fun c hc => by
    rcases Memory.mem_write hc with ⟨rfl, hv⟩ | hc
    · exact ⟨ha, hv⟩
    · exact hm.2 c hc⟩

/-- A write of a byte string inside the buffer keeps the canonical form. -/
theorem Memory.wf_writeBytes {m : Memory} (hm : m.wf) {a : Nat} {bs : Bytes} (ha : a + bs.length ≤ Config.bufSize) :
    (m.writeBytes a bs).wf := by
  induction bs generalizing m a with
  | nil => exact hm
  | cons b bs ih =>
    rw [List.length_cons] at ha
    exact ih (Memory.wf_write hm (by omega) b) (by omega)

theorem Memory.pairwise_writeBytes {m : Memory} (hm : m.Pairwise (fun c d => c.1 < d.1)) (a : Nat) (bs : Bytes) :
    (m.writeBytes a bs).Pairwise (fun c d => c.1 < d.1) := by
  induction bs generalizing m a with
  | nil => exact hm
  | cons b bs ih => exact ih (Memory.pairwise_write hm a b) (a + 1)

/-- Read after a write of a byte string: the byte written inside its range, the old byte outside. -/
theorem Memory.read_writeBytes {m : Memory} (hm : m.Pairwise (fun c d => c.1 < d.1)) (a b : Nat) (bs : Bytes) :
    (m.writeBytes a bs).read b = if h : a ≤ b ∧ b < a + bs.length then bs[b - a]'(by omega) else m.read b := by
  induction bs generalizing m a with
  | nil =>
    have : ¬ (a ≤ b ∧ b < a + ([] : Bytes).length) := by simp
    simp only [Memory.writeBytes, dif_neg this]
  | cons v bs ih =>
    rw [Memory.writeBytes, ih (Memory.pairwise_write hm a v), Memory.read_write hm]
    rcases Nat.lt_trichotomy b a with hb | rfl | hb
    · have h1 : ¬ (a + 1 ≤ b ∧ b < a + 1 + bs.length) := by omega
      have h2 : ¬ (a ≤ b ∧ b < a + (v :: bs).length) := by omega
      rw [dif_neg h1, dif_neg h2, if_neg (by omega)]
    · have h1 : ¬ (b + 1 ≤ b ∧ b < b + 1 + bs.length) := by omega
      have h2 : b ≤ b ∧ b < b + (v :: bs).length := by simp
      rw [dif_neg h1, dif_pos h2, if_pos rfl]
      simp
    · by_cases hl : b < a + 1 + bs.length
      · have h1 : a + 1 ≤ b ∧ b < a + 1 + bs.length := ⟨hb, hl⟩
        have h2 : a ≤ b ∧ b < a + (v :: bs).length := by simp; omega
        rw [dif_pos h1, dif_pos h2]
        have e : b - a = (b - (a + 1)) + 1 := by omega
        simp [e]
      · have h1 : ¬ (a + 1 ≤ b ∧ b < a + 1 + bs.length) := by omega
        have h2 : ¬ (a ≤ b ∧ b < a + (v :: bs).length) := by simp; omega
        rw [dif_neg h1, dif_neg h2, if_neg (by omega)]

@[simp] theorem Memory.length_readBytes (m : Memory) (a n : Nat) : (m.readBytes a n).length = n := by
  induction n generalizing a with
  | zero => rfl
  | succ n ih => simp [Memory.readBytes, ih]

theorem Memory.getElem_readBytes (m : Memory) (a n i : Nat) (h : i < (m.readBytes a n).length) :
    (m.readBytes a n)[i] = m.read (a + i) := by
  induction n generalizing a i with
  | zero => simp [Memory.readBytes] at h
  | succ n ih =>
    cases i with
    | zero => rfl
    | succ i =>
      simp only [Memory.readBytes, List.getElem_cons_succ]
      rw [ih]; congr 1; omega

/-- A byte string written and read back is itself. -/
theorem Memory.readBytes_writeBytes {m : Memory} (hm : m.Pairwise (fun c d => c.1 < d.1)) (a : Nat) (bs : Bytes) :
    (m.writeBytes a bs).readBytes a bs.length = bs := by
  apply List.ext_getElem (by simp)
  intro i h1 h2
  rw [Memory.getElem_readBytes, Memory.read_writeBytes hm, dif_pos ⟨by omega, by omega⟩]
  congr 1; omega

/-! ## On states -/

theorem State.byteAt_store {s : State} (hm : s.buf.wf) (a b : Nat) (bs : Bytes) :
    (s.store a bs).byteAt b = if h : a ≤ b ∧ b < a + bs.length then bs[b - a]'(by omega) else s.byteAt b :=
  Memory.read_writeBytes hm.1 a b bs

theorem State.load_store {s : State} (hm : s.buf.wf) (a : Nat) (bs : Bytes) :
    (s.store a bs).load a bs.length = bs := Memory.readBytes_writeBytes hm.1 a bs

@[simp] theorem State.length_load (s : State) (a n : Nat) : (s.load a n).length = n := Memory.length_readBytes _ _ _

theorem State.getElem_load (s : State) (a n i : Nat) (h : i < (s.load a n).length) :
    (s.load a n)[i] = s.byteAt (a + i) := Memory.getElem_readBytes _ _ _ _ h

end Sys2Proof.Machine
end

