-- ==== Sys2Proof/Laws/Status.lean ====
section
/-! SUPPORT. The fields of STATUS after each way a command ends (R15, R190, R192, R193), from one lemma per update that says
what each bit of it is. -/

namespace Sys2Proof.Machine

/-! ## Bits -/

theorem getLsbD_withErr (st : Word32) (e : Byte) (i : Nat) :
    (withErr st e).getLsbD i = if i < 8 then e.getLsbD i else st.getLsbD i := by
  simp only [withErr, BitVec.getLsbD_append, BitVec.getLsbD_extractLsb']
  by_cases h : i < 8
  · simp [h]
  · by_cases h2 : i < 32
    · have : i - 8 < 24 := by omega
      have e : 8 + (i - 8) = i := by omega
      simp [h, this, e]
    · have : ¬ i - 8 < 24 := by omega
      simp [h, this, BitVec.getLsbD_of_ge st i (by omega)]

theorem getLsbD_withFatal (st : Word32) (i : Nat) :
    (withFatal st).getLsbD i = (i == 8 || st.getLsbD i) := by
  simp only [withFatal, BitVec.getLsbD_append, BitVec.getLsbD_extractLsb']
  by_cases h : i < 8
  · simp [h]; intro h2; omega
  · by_cases h8 : i = 8
    · subst h8; simp
    · by_cases h2 : i < 32
      · have h3 : i - 8 - 1 < 23 := by omega
        have h4 : ¬ i - 8 < 1 := by omega
        have e : 9 + (i - 8 - 1) = i := by omega
        simp [h, h8, h3, h4, e]
      · have h3 : ¬ i - 8 - 1 < 23 := by omega
        have h4 : ¬ i - 8 < 1 := by omega
        simp [h, h8, h3, h4, BitVec.getLsbD_of_ge st i (by omega)]

theorem getLsbD_withFcode (st : Word32) (c : Byte) (i : Nat) :
    (withFcode st c).getLsbD i = if 16 ≤ i ∧ i < 24 then c.getLsbD (i - 16) else st.getLsbD i := by
  simp only [withFcode, BitVec.getLsbD_append, BitVec.getLsbD_extractLsb']
  by_cases h : i < 16
  · have : ¬ (16 ≤ i ∧ i < 24) := by omega
    simp [h, this]
  · by_cases h8 : i < 24
    · have h3 : i - 16 < 8 := by omega
      have : 16 ≤ i ∧ i < 24 := by omega
      simp [h, h3, this]
    · have h3 : ¬ i - 16 < 8 := by omega
      have : ¬ (16 ≤ i ∧ i < 24) := by omega
      by_cases h2 : i < 32
      · have h4 : i - 16 - 8 < 8 := by omega
        have e : 24 + (i - 16 - 8) = i := by omega
        simp [h, h3, h4, this, e]
      · have h4 : ¬ i - 16 - 8 < 8 := by omega
        simp [h, h3, h4, this, BitVec.getLsbD_of_ge st i (by omega)]

/-! ## Fields -/

/-- Two status words that agree on a field's bits agree on the field. -/
theorem extract_congr {a b : Word32} {lo len : Nat} (h : ∀ i, i < len → a.getLsbD (lo + i) = b.getLsbD (lo + i)) :
    a.extractLsb' lo len = b.extractLsb' lo len := by
  apply BitVec.eq_of_getLsbD_eq
  intro i hi
  simpa [BitVec.getLsbD_extractLsb', hi] using h i hi

theorem extract_eq {a : Word32} {lo len : Nat} {c : BitVec len} (h : ∀ i, i < len → a.getLsbD (lo + i) = c.getLsbD i) :
    a.extractLsb' lo len = c := by
  apply BitVec.eq_of_getLsbD_eq
  intro i hi
  simpa [BitVec.getLsbD_extractLsb', hi] using h i hi

@[simp] theorem errOf_withErr (st : Word32) (e : Byte) : errOf (withErr st e) = e :=
  extract_eq fun i hi => by simp [getLsbD_withErr, hi]
@[simp] theorem fatalOf_withErr (st : Word32) (e : Byte) : fatalOf (withErr st e) = fatalOf st := by
  unfold fatalOf; rw [getLsbD_withErr]; rfl
@[simp] theorem fcodeOf_withErr (st : Word32) (e : Byte) : fcodeOf (withErr st e) = fcodeOf st :=
  extract_congr fun i _ => by rw [getLsbD_withErr, if_neg (by omega)]
@[simp] theorem reservedOf_withErr (st : Word32) (e : Byte) : reservedOf (withErr st e) = reservedOf st :=
  congrArg₂ _ (extract_congr fun i _ => by rw [getLsbD_withErr, if_neg (by omega)])
    (extract_congr fun i _ => by rw [getLsbD_withErr, if_neg (by omega)])

@[simp] theorem fatalOf_withFatal (st : Word32) : fatalOf (withFatal st) = true := by
  unfold fatalOf; rw [getLsbD_withFatal]; rfl
@[simp] theorem fcodeOf_withFatal (st : Word32) : fcodeOf (withFatal st) = fcodeOf st :=
  extract_congr fun i _ => by rw [getLsbD_withFatal]; simp; omega
@[simp] theorem reservedOf_withFatal (st : Word32) : reservedOf (withFatal st) = reservedOf st :=
  congrArg₂ _ (extract_congr fun i _ => by rw [getLsbD_withFatal]; simp; omega)
    (extract_congr fun i _ => by rw [getLsbD_withFatal]; simp; omega)

@[simp] theorem fcodeOf_withFcode (st : Word32) (c : Byte) : fcodeOf (withFcode st c) = c :=
  extract_eq fun i hi => by rw [getLsbD_withFcode, if_pos (by omega)]; congr 1; omega
@[simp] theorem reservedOf_withFcode (st : Word32) (c : Byte) : reservedOf (withFcode st c) = reservedOf st :=
  congrArg₂ _ (extract_congr fun i _ => by rw [getLsbD_withFcode, if_neg (by omega)])
    (extract_congr fun i _ => by rw [getLsbD_withFcode, if_neg (by omega)])

/-! ## After a success -/

@[simp] theorem errOf_statusOk (st : Word32) : errOf (statusOk st) = 0x00 := errOf_withErr st _
@[simp] theorem fatalOf_statusOk (st : Word32) : fatalOf (statusOk st) = fatalOf st := fatalOf_withErr st _
@[simp] theorem fcodeOf_statusOk (st : Word32) : fcodeOf (statusOk st) = fcodeOf st := fcodeOf_withErr st _
@[simp] theorem reservedOf_statusOk (st : Word32) : reservedOf (statusOk st) = reservedOf st := reservedOf_withErr st _

/-! ## After a raise -/

@[simp] theorem errOf_statusRaise (c : Cause) (st : Word32) : errOf (statusRaise c st) = c.code := by
  unfold statusRaise; split <;> exact errOf_withErr _ _

@[simp] theorem reservedOf_statusRaise (c : Cause) (st : Word32) : reservedOf (statusRaise c st) = reservedOf st := by
  unfold statusRaise; split <;> simp

theorem statusRaise_error {c : Cause} (h : c.isFatal = false) (st : Word32) : statusRaise c st = withErr st c.code := by
  simp [statusRaise, h]

theorem fatalOf_statusRaise_error {c : Cause} (h : c.isFatal = false) (st : Word32) :
    fatalOf (statusRaise c st) = fatalOf st := by rw [statusRaise_error h, fatalOf_withErr]

theorem fcodeOf_statusRaise_error {c : Cause} (h : c.isFatal = false) (st : Word32) :
    fcodeOf (statusRaise c st) = fcodeOf st := by rw [statusRaise_error h, fcodeOf_withErr]

theorem fatalOf_statusRaise_fatal {c : Cause} (h : c.isFatal = true) {st : Word32} (hs : fatalOf st = false) :
    fatalOf (statusRaise c st) = true := by simp [statusRaise, h, hs]

theorem fcodeOf_statusRaise_fatal {c : Cause} (h : c.isFatal = true) {st : Word32} (hs : fatalOf st = false) :
    fcodeOf (statusRaise c st) = c.code := by simp [statusRaise, h, hs]

/-! ## How a command ends -/

/-- Everything a command can do (R190): it is refused because the engine is halted, it completes, or it raises. -/
theorem command_cases (s : State) (body : Except Cause State) :
    (s.halted = true ∧ command s body = .next (s.raise .eHalted)) ∨
    (s.halted = false ∧ ∃ t, body = .ok t ∧ command s body = .next t.succeed) ∨
    (s.halted = false ∧ ∃ c, body = .error c ∧ command s body = .next (s.raise c)) := by
  unfold command
  cases h : s.halted
  · cases body with
    | ok t => exact .inr (.inl ⟨rfl, t, rfl, rfl⟩)
    | error c => exact .inr (.inr ⟨rfl, c, rfl, rfl⟩)
  · exact .inl ⟨rfl, rfl⟩

theorem command_halted {s : State} (h : s.halted = true) (body : Except Cause State) :
    command s body = .next (s.raise .eHalted) := by simp [command, h]

@[simp] theorem command_ok {s : State} (h : s.halted = false) (t : State) : command s (.ok t) = .next t.succeed := by
  simp [command, h]

@[simp] theorem command_error {s : State} (h : s.halted = false) (c : Cause) :
    command s (.error c) = .next (s.raise c) := by simp [command, h]

end Sys2Proof.Machine
end

