-- ==== Sys2Proof/Laws/Endings.lean ====
section
/-! SUPPORT. The ways a command ends, in the terms of Safety: one lemma per kind of success, one for `raise`, and what a command
that is one of the shared shapes does. Proofs about commands cite these and never unfold an operation. -/

namespace Sys2Proof.Machine

variable {s : State}

theorem succeeded_succeed {t : State} (hst : t.status = s.status) (hp : t.pending = s.pending)
    (hr : t.replies = s.replies) : Succeeded s t.succeed where
  err := errOf_statusOk _
  fatal := by rw [State.succeed_status, fatalOf_statusOk, hst]
  fcode := by rw [State.succeed_status, fcodeOf_statusOk, hst]
  reserved := by rw [State.succeed_status, reservedOf_statusOk, hst]
  host := ⟨hp, hr⟩

theorem wroteX_succeed (s : State) (rd : XReg) (v : Word) : WroteX s (s.setX rd v).succeed rd v where
  toSucceeded := succeeded_succeed rfl rfl rfl
  value := by rw [State.getX_succeed, State.getX_setX_self]
  others r h := by rw [State.getX_succeed, State.getX_setX_of_ne _ _ h]
  points _ := rfl
  bytes _ := rfl

theorem wrotePt_succeed (s : State) (pd : PReg) (P : Point) : WrotePt s (s.setPt pd P).succeed pd P where
  toSucceeded := succeeded_succeed rfl rfl rfl
  value := by rw [State.getPt_succeed, State.getPt_setPt_self]
  registers _ := rfl
  others q h := by rw [State.getPt_succeed, State.getPt_setPt_of_ne _ _ h]
  bytes _ := rfl

theorem wroteBuf_succeed (hm : s.buf.wf) (off : Nat) (bs : Bytes) : WroteBuf s (s.store off bs).succeed off bs where
  toSucceeded := succeeded_succeed rfl rfl rfl
  written k h := by
    rw [State.byteAt_succeed, State.byteAt_store hm, dif_pos ⟨by omega, by omega⟩]
    congr 1; omega
  outside a h := by rw [State.byteAt_succeed, State.byteAt_store hm, dif_neg (by omega)]
  registers _ := rfl
  points _ := rfl

theorem raised_raise (s : State) (c : Cause) : Raised s (s.raise c) c where
  err := errOf_statusRaise _ _
  error h := ⟨fatalOf_statusRaise_error h _, fcodeOf_statusRaise_error h _⟩
  fatal h := by
    cases hs : fatalOf s.status
    · exact ⟨fatalOf_statusRaise_fatal h hs, by simpa using fcodeOf_statusRaise_fatal h hs⟩
    · have e : statusRaise c s.status = withErr s.status c.code := by simp [statusRaise, hs]
      rw [State.raise_status, e, fatalOf_withErr, fcodeOf_withErr]
      exact ⟨hs, by simp⟩
  reserved := reservedOf_statusRaise _ _
  registers _ := rfl
  points _ := rfl
  bytes _ := rfl
  host := ⟨rfl, rfl⟩

/-- The bytes a command reads, as the statements write them. -/
theorem load_eq_bytesAt (s : State) (off len : Nat) : s.load off len = s.bytesAt off len := by
  apply List.ext_getElem (by simp [State.bytesAt])
  intro i _ _
  rw [State.getElem_load]; simp [State.bytesAt]

/-- The bytes a command wrote, read back. -/
theorem WroteBuf.bytesAt {t : State} {off : Nat} {bs : Bytes} (h : WroteBuf s t off bs) : t.bytesAt off bs.length = bs := by
  apply List.ext_getElem (by simp [State.bytesAt])
  intro i _ h2
  simp [State.bytesAt, h.written i h2]

/-! ## Checks -/

@[simp] theorem check_true (c : Cause) : check true c = .ok () := rfl
@[simp] theorem check_false (c : Cause) : check false c = .error c := rfl
@[simp] theorem except_ok_bind {α β : Type} (a : α) (f : α → Except Cause β) : (Except.ok a >>= f) = f a := rfl
@[simp] theorem except_error_bind {α β : Type} (c : Cause) (f : α → Except Cause β) :
    (Except.error c >>= f) = Except.error c := rfl

theorem fitsBuf_true {off len : Nat} (h : off + len ≤ 256) : fitsBuf off len = true := decide_eq_true h
theorem fitsBuf_false {off len : Nat} (h : ¬ off + len ≤ 256) : fitsBuf off len = false := decide_eq_false h

theorem checkRange_ok {off : Byte} {len : Nat} (h : off.toNat + len ≤ 256) : checkRange off len = .ok () := by
  rw [checkRange, fitsBuf_true h, check_true]

theorem checkRange_error {off : Byte} {len : Nat} (h : ¬ off.toNat + len ≤ 256) : checkRange off len = .error .eRange := by
  rw [checkRange, fitsBuf_false h, check_false]

theorem checkRanges_ok {src len dst : Byte} {out : Nat} (h : src.toNat + len.toNat ≤ 256) (h' : dst.toNat + out ≤ 256) :
    checkRanges src len dst out = .ok () := by
  rw [checkRanges, fitsBuf_true h, fitsBuf_true h']; rfl

theorem checkRanges_error {src len dst : Byte} {out : Nat}
    (h : ¬ (src.toNat + len.toNat ≤ 256 ∧ dst.toNat + out ≤ 256)) : checkRanges src len dst out = .error .eRange := by
  have : (fitsBuf src.toNat len.toNat && fitsBuf dst.toNat out) = false := by
    by_contra hc
    rw [Bool.not_eq_false, Bool.and_eq_true] at hc
    exact h ⟨of_decide_eq_true hc.1, of_decide_eq_true hc.2⟩
  rw [checkRanges, this, check_false]

/-! ## Commands of one shape -/

/-- A command whose body raises. -/
theorem command_raises (h : s.halted = false) {body : Except Cause State} {c : Cause} (hb : body = .error c) :
    ∃ t, command s body = .next t ∧ Raised s t c := ⟨_, by rw [hb, command_error h], raised_raise s c⟩

/-- A command on a halted engine. -/
theorem command_refused (h : s.halted = true) (body : Except Cause State) :
    ∃ t, command s body = .next t ∧ Raised s t .eHalted := ⟨_, command_halted h body, raised_raise s _⟩

/-- A command whose body writes a general register. -/
theorem command_wroteX (h : s.halted = false) {body : Except Cause State} {rd : XReg} {v : Word}
    (hb : body = .ok (s.setX rd v)) : ∃ t, command s body = .next t ∧ WroteX s t rd v :=
  ⟨_, by rw [hb, command_ok h], wroteX_succeed s rd v⟩

/-- A command whose body writes a point register. -/
theorem command_wrotePt (h : s.halted = false) {body : Except Cause State} {pd : PReg} {P : Point}
    (hb : body = .ok (s.setPt pd P)) : ∃ t, command s body = .next t ∧ WrotePt s t pd P :=
  ⟨_, by rw [hb, command_ok h], wrotePt_succeed s pd P⟩

/-- A command whose body writes the buffer. -/
theorem command_wroteBuf (h : s.halted = false) (hm : s.buf.wf) {body : Except Cause State} {off : Nat} {bs : Bytes}
    (hb : body = .ok (s.store off bs)) : ∃ t, command s body = .next t ∧ WroteBuf s t off bs :=
  ⟨_, by rw [hb, command_ok h], wroteBuf_succeed hm off bs⟩

theorem binaryX_next (h : s.halted = false) (f : Word → Word → Word) (rd rs1 rs2 : XReg) :
    ∃ t, binaryX f rd rs1 rs2 s = .next t ∧ WroteX s t rd (f (s.getX rs1) (s.getX rs2)) := command_wroteX h rfl

theorem unaryX_ok (h : s.halted = false) {f : Word → Except Cause Word} {rs1 : XReg} {v : Word}
    (hf : f (s.getX rs1) = .ok v) (rd : XReg) : ∃ t, unaryX f rd rs1 s = .next t ∧ WroteX s t rd v :=
  command_wroteX h (by rw [hf, except_ok_bind])

theorem unaryX_error (h : s.halted = false) {f : Word → Except Cause Word} {rs1 : XReg} {c : Cause}
    (hf : f (s.getX rs1) = .error c) (rd : XReg) : ∃ t, unaryX f rd rs1 s = .next t ∧ Raised s t c :=
  command_raises h (by rw [hf, except_error_bind])

theorem writePoint_ok (h : s.halted = false) {P : Except Cause Point} {Q : Point} (hP : P = .ok Q) (pd : PReg) :
    ∃ t, writePoint pd P s = .next t ∧ WrotePt s t pd Q := command_wrotePt h (by rw [hP, except_ok_bind])

theorem writePoint_error (h : s.halted = false) {P : Except Cause Point} {c : Cause} (hP : P = .error c) (pd : PReg) :
    ∃ t, writePoint pd P s = .next t ∧ Raised s t c := command_raises h (by rw [hP, except_error_bind])

theorem hashBuf_ok (h : s.halted = false) (hm : s.buf.wf) (f : Bytes → Bytes) {out : Nat} {dst src len : Byte}
    (hs : src.toNat + len.toNat ≤ 256) (hd : dst.toNat + out ≤ 256) :
    ∃ t, hashBuf f out dst src len s = .next t ∧ WroteBuf s t dst.toNat (f (s.load src.toNat len.toNat)) :=
  command_wroteBuf h hm (by rw [checkRanges_ok hs hd, except_ok_bind])

theorem hashBuf_range (h : s.halted = false) (f : Bytes → Bytes) {out : Nat} {dst src len : Byte}
    (hr : ¬ (src.toNat + len.toNat ≤ 256 ∧ dst.toNat + out ≤ 256)) :
    ∃ t, hashBuf f out dst src len s = .next t ∧ Raised s t .eRange :=
  command_raises h (by rw [checkRanges_error hr, except_error_bind])

end Sys2Proof.Machine
end

