-- ==== Sys2Proof/Laws/Exec.lean ====
section
/-! SUPPORT. What `exec` can do, said once for all commands: every meaning is `command` of a body that leaves `STATUS` and the
host's lists alone. -/

namespace Sys2Proof.Machine

/-- A body that, where it yields a state, has not touched `STATUS` or the host's lists. -/
def Quiet (s : State) (body : Except Cause State) : Prop :=
  ∀ t, body = .ok t → t.status = s.status ∧ t.pending = s.pending ∧ t.replies = s.replies

theorem quiet_ok {s t : State} (h : t.status = s.status ∧ t.pending = s.pending ∧ t.replies = s.replies) :
    Quiet s (.ok t) := fun _ e => by cases e; exact h

theorem quiet_self (s : State) : Quiet s (.ok s) := quiet_ok ⟨rfl, rfl, rfl⟩

theorem quiet_setX (s : State) (rd : XReg) (v : Word) : Quiet s (.ok (s.setX rd v)) :=
  quiet_ok ⟨State.setX_status .., State.setX_pending .., State.setX_replies ..⟩

theorem quiet_setPt (s : State) (pd : PReg) (P : Point) : Quiet s (.ok (s.setPt pd P)) :=
  quiet_ok ⟨State.setPt_status .., State.setPt_pending .., State.setPt_replies ..⟩

theorem quiet_store (s : State) (a : Nat) (bs : Bytes) : Quiet s (.ok (s.store a bs)) :=
  quiet_ok ⟨State.store_status .., State.store_pending .., State.store_replies ..⟩

theorem quiet_error {s : State} (c : Cause) : Quiet s (.error c) := fun _ e => by cases e

theorem quiet_bind {α : Type} {s : State} (a : Except Cause α) {f : α → Except Cause State} (h : ∀ x, Quiet s (f x)) :
    Quiet s (a >>= f) := by
  cases a with
  | ok x => exact h x
  | error c => exact quiet_error c

/-- Every command is `command` of a quiet body. -/
theorem exec_eq_command (i : Instr) (s : State) : ∃ body, exec i s = command s body ∧ Quiet s body := by
  cases i
  all_goals simp only [exec, execNop, execLi, execMov, execFadd, execFsub, execFmul, execFred, execSadd, execSsub,
    execSmul, execSred, execPgetx, execPgety, execLdw, execStw, execFinv, execSinv, execPinf, execPgen, execPset,
    execPmov, execPadd, execPdbl, execPmul, execSha256, execSha256d, execRmd160, execHash160, execDpriv, execDpub,
    execEncu, execEncc, execKeypair, execGenaddr, execGenaddrt, execSign, execSigntx, binaryX, unaryX, writePoint,
    hashBuf, addressBuf]
  all_goals
    refine ⟨_, rfl, ?_⟩
    repeat' refine quiet_bind _ fun _ => ?_
    with_reducible first
    | exact quiet_store s _ _
    | exact quiet_setPt s _ _
    | exact quiet_setX s _ _
    | exact quiet_self s

/-- A halted engine refuses every command. -/
theorem exec_halted (i : Instr) {s : State} (h : s.halted = true) : exec i s = .next (s.raise .eHalted) := by
  obtain ⟨body, he, -⟩ := exec_eq_command i s
  rw [he, command_halted h]

/-- Every command has a next state. -/
theorem exec_next (i : Instr) (s : State) : ∃ t, exec i s = .next t := by
  obtain ⟨body, he, -⟩ := exec_eq_command i s
  rcases command_cases s body with ⟨_, h⟩ | ⟨_, t, _, h⟩ | ⟨_, c, _, h⟩ <;> exact ⟨_, he.trans h⟩

/-- The step always has a next state. -/
theorem issue_next (w : Word32) (s : State) : ∃ t, issue w s = .next t := by
  unfold issue
  split
  · exact ⟨_, rfl⟩
  · split
    · exact exec_next _ s
    · exact ⟨_, rfl⟩

end Sys2Proof.Machine
end

