-- ==== Sys2Proof/Laws/Field.lean ====
section
/-! SUPPORT. The arithmetic as integers (R80 to R83, R94): each result is the canonical residue of the exact result. -/

namespace Sys2Proof.Machine

/-- A modulus the registers can hold residues of. -/
abbrev Modulus (m : Nat) : Prop := 0 < m ∧ m ≤ 2 ^ 256

theorem modulus_p : Modulus Config.p := by decide
theorem modulus_n : Modulus Config.n := by decide

theorem toNat_ofNat_mod {m : Nat} (h : Modulus m) (v : Nat) : (BitVec.ofNat 256 (v % m)).toNat = v % m := by
  rw [BitVec.toNat_ofNat, Nat.mod_eq_of_lt (Nat.lt_of_lt_of_le (Nat.mod_lt _ h.1) h.2)]

theorem toNat_modAdd {m : Nat} (h : Modulus m) (a b : Word) : (modAdd m a b).toNat = (a.toNat + b.toNat) % m :=
  toNat_ofNat_mod h _

theorem toNat_modMul {m : Nat} (h : Modulus m) (a b : Word) : (modMul m a b).toNat = (a.toNat * b.toNat) % m :=
  toNat_ofNat_mod h _

theorem toNat_modRed {m : Nat} (h : Modulus m) (a b : Word) :
    (modRed m a b).toNat = (a.toNat * 2 ^ 256 + b.toNat) % m := toNat_ofNat_mod h _

theorem toNat_modSub {m : Nat} (h : Modulus m) (a b : Word) :
    ((modSub m a b).toNat : Int) = ((a.toNat : Int) - b.toNat) % m := by
  have hm : (0 : Int) < m := by exact_mod_cast h.1
  have h0 := Int.emod_nonneg ((a.toNat : Int) - b.toNat) hm.ne'
  have h1 := Int.emod_lt_of_pos ((a.toNat : Int) - b.toNat) hm
  have hle : (m : Int) ≤ 2 ^ 256 := by exact_mod_cast h.2
  rw [modSub, BitVec.toNat_ofNat, Nat.mod_eq_of_lt (by
    have : (((a.toNat : Int) - b.toNat) % m).toNat < m := by omega
    exact Nat.lt_of_lt_of_le this h.2)]
  exact Int.toNat_of_nonneg h0

theorem modAdd_lt {m : Nat} (h : Modulus m) (a b : Word) : (modAdd m a b).toNat < m := by
  rw [toNat_modAdd h]; exact Nat.mod_lt _ h.1
theorem modMul_lt {m : Nat} (h : Modulus m) (a b : Word) : (modMul m a b).toNat < m := by
  rw [toNat_modMul h]; exact Nat.mod_lt _ h.1
theorem modSub_lt {m : Nat} (h : Modulus m) (a b : Word) : (modSub m a b).toNat < m := by
  have := toNat_modSub h a b
  have h1 := Int.emod_lt_of_pos ((a.toNat : Int) - b.toNat) (by exact_mod_cast h.1 : (0 : Int) < m)
  omega

/-! ## In the ring of residues -/

variable {m : Nat}

theorem cast_modAdd (h : Modulus m) (a b : Word) : ((modAdd m a b).toNat : ZMod m) = a.toNat + b.toNat := by
  rw [toNat_modAdd h, ZMod.natCast_mod]; push_cast; rfl

theorem cast_modMul (h : Modulus m) (a b : Word) : ((modMul m a b).toNat : ZMod m) = a.toNat * b.toNat := by
  rw [toNat_modMul h, ZMod.natCast_mod]; push_cast; rfl

theorem cast_modSub (h : Modulus m) (a b : Word) : ((modSub m a b).toNat : ZMod m) = a.toNat - b.toNat := by
  have e : ((modSub m a b).toNat : ZMod m) = (((modSub m a b).toNat : Int) : ZMod m) := by push_cast; rfl
  rw [e, toNat_modSub h, ZMod.intCast_mod]; push_cast; rfl

/-- Residues below the modulus are equal when they are equal in the ring. -/
theorem eq_of_cast {a b : Word} (ha : a.toNat < m) (hb : b.toNat < m) (h : (a.toNat : ZMod m) = b.toNat) : a = b := by
  have := (ZMod.natCast_eq_natCast_iff _ _ _).1 h
  exact BitVec.eq_of_toNat_eq (by rwa [Nat.ModEq, Nat.mod_eq_of_lt ha, Nat.mod_eq_of_lt hb] at this)

/-- What the scan of `ModInv` computes: `r ^ (2^i) * a ^ (e mod 2^i)`. -/
theorem cast_modPowScan (h : Modulus m) (a : Word) (e i : Nat) (r : Word) :
    ((modPowScan m a e i r).toNat : ZMod m) = (r.toNat : ZMod m) ^ 2 ^ i * (a.toNat : ZMod m) ^ (e % 2 ^ i) := by
  induction i generalizing r with
  | zero => simp [modPowScan, Nat.mod_one]
  | succ i ih =>
    rw [modPowScan, ih, Nat.mod_pow_succ, pow_succ, pow_add, pow_mul]
    have hb := Nat.testBit_eq_decide_div_mod_eq (x := e) (i := i)
    by_cases hbit : e.testBit i
    · have h1 : e / 2 ^ i % 2 = 1 := by simpa [hb] using hbit
      rw [if_pos hbit, cast_modMul h, cast_modMul h, h1]; ring
    · have h1 : e / 2 ^ i % 2 = 0 := by
        have : ¬ e / 2 ^ i % 2 = 1 := by simpa [hb] using hbit
        omega
      rw [if_neg hbit, cast_modMul h, h1]; ring

theorem modPowScan_lt (h : Modulus m) (a : Word) (e i : Nat) {r : Word} (hr : r.toNat < m) :
    (modPowScan m a e i r).toNat < m := by
  induction i generalizing r with
  | zero => exact hr
  | succ i ih =>
    rw [modPowScan]
    apply ih
    split <;> exact modMul_lt h _ _

/-! ## The inverse -/

theorem modInv_zero {a : Word} (h : a.toNat % m = 0) : modInv m a = .error .fInvZero := if_pos h

/-- A value that is no multiple of the modulus has an inverse; it is never refused. -/
theorem modInv_isOk {a : Word} (h : a.toNat % m ≠ 0) : ∃ r, modInv m a = .ok r := ⟨_, if_neg h⟩

/-- The defining property of `ModInv` for a prime modulus (R83): `a * r = 1`, by Fermat's little theorem. -/
theorem cast_modInv [Fact m.Prime] (h : Modulus m) (h3 : 2 < m) {a r : Word} (hr : modInv m a = .ok r) :
    (a.toNat : ZMod m) * r.toNat = 1 ∧ r.toNat < m := by
  unfold modInv at hr
  split at hr
  · cases hr
  · next ha =>
    injection hr with hr
    subst hr
    have h1 : (1 : Word).toNat = 1 := rfl
    refine ⟨?_, modPowScan_lt h _ _ _ (by rw [h1]; omega)⟩
    have ha0 : (a.toNat : ZMod m) ≠ 0 := by
      rwa [Ne, ZMod.natCast_eq_zero_iff, Nat.dvd_iff_mod_eq_zero]
    have he : (m - 2) % 2 ^ 256 = m - 2 := Nat.mod_eq_of_lt (by have := h.2; omega)
    rw [cast_modPowScan h, h1, toNat_ofNat_mod h, ZMod.natCast_mod, he]
    have := ZMod.pow_card_sub_one_eq_one ha0
    rw [show m - 1 = (m - 2) + 1 by omega, pow_succ] at this
    simpa [mul_comm] using this

/-- `ModInv` in the field of residues. -/
theorem cast_modInv_eq [Fact m.Prime] (h : Modulus m) (h3 : 2 < m) {a r : Word} (hr : modInv m a = .ok r) :
    (r.toNat : ZMod m) = (a.toNat : ZMod m)⁻¹ :=
  eq_inv_of_mul_eq_one_right (cast_modInv h h3 hr).1

end Sys2Proof.Machine
end

