-- ==== Sys2Proof/Laws/Body.lean ====
section
/-! SUPPORT. The body of every command under one name, and what bodies can do: where one yields a state it has written the
command's destination and nothing else, where one raises it raises a cause of the command's own. Whole-machine proofs cite these
two lemmas and never look at a single command. -/

namespace Sys2Proof.Machine

/-- What a command computes, before `command` settles how it ends. -/
def bodyOf (i : Instr) (s : State) : Except Cause State :=
  match i with
  | .nop => .ok s
  | .li rd imm8 => .ok (s.setX rd (zext256 imm8))
  | .mov rd rs1 => .ok (s.setX rd (s.getX rs1))
  | .ldw rd off => do
    checkRange off 32
    .ok (s.setX rd (beWord (s.load off.toNat 32)))
  | .stw rs1 off => do
    checkRange off 32
    .ok (s.store off.toNat (wordBytes (s.getX rs1)))
  | .fadd rd rs1 rs2 => .ok (s.setX rd (fieldAdd (s.getX rs1) (s.getX rs2)))
  | .fsub rd rs1 rs2 => .ok (s.setX rd (fieldSub (s.getX rs1) (s.getX rs2)))
  | .fmul rd rs1 rs2 => .ok (s.setX rd (fieldMul (s.getX rs1) (s.getX rs2)))
  | .fred rd rs1 rs2 => .ok (s.setX rd (modRed Config.p (s.getX rs1) (s.getX rs2)))
  | .sadd rd rs1 rs2 => .ok (s.setX rd (scalarAdd (s.getX rs1) (s.getX rs2)))
  | .ssub rd rs1 rs2 => .ok (s.setX rd (scalarSub (s.getX rs1) (s.getX rs2)))
  | .smul rd rs1 rs2 => .ok (s.setX rd (scalarMul (s.getX rs1) (s.getX rs2)))
  | .sred rd rs1 rs2 => .ok (s.setX rd (modRed Config.n (s.getX rs1) (s.getX rs2)))
  | .finv rd rs1 => do
    let r ← fieldInv (s.getX rs1)
    .ok (s.setX rd r)
  | .sinv rd rs1 => do
    let r ← scalarInv (s.getX rs1)
    .ok (s.setX rd r)
  | .pinf pd => .ok (s.setPt pd .inf)
  | .pgen pd => .ok (s.setPt pd generator)
  | .pset pd rs1 rs2 => do
    check (onCurve (s.getX rs1) (s.getX rs2)) .eNotOnCurve
    .ok (s.setPt pd (.aff (s.getX rs1) (s.getX rs2)))
  | .pmov pd ps1 => .ok (s.setPt pd (s.getPt ps1))
  | .pgetx rd ps1 => .ok (s.setX rd (s.getPt ps1).xc)
  | .pgety rd ps1 => .ok (s.setX rd (s.getPt ps1).yc)
  | .padd pd ps1 ps2 => do
    let Q ← pointAdd (s.getPt ps1) (s.getPt ps2)
    .ok (s.setPt pd Q)
  | .pdbl pd ps1 => do
    let Q ← pointDouble (s.getPt ps1)
    .ok (s.setPt pd Q)
  | .pmul pd ps1 rs2 => do
    let Q ← scalarMultiply (s.getPt ps1) (s.getX rs2)
    .ok (s.setPt pd Q)
  | .sha256 dst src len => do
    checkRanges src len dst 32
    .ok (s.store dst.toNat (Machine.sha256 (s.load src.toNat len.toNat)))
  | .sha256d dst src len => do
    checkRanges src len dst 32
    .ok (s.store dst.toNat (Machine.sha256d (s.load src.toNat len.toNat)))
  | .rmd160 dst src len => do
    checkRanges src len dst 20
    .ok (s.store dst.toNat (Machine.rmd160 (s.load src.toNat len.toNat)))
  | .hash160 dst src len => do
    checkRanges src len dst 20
    .ok (s.store dst.toNat (Machine.hash160 (s.load src.toNat len.toNat)))
  | .dpriv rd rs1 rs2 => do
    let d ← derivePrivateKey (s.getX rs1) (s.getX rs2)
    .ok (s.setX rd d)
  | .dpub pd rs1 => do
    let Q ← derivePublicKey (s.getX rs1)
    .ok (s.setPt pd Q)
  | .encu ps1 off => do
    checkRange off 65
    let bs ← encodeUncompressed (s.getPt ps1)
    .ok (s.store off.toNat bs)
  | .encc ps1 off => do
    checkRange off 33
    let bs ← encodeCompressed (s.getPt ps1)
    .ok (s.store off.toNat bs)
  | .keypair rs1 rs2 off testnet addrCompressed => do
    checkRange off 155
    let bs ← keypairBytes (s.getX rs1) (s.getX rs2) testnet addrCompressed
    .ok (s.store off.toNat bs)
  | .genaddr dst src len => do
    checkPubkeyLen len
    checkRanges src len dst 25
    .ok (s.store dst.toNat (addressPayload (s.load src.toNat len.toNat) false))
  | .genaddrt dst src len => do
    checkPubkeyLen len
    checkRanges src len dst 25
    .ok (s.store dst.toNat (addressPayload (s.load src.toNat len.toNat) true))
  | .sign rs1 rs2 off => do
    checkRange off 65
    let sig ← Machine.sign (s.getX rs1) (s.getX rs2)
    .ok (s.store off.toNat (serializeSig sig))
  | .signtx rs1 rs2 off imm8 => do
    checkRange off 66
    let sig ← Machine.sign (s.getX rs1) (s.getX rs2)
    .ok (s.store off.toNat (serializeTx sig imm8))

/-- `exec` is `command` of the body. -/
theorem exec_body (i : Instr) (s : State) : exec i s = command s (bodyOf i s) := by cases i <;> rfl

/-- Everything a command can do (R190). -/
theorem exec_cases (i : Instr) (s : State) :
    (s.halted = true ∧ exec i s = .next (s.raise .eHalted)) ∨
    (s.halted = false ∧ ∃ t, bodyOf i s = .ok t ∧ exec i s = .next t.succeed) ∨
    (s.halted = false ∧ ∃ c, bodyOf i s = .error c ∧ exec i s = .next (s.raise c)) := by
  rw [exec_body]; exact command_cases s _

theorem exec_raises {i : Instr} {s : State} (hs : s.halted = false) {c : Cause} (h : bodyOf i s = .error c) :
    ∃ t, exec i s = .next t ∧ Raised s t c := by rw [exec_body]; exact command_raises hs h

theorem exec_wroteX {i : Instr} {s : State} (hs : s.halted = false) {rd : XReg} {v : Word}
    (h : bodyOf i s = .ok (s.setX rd v)) : ∃ t, exec i s = .next t ∧ WroteX s t rd v := by
  rw [exec_body]; exact command_wroteX hs h

theorem exec_wrotePt {i : Instr} {s : State} (hs : s.halted = false) {pd : PReg} {P : Point}
    (h : bodyOf i s = .ok (s.setPt pd P)) : ∃ t, exec i s = .next t ∧ WrotePt s t pd P := by
  rw [exec_body]; exact command_wrotePt hs h

theorem exec_wroteBuf {i : Instr} {s : State} (hs : s.halted = false) (hm : s.buf.wf) {off : Nat} {bs : Bytes}
    (h : bodyOf i s = .ok (s.store off bs)) : ∃ t, exec i s = .next t ∧ WroteBuf s t off bs := by
  rw [exec_body]; exact command_wroteBuf hs hm h

/-- Whether the engine is halted after a raise. -/
theorem halted_raise (s : State) (c : Cause) : (s.raise c).halted = (s.halted || c.isFatal) := by
  show fatalOf (statusRaise c s.status) = (fatalOf s.status || c.isFatal)
  cases hc : c.isFatal
  · rw [fatalOf_statusRaise_error hc]; simp
  · cases hs : fatalOf s.status
    · rw [fatalOf_statusRaise_fatal hc hs]; rfl
    · simp [statusRaise, hs]

/-! ## Taking a body apart -/

theorem bind_eq_ok {α β : Type} {a : Except Cause α} {f : α → Except Cause β} {r : β} :
    (a >>= f) = .ok r ↔ ∃ x, a = .ok x ∧ f x = .ok r := by
  cases a with
  | ok x => simp
  | error c => simp

theorem bind_eq_error {α β : Type} {a : Except Cause α} {f : α → Except Cause β} {c : Cause} :
    (a >>= f) = .error c ↔ a = .error c ∨ ∃ x, a = .ok x ∧ f x = .error c := by
  cases a with
  | ok x => simp
  | error d => simp

theorem check_eq_ok {b : Bool} {c : Cause} {u : Unit} : check b c = .ok u ↔ b = true := by cases b <;> simp
theorem check_eq_error {b : Bool} {c d : Cause} : check b c = .error d ↔ b = false ∧ d = c := by
  cases b <;> simp [eq_comm]

theorem checkRange_eq_ok {off : Byte} {len : Nat} {u : Unit} : checkRange off len = .ok u ↔ off.toNat + len ≤ 256 := by
  rw [checkRange, check_eq_ok, fitsBuf, decide_eq_true_iff]; rfl
theorem checkRange_eq_error {off : Byte} {len : Nat} {d : Cause} :
    checkRange off len = .error d ↔ ¬ off.toNat + len ≤ 256 ∧ d = .eRange := by
  rw [checkRange, check_eq_error, fitsBuf, decide_eq_false_iff_not]; rfl
theorem checkRanges_eq_ok {src len dst : Byte} {out : Nat} {u : Unit} :
    checkRanges src len dst out = .ok u ↔ src.toNat + len.toNat ≤ 256 ∧ dst.toNat + out ≤ 256 := by
  rw [checkRanges, check_eq_ok, Bool.and_eq_true, fitsBuf, fitsBuf, decide_eq_true_iff, decide_eq_true_iff]; rfl
theorem checkRanges_eq_error {src len dst : Byte} {out : Nat} {d : Cause} :
    checkRanges src len dst out = .error d ↔ ¬ (src.toNat + len.toNat ≤ 256 ∧ dst.toNat + out ≤ 256) ∧ d = .eRange := by
  rw [checkRanges, check_eq_error, ← Bool.not_eq_true, Bool.and_eq_true, fitsBuf, fitsBuf, decide_eq_true_iff,
    decide_eq_true_iff]; rfl
theorem checkPubkeyLen_eq_ok {len : Byte} {u : Unit} : checkPubkeyLen len = .ok u ↔ pubkeyLen len.toNat = true := check_eq_ok
theorem checkPubkeyLen_eq_error {len : Byte} {d : Cause} :
    checkPubkeyLen len = .error d ↔ pubkeyLen len.toNat = false ∧ d = .eLen := check_eq_error

/-! ## What the engines raise -/

theorem modInv_error {m : Nat} {a : Word} {c : Cause} (h : modInv m a = .error c) : a.toNat % m = 0 ∧ c = .fInvZero := by
  unfold modInv at h
  split at h <;> simp_all

theorem pointDouble_error {P : Point} {c : Cause} (h : pointDouble P = .error c) : c = .fInvZero := by
  cases P with
  | inf => cases h
  | aff x y =>
    simp only [pointDouble] at h
    split at h
    · cases h
    · rcases bind_eq_error.1 h with h | ⟨_, _, h⟩
      · exact (modInv_error h).2
      · cases h

theorem pointAdd_error {P Q : Point} {c : Cause} (h : pointAdd P Q = .error c) : c = .fInvZero := by
  cases P with
  | inf => cases h
  | aff x y =>
    cases Q with
    | inf => cases h
    | aff x' y' =>
      simp only [pointAdd] at h
      split at h
      · split at h
        · cases h
        · exact pointDouble_error h
      · rcases bind_eq_error.1 h with h | ⟨_, _, h⟩
        · exact (modInv_error h).2
        · cases h

theorem scalarScan_error {P : Point} {k : Word} {i : Nat} {acc : Point} {c : Cause} (h : scalarScan P k i acc = .error c) :
    c = .fInvZero := by
  induction i generalizing acc with
  | zero => cases h
  | succ i ih =>
    simp only [scalarScan] at h
    rcases bind_eq_error.1 h with h | ⟨_, _, h⟩
    · exact pointDouble_error h
    split at h
    · rcases bind_eq_error.1 h with h | ⟨_, _, h⟩
      · exact pointAdd_error h
      · exact ih h
    · exact ih h

theorem scalarMultiply_error {P : Point} {k : Word} {c : Cause} (h : scalarMultiply P k = .error c) : c = .fInvZero :=
  scalarScan_error h

theorem requireFinite_error {P : Point} {c : Cause} (h : requireFinite P = .error c) : P = .inf ∧ c = .fIdentity := by
  cases P <;> simp_all [requireFinite]

theorem encodeUncompressed_error {P : Point} {c : Cause} (h : encodeUncompressed P = .error c) : P = .inf ∧ c = .fIdentity := by
  cases P <;> simp_all [encodeUncompressed]

theorem encodeCompressed_error {P : Point} {c : Cause} (h : encodeCompressed P = .error c) : P = .inf ∧ c = .fIdentity := by
  cases P <;> simp_all [encodeCompressed]

theorem kdfLoop_error {base : Bytes} {k c : Nat} {e : Cause} (h : kdfLoop base k c = .error e) : e = .fRetryKdf := by
  induction k generalizing c with
  | zero => cases h; rfl
  | succ k ih =>
    simp only [kdfLoop] at h
    split at h
    · exact ih h
    · cases h

theorem derivePrivateKey_error {e salt : Word} {c : Cause} (h : derivePrivateKey e salt = .error c) :
    (e = 0 ∧ c = .eEntropy) ∨ (e ≠ 0 ∧ salt = 0 ∧ c = .eSalt) ∨ (e ≠ 0 ∧ salt ≠ 0 ∧ c = .fRetryKdf) := by
  unfold derivePrivateKey at h
  split at h
  · next he => cases h; exact .inl ⟨he, rfl⟩
  · next he =>
    split at h
    · next hs => cases h; exact .inr (.inl ⟨he, hs, rfl⟩)
    · next hs => exact .inr (.inr ⟨he, hs, kdfLoop_error h⟩)

theorem kdfLoop_valid {base : Bytes} {k c : Nat} {d : Word} (h : kdfLoop base k c = .ok d) : validKey d = true := by
  induction k generalizing c with
  | zero => cases h
  | succ k ih =>
    simp only [kdfLoop] at h
    split at h
    · exact ih h
    · next hne =>
      cases h
      have hlt := Nat.mod_lt (be (sha256 (kdfMessage base c))) (show Config.n > 0 by decide)
      have ht := toNat_ofNat_mod modulus_n (be (sha256 (kdfMessage base c)))
      rw [validKey, Bool.and_eq_true, decide_eq_true_iff, decide_eq_true_iff, ht]
      exact ⟨fun h0 => hne (by rw [← ht, h0]; rfl), hlt⟩

theorem derivePrivateKey_valid {e salt d : Word} (h : derivePrivateKey e salt = .ok d) : validKey d = true := by
  unfold derivePrivateKey at h
  split at h
  · cases h
  · split at h
    · cases h
    · exact kdfLoop_valid h

theorem derivePublicKey_error {d : Word} {c : Cause} (h : derivePublicKey d = .error c) :
    (validKey d = false ∧ c = .ePrivkey) ∨ (validKey d = true ∧ (c = .fInvZero ∨ c = .fIdentity)) := by
  unfold derivePublicKey at h
  split at h
  · next hv =>
    refine .inr ⟨hv, ?_⟩
    rcases bind_eq_error.1 h with h | ⟨_, _, h⟩
    · exact .inl (scalarMultiply_error h)
    · exact .inr (requireFinite_error h).2
  · next hv => cases h; exact .inl ⟨by simpa using hv, rfl⟩

theorem signWith_error {d z k : Word} {c : Cause} (h : signWith d z k = .error c) : c = .fInvZero ∨ c = .fIdentity := by
  unfold signWith at h
  split at h
  · rcases bind_eq_error.1 h with h | ⟨_, _, h⟩
    · exact .inl (scalarMultiply_error h)
    rcases bind_eq_error.1 h with h | ⟨_, _, h⟩
    · exact .inr (requireFinite_error h).2
    simp only at h
    split at h
    · cases h
    rcases bind_eq_error.1 h with h | ⟨_, _, h⟩
    · exact .inl (modInv_error h).2
    split at h <;> cases h
  · cases h

theorem signLoop_error {d z : Word} {a : Nat} {kv : NonceState} {c : Cause} (h : signLoop d z a kv = .error c) :
    c = .fRetryNonce ∨ c = .fInvZero ∨ c = .fIdentity := by
  induction a generalizing kv with
  | zero => cases h; exact .inl rfl
  | succ a ih =>
    simp only [signLoop] at h
    rcases bind_eq_error.1 h with h | ⟨o, _, h⟩
    · exact .inr (signWith_error h)
    · cases o with
      | none => exact ih h
      | some sig => cases h

theorem sign_error {d e : Word} {c : Cause} (h : sign d e = .error c) :
    (validKey d = false ∧ c = .ePrivkey) ∨
    (validKey d = true ∧ (c = .fRetryNonce ∨ c = .fInvZero ∨ c = .fIdentity)) := by
  unfold sign at h
  split at h
  · next hv => exact .inr ⟨hv, signLoop_error h⟩
  · next hv => cases h; exact .inl ⟨by simpa using hv, rfl⟩

theorem keypairBytes_error {e salt : Word} {a b : Bool} {c : Cause} (h : keypairBytes e salt a b = .error c) :
    derivePrivateKey e salt = .error c ∨
    ∃ d, derivePrivateKey e salt = .ok d ∧ (derivePublicKey d = .error c ∨ (derivePublicKey d = .ok .inf ∧ c = .fIdentity)) := by
  unfold keypairBytes at h
  rcases bind_eq_error.1 h with h | ⟨d, hd, h⟩
  · exact .inl h
  refine .inr ⟨d, hd, ?_⟩
  rcases bind_eq_error.1 h with h | ⟨Q, hQ, h⟩
  · exact .inl h
  right
  rcases bind_eq_error.1 h with h | ⟨_, _, h⟩
  · obtain ⟨rfl, rfl⟩ := encodeUncompressed_error h; exact ⟨hQ, rfl⟩
  rcases bind_eq_error.1 h with h | ⟨_, _, h⟩
  · obtain ⟨rfl, rfl⟩ := encodeCompressed_error h; exact ⟨hQ, rfl⟩
  · cases h

theorem length_keypairBytes {e salt : Word} {a b : Bool} {bs : Bytes} (h : keypairBytes e salt a b = .ok bs) :
    bs.length = 155 := by
  simp only [keypairBytes, bind_eq_ok] at h
  obtain ⟨d, -, Q, -, pub, hp, comp, hc, h⟩ := h
  cases h
  simp [length_encodeUncompressed hp, length_encodeCompressed hc]

/-! ## What bodies do -/

/-- A body that yields a state has written its command's one destination. -/
theorem body_ok {i : Instr} {s t : State} (h : bodyOf i s = .ok t) :
    (∃ rd v, i.destX = some rd ∧ i.destPt = none ∧ i.destBuf = none ∧ t = s.setX rd v) ∨
    (∃ pd P, i.destX = none ∧ i.destPt = some pd ∧ i.destBuf = none ∧ t = s.setPt pd P) ∨
    (∃ off bs, i.destX = none ∧ i.destPt = none ∧ i.destBuf = some (off, bs.length) ∧ off + bs.length ≤ 256 ∧
      t = s.store off bs) ∨
    (i.destX = none ∧ i.destPt = none ∧ i.destBuf = none ∧ t = s) := by
  cases i with
  | nop => exact .inr (.inr (.inr ⟨rfl, rfl, rfl, by cases h; rfl⟩))
  | li | mov | fadd | fsub | fmul | fred | sadd | ssub | smul | sred | pgetx | pgety =>
    cases h; exact .inl ⟨_, _, rfl, rfl, rfl, rfl⟩
  | ldw | finv | sinv | dpriv =>
    obtain ⟨_, -, h⟩ := bind_eq_ok.1 h
    cases h; exact .inl ⟨_, _, rfl, rfl, rfl, rfl⟩
  | pinf | pgen | pmov => cases h; exact .inr (.inl ⟨_, _, rfl, rfl, rfl, rfl⟩)
  | pset | padd | pdbl | pmul | dpub =>
    obtain ⟨_, -, h⟩ := bind_eq_ok.1 h
    cases h; exact .inr (.inl ⟨_, _, rfl, rfl, rfl, rfl⟩)
  | stw rs1 off =>
    obtain ⟨_, h1, h⟩ := bind_eq_ok.1 h
    cases h
    exact .inr (.inr (.inl ⟨_, _, rfl, rfl, by rw [length_wordBytes]; rfl,
      by rw [length_wordBytes]; exact checkRange_eq_ok.1 h1, rfl⟩))
  | sha256 dst src len | sha256d dst src len | rmd160 dst src len | hash160 dst src len =>
    obtain ⟨_, h1, h⟩ := bind_eq_ok.1 h
    cases h
    refine .inr (.inr (.inl ⟨_, _, rfl, rfl, ?_, ?_, rfl⟩))
    · simp only [length_sha256, length_sha256d, length_rmd160, length_hash160]; rfl
    · simp only [length_sha256, length_sha256d, length_rmd160, length_hash160]; exact (checkRanges_eq_ok.1 h1).2
  | genaddr dst src len | genaddrt dst src len =>
    obtain ⟨_, -, h⟩ := bind_eq_ok.1 h
    obtain ⟨_, h1, h⟩ := bind_eq_ok.1 h
    cases h
    exact .inr (.inr (.inl ⟨_, _, rfl, rfl, by rw [length_addressPayload]; rfl,
      by rw [length_addressPayload]; exact (checkRanges_eq_ok.1 h1).2, rfl⟩))
  | encu ps1 off =>
    obtain ⟨_, h1, h⟩ := bind_eq_ok.1 h
    obtain ⟨bs, h2, h⟩ := bind_eq_ok.1 h
    cases h
    exact .inr (.inr (.inl ⟨_, _, rfl, rfl, by rw [length_encodeUncompressed h2]; rfl,
      by rw [length_encodeUncompressed h2]; exact checkRange_eq_ok.1 h1, rfl⟩))
  | encc ps1 off =>
    obtain ⟨_, h1, h⟩ := bind_eq_ok.1 h
    obtain ⟨bs, h2, h⟩ := bind_eq_ok.1 h
    cases h
    exact .inr (.inr (.inl ⟨_, _, rfl, rfl, by rw [length_encodeCompressed h2]; rfl,
      by rw [length_encodeCompressed h2]; exact checkRange_eq_ok.1 h1, rfl⟩))
  | keypair rs1 rs2 off a b =>
    obtain ⟨_, h1, h⟩ := bind_eq_ok.1 h
    obtain ⟨bs, h2, h⟩ := bind_eq_ok.1 h
    cases h
    exact .inr (.inr (.inl ⟨_, _, rfl, rfl, by rw [length_keypairBytes h2]; rfl,
      by rw [length_keypairBytes h2]; exact checkRange_eq_ok.1 h1, rfl⟩))
  | sign rs1 rs2 off =>
    obtain ⟨_, h1, h⟩ := bind_eq_ok.1 h
    obtain ⟨sig, -, h⟩ := bind_eq_ok.1 h
    cases h
    exact .inr (.inr (.inl ⟨_, _, rfl, rfl, by rw [length_serializeSig]; rfl,
      by rw [length_serializeSig]; exact checkRange_eq_ok.1 h1, rfl⟩))
  | signtx rs1 rs2 off imm8 =>
    obtain ⟨_, h1, h⟩ := bind_eq_ok.1 h
    obtain ⟨sig, -, h⟩ := bind_eq_ok.1 h
    cases h
    exact .inr (.inr (.inl ⟨_, _, rfl, rfl, by rw [length_serializeTx]; rfl,
      by rw [length_serializeTx]; exact checkRange_eq_ok.1 h1, rfl⟩))

/-- The two bodies raise the same cause, or write the same value to the same destination. -/
def SameOutcome (i : Instr) (s s' : State) : Prop :=
  (∃ c, bodyOf i s = .error c ∧ bodyOf i s' = .error c) ∨
  (∃ rd v, i.destX = some rd ∧ i.destPt = none ∧ i.destBuf = none ∧ bodyOf i s = .ok (s.setX rd v) ∧
    bodyOf i s' = .ok (s'.setX rd v)) ∨
  (∃ pd P, i.destX = none ∧ i.destPt = some pd ∧ i.destBuf = none ∧ bodyOf i s = .ok (s.setPt pd P) ∧
    bodyOf i s' = .ok (s'.setPt pd P)) ∨
  (∃ off bs, i.destX = none ∧ i.destPt = none ∧ i.destBuf = some (off, bs.length) ∧ bodyOf i s = .ok (s.store off bs) ∧
    bodyOf i s' = .ok (s'.store off bs)) ∨
  (i.destX = none ∧ i.destPt = none ∧ i.destBuf = none ∧ bodyOf i s = .ok s ∧ bodyOf i s' = .ok s')

theorem sameOutcome_x {i : Instr} {s s' : State} {rd : XReg} (E : Except Cause Word)
    (hd : i.destX = some rd ∧ i.destPt = none ∧ i.destBuf = none)
    (h : bodyOf i s = (E >>= fun v => .ok (s.setX rd v))) (h' : bodyOf i s' = (E >>= fun v => .ok (s'.setX rd v))) :
    SameOutcome i s s' := by
  cases E with
  | ok v => exact .inr (.inl ⟨rd, v, hd.1, hd.2.1, hd.2.2, h, h'⟩)
  | error c => exact .inl ⟨c, h, h'⟩

theorem sameOutcome_pt {i : Instr} {s s' : State} {pd : PReg} (E : Except Cause Point)
    (hd : i.destX = none ∧ i.destPt = some pd ∧ i.destBuf = none)
    (h : bodyOf i s = (E >>= fun v => .ok (s.setPt pd v))) (h' : bodyOf i s' = (E >>= fun v => .ok (s'.setPt pd v))) :
    SameOutcome i s s' := by
  cases E with
  | ok v => exact .inr (.inr (.inl ⟨pd, v, hd.1, hd.2.1, hd.2.2, h, h'⟩))
  | error c => exact .inl ⟨c, h, h'⟩

theorem sameOutcome_buf {i : Instr} {s s' : State} {off len : Nat} (E : Except Cause Bytes)
    (hd : i.destX = none ∧ i.destPt = none ∧ i.destBuf = some (off, len)) (hl : ∀ bs, E = .ok bs → bs.length = len)
    (h : bodyOf i s = (E >>= fun v => .ok (s.store off v))) (h' : bodyOf i s' = (E >>= fun v => .ok (s'.store off v))) :
    SameOutcome i s s' := by
  cases E with
  | ok bs => exact .inr (.inr (.inr (.inl ⟨off, bs, hd.1, hd.2.1, by rw [hd.2.2, hl bs rfl], h, h'⟩)))
  | error c => exact .inl ⟨c, h, h'⟩

theorem bind_assoc_ok {α β γ : Type} (a : Except Cause α) (f : α → Except Cause β) (g : β → Except Cause γ) :
    ((a >>= f) >>= g) = (a >>= fun x => f x >>= g) := by cases a <;> rfl

/-- What a body computes depends on the command's sources alone (R34, R75). -/
theorem body_sources {i : Instr} {s s' : State} (hx : ∀ r ∈ i.srcX, s.getX r = s'.getX r)
    (hp : ∀ q ∈ i.srcPt, s.getPt q = s'.getPt q)
    (hb : ∀ k : Nat, k < i.srcBuf.2 → s.byteAt (i.srcBuf.1 + k) = s'.byteAt (i.srcBuf.1 + k)) : SameOutcome i s s' := by
  have hl : s.load i.srcBuf.1 i.srcBuf.2 = s'.load i.srcBuf.1 i.srcBuf.2 := by
    apply List.ext_getElem (by simp)
    intro k h1 _
    rw [State.getElem_load, State.getElem_load]
    exact hb k (by simpa using h1)
  cases i with
  | nop => exact .inr (.inr (.inr (.inr ⟨rfl, rfl, rfl, rfl, rfl⟩)))
  | li rd imm8 => exact sameOutcome_x (.ok (zext256 imm8)) ⟨rfl, rfl, rfl⟩ rfl rfl
  | mov rd rs1 =>
    have h1 := hx rs1 (by simp [Instr.srcX])
    exact sameOutcome_x (.ok (s.getX rs1)) ⟨rfl, rfl, rfl⟩ rfl (by rw [h1]; rfl)
  | ldw rd off =>
    refine sameOutcome_x (do checkRange off 32; .ok (beWord (s.load off.toNat 32))) ⟨rfl, rfl, rfl⟩ ?_ ?_
    · rw [bind_assoc_ok]; rfl
    · rw [show s.load off.toNat 32 = s'.load off.toNat 32 from hl, bind_assoc_ok]; rfl
  | stw rs1 off =>
    have h1 := hx rs1 (by simp [Instr.srcX])
    refine sameOutcome_buf (do checkRange off 32; .ok (wordBytes (s.getX rs1))) ⟨rfl, rfl, rfl⟩ ?_ ?_ ?_
    · intro bs e
      obtain ⟨_, -, e⟩ := bind_eq_ok.1 e
      cases e; exact length_wordBytes _
    · rw [bind_assoc_ok]; rfl
    · rw [h1, bind_assoc_ok]; rfl
  | fadd rd rs1 rs2 | fsub rd rs1 rs2 | fmul rd rs1 rs2 | fred rd rs1 rs2 | sadd rd rs1 rs2 | ssub rd rs1 rs2
  | smul rd rs1 rs2 | sred rd rs1 rs2 =>
    have h1 := hx rs1 (by simp [Instr.srcX])
    have h2 := hx rs2 (by simp [Instr.srcX])
    refine .inr (.inl ⟨rd, _, rfl, rfl, rfl, rfl, ?_⟩)
    simp only [bodyOf]
    rw [h1, h2]
  | finv rd rs1 | sinv rd rs1 =>
    have h1 := hx rs1 (by simp [Instr.srcX])
    refine sameOutcome_x _ ⟨rfl, rfl, rfl⟩ rfl ?_
    rw [h1]; rfl
  | pinf pd => exact sameOutcome_pt (.ok .inf) ⟨rfl, rfl, rfl⟩ rfl rfl
  | pgen pd => exact sameOutcome_pt (.ok generator) ⟨rfl, rfl, rfl⟩ rfl rfl
  | pset pd rs1 rs2 =>
    have h1 := hx rs1 (by simp [Instr.srcX])
    have h2 := hx rs2 (by simp [Instr.srcX])
    refine sameOutcome_pt (do check (onCurve (s.getX rs1) (s.getX rs2)) .eNotOnCurve; .ok (.aff (s.getX rs1) (s.getX rs2)))
      ⟨rfl, rfl, rfl⟩ ?_ ?_
    · rw [bind_assoc_ok]; rfl
    · rw [h1, h2, bind_assoc_ok]; rfl
  | pmov pd ps1 =>
    have h1 := hp ps1 (by simp [Instr.srcPt])
    exact sameOutcome_pt (.ok (s.getPt ps1)) ⟨rfl, rfl, rfl⟩ rfl (by rw [h1]; rfl)
  | pgetx rd ps1 =>
    have h1 := hp ps1 (by simp [Instr.srcPt])
    exact sameOutcome_x (.ok (s.getPt ps1).xc) ⟨rfl, rfl, rfl⟩ rfl (by rw [h1]; rfl)
  | pgety rd ps1 =>
    have h1 := hp ps1 (by simp [Instr.srcPt])
    exact sameOutcome_x (.ok (s.getPt ps1).yc) ⟨rfl, rfl, rfl⟩ rfl (by rw [h1]; rfl)
  | padd pd ps1 ps2 =>
    have h1 := hp ps1 (by simp [Instr.srcPt])
    have h2 := hp ps2 (by simp [Instr.srcPt])
    refine sameOutcome_pt _ ⟨rfl, rfl, rfl⟩ rfl ?_
    rw [h1, h2]; rfl
  | pdbl pd ps1 =>
    have h1 := hp ps1 (by simp [Instr.srcPt])
    refine sameOutcome_pt _ ⟨rfl, rfl, rfl⟩ rfl ?_
    rw [h1]; rfl
  | pmul pd ps1 rs2 =>
    have h1 := hp ps1 (by simp [Instr.srcPt])
    have h2 := hx rs2 (by simp [Instr.srcX])
    refine sameOutcome_pt _ ⟨rfl, rfl, rfl⟩ rfl ?_
    rw [h1, h2]; rfl
  | sha256 dst src len | sha256d dst src len | rmd160 dst src len | hash160 dst src len =>
    have h1 : s.load src.toNat len.toNat = s'.load src.toNat len.toNat := hl
    cases hc : checkRanges src len dst _ with
    | error c => exact .inl ⟨c, by simp only [bodyOf]; rw [hc]; rfl, by simp only [bodyOf]; rw [hc]; rfl⟩
    | ok _ =>
      refine .inr (.inr (.inr (.inl ⟨dst.toNat, _, rfl, rfl, ?_, by simp only [bodyOf]; rw [hc]; rfl, ?_⟩)))
      · simp only [length_sha256, length_sha256d, length_rmd160, length_hash160]; rfl
      · simp only [bodyOf]; rw [hc, h1]; rfl
  | dpriv rd rs1 rs2 =>
    have h1 := hx rs1 (by simp [Instr.srcX])
    have h2 := hx rs2 (by simp [Instr.srcX])
    refine sameOutcome_x _ ⟨rfl, rfl, rfl⟩ rfl ?_
    rw [h1, h2]; rfl
  | dpub pd rs1 =>
    have h1 := hx rs1 (by simp [Instr.srcX])
    refine sameOutcome_pt _ ⟨rfl, rfl, rfl⟩ rfl ?_
    rw [h1]; rfl
  | encu ps1 off =>
    have h1 := hp ps1 (by simp [Instr.srcPt])
    refine sameOutcome_buf (do checkRange off 65; encodeUncompressed (s.getPt ps1)) ⟨rfl, rfl, rfl⟩ ?_ ?_ ?_
    · intro bs e
      obtain ⟨_, -, e⟩ := bind_eq_ok.1 e
      exact length_encodeUncompressed e
    · rw [bind_assoc_ok]; rfl
    · rw [h1, bind_assoc_ok]; rfl
  | encc ps1 off =>
    have h1 := hp ps1 (by simp [Instr.srcPt])
    refine sameOutcome_buf (do checkRange off 33; encodeCompressed (s.getPt ps1)) ⟨rfl, rfl, rfl⟩ ?_ ?_ ?_
    · intro bs e
      obtain ⟨_, -, e⟩ := bind_eq_ok.1 e
      exact length_encodeCompressed e
    · rw [bind_assoc_ok]; rfl
    · rw [h1, bind_assoc_ok]; rfl
  | keypair rs1 rs2 off a b =>
    have h1 := hx rs1 (by simp [Instr.srcX])
    have h2 := hx rs2 (by simp [Instr.srcX])
    refine sameOutcome_buf (do checkRange off 155; keypairBytes (s.getX rs1) (s.getX rs2) a b) ⟨rfl, rfl, rfl⟩ ?_ ?_ ?_
    · intro bs e
      obtain ⟨_, -, e⟩ := bind_eq_ok.1 e
      exact length_keypairBytes e
    · rw [bind_assoc_ok]; rfl
    · rw [h1, h2, bind_assoc_ok]; rfl
  | genaddr dst src len | genaddrt dst src len =>
    have h1 : s.load src.toNat len.toNat = s'.load src.toNat len.toNat := hl
    cases hc : checkPubkeyLen len with
    | error c => exact .inl ⟨c, by simp only [bodyOf]; rw [hc]; rfl, by simp only [bodyOf]; rw [hc]; rfl⟩
    | ok _ =>
    cases hr : checkRanges src len dst 25 with
    | error c => exact .inl ⟨c, by simp only [bodyOf]; rw [hc, hr]; rfl, by simp only [bodyOf]; rw [hc, hr]; rfl⟩
    | ok _ =>
      refine .inr (.inr (.inr (.inl ⟨dst.toNat, _, rfl, rfl, ?_, by simp only [bodyOf]; rw [hc, hr]; rfl, ?_⟩)))
      · rw [length_addressPayload]; rfl
      · simp only [bodyOf]; rw [hc, hr, h1]; rfl
  | sign rs1 rs2 off =>
    have h1 := hx rs1 (by simp [Instr.srcX])
    have h2 := hx rs2 (by simp [Instr.srcX])
    refine sameOutcome_buf (do
      checkRange off 65
      let sig ← Machine.sign (s.getX rs1) (s.getX rs2)
      .ok (serializeSig sig)) ⟨rfl, rfl, rfl⟩ ?_ ?_ ?_
    · intro bs e
      obtain ⟨_, -, e⟩ := bind_eq_ok.1 e
      obtain ⟨_, -, e⟩ := bind_eq_ok.1 e
      cases e; exact length_serializeSig _
    · simp only [bind_assoc_ok, except_ok_bind]; rfl
    · rw [h1, h2]; simp only [bind_assoc_ok, except_ok_bind]; rfl
  | signtx rs1 rs2 off imm8 =>
    have h1 := hx rs1 (by simp [Instr.srcX])
    have h2 := hx rs2 (by simp [Instr.srcX])
    refine sameOutcome_buf (do
      checkRange off 66
      let sig ← Machine.sign (s.getX rs1) (s.getX rs2)
      .ok (serializeTx sig imm8)) ⟨rfl, rfl, rfl⟩ ?_ ?_ ?_
    · intro bs e
      obtain ⟨_, -, e⟩ := bind_eq_ok.1 e
      obtain ⟨_, -, e⟩ := bind_eq_ok.1 e
      cases e; exact length_serializeTx _ _
    · simp only [bind_assoc_ok, except_ok_bind]; rfl
    · rw [h1, h2]; simp only [bind_assoc_ok, except_ok_bind]; rfl

/-- What a body can raise: a cause the table of R191 lists for its command. -/
theorem body_error {i : Instr} {s : State} {c : Cause} (h : bodyOf i s = .error c) :
    c.raisedBy i ∧ c ≠ .eHalted := by
  cases i with
  | nop | li | mov | fadd | fsub | fmul | fred | sadd | ssub | smul | sred | pgetx | pgety | pinf | pgen | pmov => cases h
  | ldw rd off | stw rs1 off =>
    rcases bind_eq_error.1 h with h | ⟨_, _, h⟩
    · obtain ⟨-, rfl⟩ := checkRange_eq_error.1 h
      simp [Cause.raisedBy, Instr.destBuf]
    · cases h
  | finv rd rs1 | sinv rd rs1 =>
    rcases bind_eq_error.1 h with h | ⟨_, _, h⟩
    · obtain ⟨-, rfl⟩ := modInv_error h
      simp [Cause.raisedBy]
    · cases h
  | pset pd rs1 rs2 =>
    rcases bind_eq_error.1 h with h | ⟨_, _, h⟩
    · obtain ⟨-, rfl⟩ := check_eq_error.1 h
      simp [Cause.raisedBy]
    · cases h
  | padd pd ps1 ps2 =>
    rcases bind_eq_error.1 h with h | ⟨_, _, h⟩
    · obtain rfl := pointAdd_error h
      simp [Cause.raisedBy]
    · cases h
  | pdbl pd ps1 =>
    rcases bind_eq_error.1 h with h | ⟨_, _, h⟩
    · obtain rfl := pointDouble_error h
      simp [Cause.raisedBy]
    · cases h
  | pmul pd ps1 rs2 =>
    rcases bind_eq_error.1 h with h | ⟨_, _, h⟩
    · obtain rfl := scalarMultiply_error h
      simp [Cause.raisedBy]
    · cases h
  | sha256 dst src len | sha256d dst src len | rmd160 dst src len | hash160 dst src len =>
    rcases bind_eq_error.1 h with h | ⟨_, _, h⟩
    · obtain ⟨-, rfl⟩ := checkRanges_eq_error.1 h
      simp [Cause.raisedBy, Instr.destBuf]
    · cases h
  | dpriv rd rs1 rs2 =>
    rcases bind_eq_error.1 h with h | ⟨_, _, h⟩
    · rcases derivePrivateKey_error h with ⟨-, rfl⟩ | ⟨-, -, rfl⟩ | ⟨-, -, rfl⟩ <;> simp [Cause.raisedBy]
    · cases h
  | dpub pd rs1 =>
    rcases bind_eq_error.1 h with h | ⟨_, _, h⟩
    · rcases derivePublicKey_error h with ⟨-, rfl⟩ | ⟨-, rfl | rfl⟩ <;> simp [Cause.raisedBy]
    · cases h
  | encu ps1 off =>
    rcases bind_eq_error.1 h with h | ⟨_, _, h⟩
    · obtain ⟨-, rfl⟩ := checkRange_eq_error.1 h
      simp [Cause.raisedBy, Instr.destBuf]
    rcases bind_eq_error.1 h with h | ⟨_, _, h⟩
    · obtain ⟨-, rfl⟩ := encodeUncompressed_error h
      simp [Cause.raisedBy]
    · cases h
  | encc ps1 off =>
    rcases bind_eq_error.1 h with h | ⟨_, _, h⟩
    · obtain ⟨-, rfl⟩ := checkRange_eq_error.1 h
      simp [Cause.raisedBy, Instr.destBuf]
    rcases bind_eq_error.1 h with h | ⟨_, _, h⟩
    · obtain ⟨-, rfl⟩ := encodeCompressed_error h
      simp [Cause.raisedBy]
    · cases h
  | keypair rs1 rs2 off a b =>
    rcases bind_eq_error.1 h with h | ⟨_, _, h⟩
    · obtain ⟨-, rfl⟩ := checkRange_eq_error.1 h
      simp [Cause.raisedBy, Instr.destBuf]
    rcases bind_eq_error.1 h with h | ⟨_, _, h⟩
    · rcases keypairBytes_error h with h | ⟨d, hd, h | ⟨-, rfl⟩⟩
      · rcases derivePrivateKey_error h with ⟨-, rfl⟩ | ⟨-, -, rfl⟩ | ⟨-, -, rfl⟩ <;> simp [Cause.raisedBy]
      · rcases derivePublicKey_error h with ⟨hv, -⟩ | ⟨-, rfl | rfl⟩
        · rw [derivePrivateKey_valid hd] at hv; cases hv
        all_goals simp [Cause.raisedBy]
      · simp [Cause.raisedBy]
    · cases h
  | genaddr dst src len | genaddrt dst src len =>
    rcases bind_eq_error.1 h with h | ⟨_, _, h⟩
    · obtain ⟨-, rfl⟩ := checkPubkeyLen_eq_error.1 h
      simp [Cause.raisedBy]
    rcases bind_eq_error.1 h with h | ⟨_, _, h⟩
    · obtain ⟨-, rfl⟩ := checkRanges_eq_error.1 h
      simp [Cause.raisedBy, Instr.destBuf]
    · cases h
  | sign rs1 rs2 off | signtx rs1 rs2 off imm8 =>
    rcases bind_eq_error.1 h with h | ⟨_, _, h⟩
    · obtain ⟨-, rfl⟩ := checkRange_eq_error.1 h
      simp [Cause.raisedBy, Instr.destBuf]
    rcases bind_eq_error.1 h with h | ⟨_, _, h⟩
    · rcases sign_error h with ⟨-, rfl⟩ | ⟨-, rfl | rfl | rfl⟩ <;> simp [Cause.raisedBy]
    · cases h

end Sys2Proof.Machine
end

