-- ==== Sys2Proof/Laws/Primes.lean ====
section
/-! SUPPORT. `p` and `n` are prime (R16: "Both `p` and `n` are prime"), by Lucas certificates: for a prime `q`, a witness whose
order modulo `q` is `q - 1`, with the factors of `q - 1` certified first. -/

namespace Sys2Proof.Machine

/-- `k n`, written so that the kernel computes `n` before it goes on. -/
def force {α : Type} (n : Nat) (k : Nat → α) : α :=
  match n with
  | 0 => k 0
  | m + 1 => k (m + 1)

@[simp] theorem force_eq {α : Type} (n : Nat) (k : Nat → α) : force n k = k n := by cases n <;> rfl

/-- `r ^ (2^i) * a ^ (e mod 2^i)` modulo `m`, by square and multiply. -/
def powMod (m a e : Nat) : Nat → Nat → Nat
  | 0, r => r
  | i + 1, r => force (if e.testBit i then r * r % m * a % m else r * r % m) (powMod m a e i)

theorem cast_powMod (m a e i r : Nat) : (powMod m a e i r : ZMod m) = (r : ZMod m) ^ 2 ^ i * (a : ZMod m) ^ (e % 2 ^ i) := by
  induction i generalizing r with
  | zero => simp [powMod, Nat.mod_one]
  | succ i ih =>
    rw [powMod, force_eq, ih, Nat.mod_pow_succ, pow_succ, pow_add, pow_mul]
    have hb := Nat.testBit_eq_decide_div_mod_eq (x := e) (i := i)
    by_cases hbit : e.testBit i
    · have h1 : e / 2 ^ i % 2 = 1 := by simpa [hb] using hbit
      rw [if_pos hbit, h1]; push_cast [ZMod.natCast_mod]; ring
    · have h1 : e / 2 ^ i % 2 = 0 := by
        have : ¬ e / 2 ^ i % 2 = 1 := by simpa [hb] using hbit
        omega
      rw [if_neg hbit, h1]; push_cast [ZMod.natCast_mod]; ring

/-- The check of a certificate: `a` to the `q - 1` is 1, to no `(q - 1) / f` is it 1, and the factors make up `q - 1`. -/
def certOk (q bits a : Nat) (fs : List (Nat × Nat)) : Bool :=
  decide (1 < q) && decide (q - 1 < 2 ^ bits) && powMod q a (q - 1) bits 1 == 1 &&
    fs.all (fun f => powMod q a ((q - 1) / f.1) bits 1 % q != 1) && (fs.map fun f => f.1 ^ f.2).prod == q - 1

/-- Every factor of a certificate is prime. -/
def AllPrime : List (Nat × Nat) → Prop
  | [] => True
  | f :: fs => f.1.Prime ∧ AllPrime fs

theorem AllPrime.mem {fs : List (Nat × Nat)} (h : AllPrime fs) {f : Nat × Nat} (hf : f ∈ fs) : f.1.Prime := by
  induction fs with
  | nil => cases hf
  | cons g fs ih =>
    rcases List.mem_cons.1 hf with rfl | hf
    · exact h.1
    · exact ih h.2 hf

/-- Lucas: a number with a certificate is prime. -/
theorem prime_of_cert {q : Nat} (bits a : Nat) (fs : List (Nat × Nat)) (hp : AllPrime fs) (h : certOk q bits a fs = true) :
    q.Prime := by
  simp only [certOk, Bool.and_eq_true, decide_eq_true_eq, beq_iff_eq, List.all_eq_true, bne_iff_ne] at h
  obtain ⟨⟨⟨⟨hq, hb⟩, h1⟩, hne⟩, hprod⟩ := h
  have key : ∀ e, e ≤ q - 1 → (a : ZMod q) ^ e = (powMod q a e bits 1 : Nat) := fun e he => by
    rw [cast_powMod, Nat.mod_eq_of_lt (by omega)]; simp
  refine lucas_primality q (a : ZMod q) (by rw [key _ le_rfl, h1]; simp) fun r hr hd => ?_
  rw [← hprod] at hd
  obtain ⟨b, hb', hrb⟩ := (hr.prime.dvd_prod_iff).1 hd
  obtain ⟨f, hf, rfl⟩ := List.mem_map.1 hb'
  have : r = f.1 := (Nat.prime_dvd_prime_iff_eq hr (hp.mem hf)).1 (hr.dvd_of_dvd_pow hrb)
  subst this
  rw [key _ (Nat.div_le_self _ _)]
  intro heq
  have h2 : ((powMod q a ((q - 1) / f.1) bits 1 : Nat) : ZMod q) = ((1 : Nat) : ZMod q) := by simpa using heq
  rw [ZMod.natCast_eq_natCast_iff, Nat.ModEq, Nat.mod_eq_of_lt hq] at h2
  exact hne f hf h2

theorem prime_107590001 : Nat.Prime 107590001 :=
  prime_of_cert 27 3 [(2, 4), (5, 4), (7, 1), (29, 1), (53, 1)] ⟨by norm_num, by norm_num, by norm_num, by norm_num, by norm_num, trivial⟩ (by decide +kernel)

theorem prime_1206781 : Nat.Prime 1206781 :=
  prime_of_cert 21 10 [(2, 2), (3, 1), (5, 1), (20113, 1)] ⟨by norm_num, by norm_num, by norm_num, by norm_num, trivial⟩ (by decide +kernel)

theorem prime_7240687 : Nat.Prime 7240687 :=
  prime_of_cert 23 3 [(2, 1), (3, 1), (1206781, 1)] ⟨by norm_num, by norm_num, prime_1206781, trivial⟩ (by decide +kernel)

theorem prime_255515944373312847190720520512484175977 : Nat.Prime 255515944373312847190720520512484175977 :=
  prime_of_cert 128 3 [(2, 3), (7, 2), (11, 1), (1627, 1), (2657, 1), (4423, 1), (41201, 1), (96557, 1), (107590001, 1), (7240687, 1)] ⟨by norm_num, by norm_num, by norm_num, by norm_num, by norm_num, by norm_num, by norm_num, by norm_num, prime_107590001, prime_7240687, trivial⟩ (by decide +kernel)

theorem prime_13331831 : Nat.Prime 13331831 :=
  prime_of_cert 24 13 [(2, 1), (5, 1), (971, 1), (1373, 1)] ⟨by norm_num, by norm_num, by norm_num, by norm_num, trivial⟩ (by decide +kernel)

theorem prime_173378833005251801 : Nat.Prime 173378833005251801 :=
  prime_of_cert 58 6 [(2, 3), (5, 2), (2621, 1), (24809, 1), (13331831, 1)] ⟨by norm_num, by norm_num, by norm_num, by norm_num, prime_13331831, trivial⟩ (by decide +kernel)

theorem prime_22149492674086928081353 : Nat.Prime 22149492674086928081353 :=
  prime_of_cert 75 5 [(2, 3), (3, 1), (5323, 1), (173378833005251801, 1)] ⟨by norm_num, by norm_num, by norm_num, prime_173378833005251801, trivial⟩ (by decide +kernel)

theorem prime_132896956044521568488119 : Nat.Prime 132896956044521568488119 :=
  prime_of_cert 77 6 [(2, 1), (3, 1), (22149492674086928081353, 1)] ⟨by norm_num, by norm_num, prime_22149492674086928081353, trivial⟩ (by decide +kernel)

theorem prime_205115282021455665897114700593932402728804164701536103180137503955397371 : Nat.Prime 205115282021455665897114700593932402728804164701536103180137503955397371 :=
  prime_of_cert 237 10 [(2, 1), (3, 1), (5, 1), (29, 2), (31, 1), (7723, 1), (255515944373312847190720520512484175977, 1), (132896956044521568488119, 1)] ⟨by norm_num, by norm_num, by norm_num, by norm_num, by norm_num, by norm_num, prime_255515944373312847190720520512484175977, prime_132896956044521568488119, trivial⟩ (by decide +kernel)

theorem prime_115792089237316195423570985008687907853269984665640564039457584007908834671663 : Nat.Prime 115792089237316195423570985008687907853269984665640564039457584007908834671663 :=
  prime_of_cert 256 3 [(2, 1), (3, 1), (7, 1), (13441, 1), (205115282021455665897114700593932402728804164701536103180137503955397371, 1)] ⟨by norm_num, by norm_num, by norm_num, by norm_num, prime_205115282021455665897114700593932402728804164701536103180137503955397371, trivial⟩ (by decide +kernel)

theorem prime_1627771 : Nat.Prime 1627771 :=
  prime_of_cert 21 3 [(2, 1), (3, 1), (5, 1), (29, 1), (1871, 1)] ⟨by norm_num, by norm_num, by norm_num, by norm_num, by norm_num, trivial⟩ (by decide +kernel)

theorem prime_297159362677 : Nat.Prime 297159362677 :=
  prime_of_cert 39 2 [(2, 2), (3, 2), (11, 1), (461, 1), (1627771, 1)] ⟨by norm_num, by norm_num, by norm_num, by norm_num, prime_1627771, trivial⟩ (by decide +kernel)

theorem prime_545358713 : Nat.Prime 545358713 :=
  prime_of_cert 30 5 [(2, 3), (41, 1), (59, 1), (28181, 1)] ⟨by norm_num, by norm_num, by norm_num, by norm_num, trivial⟩ (by decide +kernel)

theorem prime_29047611873442575647497758179 : Nat.Prime 29047611873442575647497758179 :=
  prime_of_cert 95 2 [(2, 1), (293, 1), (297159362677, 1), (545358713, 1), (305873, 1)] ⟨by norm_num, by norm_num, prime_297159362677, prime_545358713, by norm_num, trivial⟩ (by decide +kernel)

theorem prime_341948486974166000522343609283189 : Nat.Prime 341948486974166000522343609283189 :=
  prime_of_cert 109 2 [(2, 2), (3, 3), (109, 1), (29047611873442575647497758179, 1)] ⟨by norm_num, by norm_num, by norm_num, prime_29047611873442575647497758179, trivial⟩ (by decide +kernel)

theorem prime_44706919 : Nat.Prime 44706919 :=
  prime_of_cert 26 6 [(2, 1), (3, 1), (797, 1), (9349, 1)] ⟨by norm_num, by norm_num, by norm_num, by norm_num, trivial⟩ (by decide +kernel)

theorem prime_174723607534414371449 : Nat.Prime 174723607534414371449 :=
  prime_of_cert 68 3 [(2, 3), (17, 1), (59, 1), (4051, 1), (44706919, 1), (120233, 1)] ⟨by norm_num, by norm_num, by norm_num, by norm_num, prime_44706919, by norm_num, trivial⟩ (by decide +kernel)

theorem prime_4681609 : Nat.Prime 4681609 :=
  prime_of_cert 23 23 [(2, 3), (3, 1), (97, 1), (2011, 1)] ⟨by norm_num, by norm_num, by norm_num, by norm_num, trivial⟩ (by decide +kernel)

theorem prime_107361793816595537 : Nat.Prime 107361793816595537 :=
  prime_of_cert 57 3 [(2, 4), (16699, 1), (85831, 1), (4681609, 1)] ⟨by norm_num, by norm_num, by norm_num, prime_4681609, trivial⟩ (by decide +kernel)

theorem prime_115792089237316195423570985008687907852837564279074904382605163141518161494337 : Nat.Prime 115792089237316195423570985008687907852837564279074904382605163141518161494337 :=
  prime_of_cert 256 7 [(2, 6), (3, 1), (149, 1), (631, 1), (341948486974166000522343609283189, 1), (174723607534414371449, 1), (107361793816595537, 1)] ⟨by norm_num, by norm_num, by norm_num, by norm_num, prime_341948486974166000522343609283189, prime_174723607534414371449, prime_107361793816595537, trivial⟩ (by decide +kernel)

theorem prime_p : Nat.Prime Config.p := prime_115792089237316195423570985008687907853269984665640564039457584007908834671663
theorem prime_n : Nat.Prime Config.n := prime_115792089237316195423570985008687907852837564279074904382605163141518161494337

theorem fact_prime_p : Fact (Nat.Prime Config.p) := ⟨prime_p⟩
theorem fact_prime_n : Fact (Nat.Prime Config.n) := ⟨prime_n⟩

end Sys2Proof.Machine
end

