-- ==== Sys2Proof/Laws/Group.lean ====
section
/-! SUPPORT. The group law of the model is the group law of the curve: on valid points `pointAdd` is the addition of Mathlib's
Weierstrass curve `y^2 = x^3 + 7` over the field of `p` elements, so it is associative, and `scalarMultiply` is `k • P`. -/

namespace Sys2Proof.Machine

/-- A point register holds `Inf` or a point that passes the machine's check (R21). -/
def Point.valid : Point → Bool
  | .inf => true
  | .aff x y => onCurve x y

/-- The curve `y^2 = x^3 + 7`. -/
def ecurve : WeierstrassCurve.Affine Fp := ⟨0, 0, 0, 0, 7⟩

theorem fp_inj {a b : Word} (ha : a.toNat < Config.p) (hb : b.toNat < Config.p) (h : fp a = fp b) : a = b :=
  eq_of_cast ha hb h

@[simp] theorem fp_add (a b : Word) : fp (fieldAdd a b) = fp a + fp b := cast_modAdd modulus_p a b
@[simp] theorem fp_sub (a b : Word) : fp (fieldSub a b) = fp a - fp b := cast_modSub modulus_p a b
@[simp] theorem fp_mul (a b : Word) : fp (fieldMul a b) = fp a * fp b := cast_modMul modulus_p a b
@[simp] theorem fp_zero : fp 0 = 0 := by simp [fp]
@[simp] theorem fp_two : fp 2 = 2 := by simp [fp]
@[simp] theorem fp_three : fp 3 = 3 := by simp [fp]
@[simp] theorem fp_b : fp Config.b = 7 := by simp [fp, Config.b]

theorem fieldAdd_lt (a b : Word) : (fieldAdd a b).toNat < Config.p := modAdd_lt modulus_p a b
theorem fieldSub_lt (a b : Word) : (fieldSub a b).toNat < Config.p := modSub_lt modulus_p a b
theorem fieldMul_lt (a b : Word) : (fieldMul a b).toNat < Config.p := modMul_lt modulus_p a b

theorem fp_eq_zero {a : Word} (ha : a.toNat < Config.p) : fp a = 0 ↔ a = 0 := by
  rw [← fp_zero]
  exact ⟨fp_inj ha (by decide), fun h => by rw [h]⟩

theorem fp_ne_zero_mod {a : Word} (h : fp a ≠ 0) : a.toNat % Config.p ≠ 0 := by
  rwa [fp, Ne, ZMod.natCast_eq_zero_iff, Nat.dvd_iff_mod_eq_zero] at h

/-- `OnCurve` is the equation of the curve over the field, with coordinates below `p` (R103). -/
theorem onCurve_iff (x y : Word) :
    onCurve x y = true ↔ x.toNat < Config.p ∧ y.toNat < Config.p ∧ fp y ^ 2 = fp x ^ 3 + 7 := by
  rw [onCurve, Bool.and_eq_true, Bool.and_eq_true, decide_eq_true_eq, decide_eq_true_eq, beq_iff_eq, and_assoc]
  have : fieldMul y y = fieldAdd (fieldMul (fieldMul x x) x) Config.b ↔ fp y ^ 2 = fp x ^ 3 + 7 := by
    constructor
    · intro h
      have := congrArg fp h
      simp only [fp_mul, fp_add, fp_b] at this
      linear_combination this
    · intro h
      refine fp_inj (fieldMul_lt _ _) (fieldAdd_lt _ _) ?_
      simp only [fp_mul, fp_add, fp_b]
      linear_combination h
  rw [this]

theorem two_ne_zero_fp : (2 : Fp) ≠ 0 := by
  have : ((2 : ℕ) : Fp) ≠ 0 := by rw [Ne, ZMod.natCast_eq_zero_iff]; decide
  simpa using this

theorem ecurve_equation (x y : Fp) : ecurve.Equation x y ↔ y ^ 2 = x ^ 3 + 7 := by
  rw [WeierstrassCurve.Affine.equation_iff]; simp [ecurve]

theorem ecurve_disc : ecurve.Δ ≠ 0 := by
  have h : ((21168 : ℕ) : Fp) ≠ 0 := by rw [Ne, ZMod.natCast_eq_zero_iff]; decide
  have e : ecurve.Δ = -((21168 : ℕ) : Fp) := by
    simp [WeierstrassCurve.Δ, WeierstrassCurve.b₂, WeierstrassCurve.b₄, WeierstrassCurve.b₆, WeierstrassCurve.b₈, ecurve]
    norm_num
  rw [e]; exact neg_ne_zero.2 h

theorem ecurve_nonsingular {x y : Fp} (h : y ^ 2 = x ^ 3 + 7) : ecurve.Nonsingular x y :=
  (WeierstrassCurve.Affine.equation_iff_nonsingular_of_Δ_ne_zero ecurve_disc).1 ((ecurve_equation x y).2 h)

/-- A point of the model as a point of the curve; `0` for a pair that is no point. -/
noncomputable def toE : Point → ecurve.Point
  | .inf => 0
  | .aff x y =>
    haveI := Classical.dec (ecurve.Nonsingular (fp x) (fp y))
    if h : ecurve.Nonsingular (fp x) (fp y) then .some (fp x) (fp y) h else 0

@[simp] theorem toE_inf : toE .inf = 0 := rfl

theorem toE_aff {x y : Word} (h : ecurve.Nonsingular (fp x) (fp y)) : toE (.aff x y) = .some (fp x) (fp y) h := by
  simp [toE, h]

theorem nonsingular_of_onCurve {x y : Word} (h : onCurve x y = true) : ecurve.Nonsingular (fp x) (fp y) :=
  ecurve_nonsingular ((onCurve_iff x y).1 h).2.2

/-- Different valid points are different points of the curve. -/
theorem toE_inj {P Q : Point} (hP : P.valid = true) (hQ : Q.valid = true) (h : toE P = toE Q) : P = Q := by
  cases P with
  | inf =>
    cases Q with
    | inf => rfl
    | aff x y =>
      rw [toE_inf, toE_aff (nonsingular_of_onCurve hQ)] at h
      exact absurd h.symm (WeierstrassCurve.Affine.Point.some_ne_zero _)
  | aff x y =>
    cases Q with
    | inf =>
      rw [toE_inf, toE_aff (nonsingular_of_onCurve hP)] at h
      exact absurd h (WeierstrassCurve.Affine.Point.some_ne_zero _)
    | aff x' y' =>
      rw [toE_aff (nonsingular_of_onCurve hP), toE_aff (nonsingular_of_onCurve hQ)] at h
      injection h with hx hy
      obtain ⟨h1, h2, -⟩ := (onCurve_iff _ _).1 hP
      obtain ⟨h3, h4, -⟩ := (onCurve_iff _ _).1 hQ
      rw [fp_inj h1 h3 hx, fp_inj h2 h4 hy]

theorem toE_eq_zero {P : Point} (hP : P.valid = true) : toE P = 0 ↔ P = .inf := by
  rw [← toE_inf]
  exact ⟨toE_inj hP rfl, fun h => by rw [h]⟩

/-- A pair of words below `p` that name the coordinates of a point of the curve is that point. -/
theorem toE_some {x y : Word} {X Y : Fp} (h : ecurve.Nonsingular X Y) (hx : x.toNat < Config.p) (hy : y.toNat < Config.p)
    (ex : fp x = X) (ey : fp y = Y) : (Point.aff x y).valid = true ∧ toE (.aff x y) = .some X Y h := by
  subst ex ey
  exact ⟨(onCurve_iff x y).2 ⟨hx, hy, (ecurve_equation _ _).1 h.1⟩, toE_aff h⟩

theorem ecurve_negY (x y : Fp) : ecurve.negY x y = -y := by simp [WeierstrassCurve.Affine.negY, ecurve]

theorem ecurve_addX (x₁ x₂ l : Fp) : ecurve.addX x₁ x₂ l = l ^ 2 - x₁ - x₂ := by
  simp [WeierstrassCurve.Affine.addX, ecurve]

theorem ecurve_addY (x₁ x₂ y₁ l : Fp) : ecurve.addY x₁ x₂ y₁ l = l * (x₁ - ecurve.addX x₁ x₂ l) - y₁ := by
  rw [WeierstrassCurve.Affine.addY, ecurve_negY, WeierstrassCurve.Affine.negAddY]; ring

theorem generator_valid : generator.valid = true := by decide +kernel

theorem scan_bit_one {A : Type} [AddCommGroup A] (a P : A) (n m : ℕ) :
    n • (a + a + P) + m • P = (n * 2) • a + (m + n * 1) • P := by
  rw [mul_one, add_nsmul, nsmul_add, ← two_nsmul, ← mul_nsmul']; abel

theorem scan_bit_zero {A : Type} [AddCommGroup A] (a P : A) (n m : ℕ) :
    n • (a + a) + m • P = (n * 2) • a + (m + n * 0) • P := by
  rw [mul_zero, add_zero, ← two_nsmul, ← mul_nsmul']

variable [Fact (Nat.Prime Config.p)]

theorem fp_fieldInv {a r : Word} (h : fieldInv a = .ok r) : fp r = (fp a)⁻¹ := cast_modInv_eq modulus_p (by decide) h

theorem fieldInv_ok {a : Word} (h : fp a ≠ 0) : ∃ r, fieldInv a = .ok r ∧ fp r = (fp a)⁻¹ := by
  obtain ⟨r, hr⟩ := modInv_isOk (fp_ne_zero_mod h)
  exact ⟨r, hr, fp_fieldInv hr⟩

/-- Doubling on the curve: never a failure, and the double of the point (R101, R21). -/
theorem pointDouble_spec {P : Point} (hP : P.valid = true) :
    ∃ R, pointDouble P = .ok R ∧ R.valid = true ∧ toE R = toE P + toE P := by
  cases P with
  | inf => exact ⟨.inf, rfl, rfl, by simp⟩
  | aff x y =>
    obtain ⟨hx, hy, heq⟩ := (onCurve_iff x y).1 hP
    have hns := nonsingular_of_onCurve hP
    rw [pointDouble, toE_aff hns]
    by_cases h0 : y = 0
    · refine ⟨.inf, if_pos h0, rfl, ?_⟩
      have hf : fp y = 0 := (fp_eq_zero hy).2 h0
      rw [WeierstrassCurve.Affine.Point.add_self_of_Y_eq (by rw [ecurve_negY, hf, neg_zero]), toE_inf]
    · have hy0 : fp y ≠ 0 := fun h => h0 ((fp_eq_zero hy).1 h)
      have h2y0 : 2 * fp y ≠ 0 := mul_ne_zero two_ne_zero_fp hy0
      obtain ⟨inv, hinv, hfi⟩ := fieldInv_ok (a := fieldMul 2 y) (by rwa [fp_mul, fp_two])
      rw [fp_mul, fp_two] at hfi
      rw [if_neg h0, hinv]
      have hne : fp y ≠ ecurve.negY (fp x) (fp y) := by
        rw [ecurve_negY]
        intro h
        exact h2y0 (by linear_combination h)
      have hs : ecurve.slope (fp x) (fp x) (fp y) (fp y) = 3 * fp x ^ 2 * (2 * fp y)⁻¹ := by
        rw [WeierstrassCurve.Affine.slope_of_Y_ne rfl hne, div_eq_mul_inv, ecurve_negY]
        simp only [ecurve]
        rw [show fp y - -fp y = 2 * fp y by ring]; ring
      rw [WeierstrassCurve.Affine.Point.add_self_of_Y_ne hne]
      refine ⟨_, rfl, toE_some _ (fieldSub_lt _ _) (fieldSub_lt _ _) ?_ ?_⟩
      · simp only [hs, ecurve_addX, fp_sub, fp_mul, fp_two, fp_three, hfi]; ring
      · simp only [hs, ecurve_addY, ecurve_addX, fp_sub, fp_mul, fp_two, fp_three, hfi]; ring

/-- Addition on the curve: never a failure, and the sum of the points (R100, R21). -/
theorem pointAdd_spec {P Q : Point} (hP : P.valid = true) (hQ : Q.valid = true) :
    ∃ R, pointAdd P Q = .ok R ∧ R.valid = true ∧ toE R = toE P + toE Q := by
  cases P with
  | inf => exact ⟨Q, rfl, hQ, by simp⟩
  | aff x y =>
  cases Q with
  | inf => exact ⟨.aff x y, rfl, hP, by simp⟩
  | aff x' y' =>
    obtain ⟨hx, hy, heq⟩ := (onCurve_iff x y).1 hP
    obtain ⟨hx', hy', heq'⟩ := (onCurve_iff x' y').1 hQ
    have hns := nonsingular_of_onCurve hP
    have hns' := nonsingular_of_onCurve hQ
    rw [pointAdd]
    by_cases h : x = x'
    · rw [if_pos h]
      by_cases hyy : fieldAdd y y' = 0
      · refine ⟨.inf, if_pos hyy, rfl, ?_⟩
        have := congrArg fp hyy
        rw [fp_add, fp_zero] at this
        rw [toE_aff hns, toE_aff hns', WeierstrassCurve.Affine.Point.add_of_Y_eq (by rw [h])
          (by rw [ecurve_negY]; linear_combination this), toE_inf]
      · rw [if_neg hyy]
        have hxx : fp x = fp x' := by rw [h]
        have hsum : fp y + fp y' ≠ 0 := fun e => hyy ((fp_eq_zero (fieldAdd_lt _ _)).1 (by rw [fp_add, e]))
        have hprod : (fp y - fp y') * (fp y + fp y') = 0 := by
          rw [hxx] at heq; linear_combination heq - heq'
        have hy2 : y = y' := fp_inj hy hy' (sub_eq_zero.1 ((mul_eq_zero.1 hprod).resolve_right hsum))
        subst h hy2
        exact pointDouble_spec hP
    · rw [if_neg h]
      have hxne : fp x ≠ fp x' := fun e => h (fp_inj hx hx' e)
      have hd : fp (fieldSub x' x) ≠ 0 := by rw [fp_sub]; exact sub_ne_zero.2 (Ne.symm hxne)
      obtain ⟨inv, hinv, hfi⟩ := fieldInv_ok hd
      rw [fp_sub] at hfi hd
      rw [hinv, toE_aff hns, toE_aff hns', WeierstrassCurve.Affine.Point.add_of_X_ne hxne]
      have hs : ecurve.slope (fp x) (fp x') (fp y) (fp y') = (fp y' - fp y) * (fp x' - fp x)⁻¹ := by
        rw [WeierstrassCurve.Affine.slope_of_X_ne hxne, ← neg_sub (fp x'), ← neg_sub (fp y'), neg_div_neg_eq, div_eq_mul_inv]
      refine ⟨_, rfl, toE_some _ (fieldSub_lt _ _) (fieldSub_lt _ _) ?_ ?_⟩
      · simp only [hs, ecurve_addX, fp_sub, fp_mul, hfi]; ring
      · simp only [hs, ecurve_addY, ecurve_addX, fp_sub, fp_mul, hfi]; ring

/-- The scan of a scalar multiplication from a valid accumulator: `2^i • acc + (k mod 2^i) • P`. -/
theorem scalarScan_spec {P : Point} (hP : P.valid = true) (k : Word) (i : Nat) {acc : Point} (ha : acc.valid = true) :
    ∃ R, scalarScan P k i acc = .ok R ∧ R.valid = true ∧ toE R = 2 ^ i • toE acc + (k.toNat % 2 ^ i) • toE P := by
  induction i generalizing acc with
  | zero => exact ⟨acc, rfl, ha, by simp [Nat.mod_one]⟩
  | succ i ih =>
    obtain ⟨D, hD, hDv, hDe⟩ := pointDouble_spec ha
    have hb := Nat.testBit_eq_decide_div_mod_eq (x := k.toNat) (i := i)
    rw [scalarScan, hD]
    by_cases hbit : k.getLsbD i
    · obtain ⟨A, hA, hAv, hAe⟩ := pointAdd_spec hDv hP
      obtain ⟨R, hR, hRv, hRe⟩ := ih hAv
      refine ⟨R, ?_, hRv, ?_⟩
      · simp only [bind, Except.bind, hbit, if_true, hA, hR]
      · have h1 : k.toNat / 2 ^ i % 2 = 1 := by
          rw [BitVec.getLsbD, hb] at hbit; simpa using hbit
        rw [hRe, hAe, hDe, Nat.mod_pow_succ, h1]
        exact scan_bit_one (toE acc) (toE P) (2 ^ i) (k.toNat % 2 ^ i)
    · obtain ⟨R, hR, hRv, hRe⟩ := ih hDv
      refine ⟨R, ?_, hRv, ?_⟩
      · simp only [bind, Except.bind, hbit]; exact hR
      · have h1 : k.toNat / 2 ^ i % 2 = 0 := by
          rw [BitVec.getLsbD, hb] at hbit
          have : ¬ k.toNat / 2 ^ i % 2 = 1 := by simpa using hbit
          omega
        rw [hRe, hDe, Nat.mod_pow_succ, h1]
        exact scan_bit_zero (toE acc) (toE P) (2 ^ i) (k.toNat % 2 ^ i)

/-- `ScalarMultiply` is `k • P`, for every scalar of 256 bits (R102). -/
theorem scalarMultiply_spec {P : Point} (hP : P.valid = true) (k : Word) :
    ∃ R, scalarMultiply P k = .ok R ∧ R.valid = true ∧ toE R = k.toNat • toE P := by
  obtain ⟨R, hR, hv, he⟩ := scalarScan_spec hP k 256 (acc := .inf) rfl
  exact ⟨R, hR, hv, by rw [he, toE_inf, nsmul_zero, zero_add, Nat.mod_eq_of_lt k.isLt]⟩

end Sys2Proof.Machine
end

