-- ==== Sys2Proof/Laws/Fast.lean ====
section
/-! SUPPORT. Scalar multiplication the kernel can evaluate: the same group law in Jacobian coordinates on natural numbers,
without inversions, equal to `scalarMultiply` on valid points. Witnesses and the order of the generator rest on it. -/

namespace Sys2Proof.Machine

/-- A curve point as `X / Z^2`, `Y / Z^3` modulo `p`. -/
inductive Jac where
  | inf
  | pt (X Y Z : Nat)
  deriving DecidableEq, Repr

/-- `a - b` modulo `p`. -/
def subP (a b : Nat) : Nat := (a + (Config.p - 1) * b) % Config.p

theorem cast_subP (a b : Nat) : (subP a b : Fp) = a - b := by
  rw [subP, ZMod.natCast_mod]
  have h : ((Config.p - 1 : ℕ) : Fp) = -1 := by
    rw [Nat.cast_sub (by decide), ZMod.natCast_self]; ring
  push_cast [h]; ring

/-- Doubling. -/
def Jac.dbl : Jac → Jac
  | .inf => .inf
  | .pt X Y Z =>
    if Y = 0 then .inf else
    force (Y * Y % Config.p) fun YY =>
    force (4 * X * YY % Config.p) fun S =>
    force (3 * X * X % Config.p) fun M =>
    force (subP (M * M) (2 * S)) fun X' =>
    force (subP (M * subP S X') (8 * YY * YY)) fun Y' =>
    force (2 * Y * Z % Config.p) fun Z' => .pt X' Y' Z'

/-- Addition of the affine point `(x, y)`. -/
def Jac.add (x y : Nat) : Jac → Jac
  | .inf => .pt x y 1
  | .pt X Y Z =>
    force (Z * Z % Config.p) fun ZZ =>
    force (subP (x * ZZ) X) fun H =>
    force (subP (y * ZZ * Z) Y) fun R =>
    if H = 0 then (if R = 0 then Jac.dbl (.pt X Y Z) else .inf) else
    force (H * H % Config.p) fun HH =>
    force (X * HH % Config.p) fun V =>
    force (subP (R * R) (HH * H + 2 * V)) fun X' =>
    force (subP (R * subP V X') (Y * (HH * H))) fun Y' =>
    force (Z * H % Config.p) fun Z' => .pt X' Y' Z'

/-- The scan of `scalarScan`. -/
def Jac.scan (x y k : Nat) : Nat → Jac → Jac
  | 0, acc => acc
  | i + 1, acc => Jac.scan x y k i (if k.testBit i then Jac.add x y (Jac.dbl acc) else Jac.dbl acc)

/-- Back to affine coordinates. -/
def Jac.toPoint : Jac → Point
  | .inf => .inf
  | .pt X Y Z =>
    force (powMod Config.p Z (Config.p - 2) 256 1) fun inv =>
    force (inv * inv % Config.p) fun inv2 =>
    .aff (BitVec.ofNat 256 (X * inv2 % Config.p)) (BitVec.ofNat 256 (Y * (inv2 * inv) % Config.p))

/-- Scalar multiplication of an affine point. -/
def fastMul (x y k : Nat) : Point := (Jac.scan x y k 256 .inf).toPoint

theorem subP_lt (a b : Nat) : subP a b < Config.p := Nat.mod_lt _ (by decide)

theorem modP_lt (a : Nat) : a % Config.p < Config.p := Nat.mod_lt _ (by decide)

theorem cast_eq_zero_p {a : Nat} (h : a < Config.p) : (a : Fp) = 0 ↔ a = 0 := by
  rw [ZMod.natCast_eq_zero_iff]
  exact ⟨fun hd => Nat.eq_zero_of_dvd_of_lt hd h, fun h => by simp [h]⟩

theorem some_eq_some {x y x' y' : Fp} (h : ecurve.Nonsingular x y) (hx : x' = x) (hy : y' = y) :
    ∃ h' : ecurve.Nonsingular x' y', WeierstrassCurve.Affine.Point.some x y h = .some x' y' h' := by
  subst hx hy; exact ⟨h, rfl⟩

variable [Fact (Nat.Prime Config.p)]

/-- What a triple stands for. -/
def Jac.Rep : Jac → ecurve.Point → Prop
  | .inf, Q => Q = 0
  | .pt X Y Z, Q => (X < Config.p ∧ Y < Config.p ∧ Z < Config.p) ∧ (Z : Fp) ≠ 0 ∧
      ∃ h : ecurve.Nonsingular ((X : Fp) / (Z : Fp) ^ 2) ((Y : Fp) / (Z : Fp) ^ 3), Q = .some _ _ h

theorem Jac.dbl_rep {J : Jac} {Q : ecurve.Point} (h : J.Rep Q) : J.dbl.Rep (Q + Q) := by
  cases J with
  | inf => simp only [Jac.Rep] at h; subst h; exact add_zero (0 : ecurve.Point)
  | pt X Y Z =>
    obtain ⟨⟨hX, hY, hZl⟩, hZ, hns, rfl⟩ := h
    rw [Jac.dbl]
    have hYn : ecurve.negY ((X : Fp) / (Z : Fp) ^ 2) ((Y : Fp) / (Z : Fp) ^ 3) = -((Y : Fp) / (Z : Fp) ^ 3) := ecurve_negY _ _
    by_cases h0 : Y = 0
    · rw [if_pos h0]
      show _ = (0 : ecurve.Point)
      refine WeierstrassCurve.Affine.Point.add_self_of_Y_eq ?_
      rw [hYn, h0]; simp
    · rw [if_neg h0]
      have hY0 : (Y : Fp) ≠ 0 := fun e => h0 ((cast_eq_zero_p hY).1 e)
      have h2 := two_ne_zero_fp
      have hne : (Y : Fp) / (Z : Fp) ^ 3 ≠ ecurve.negY ((X : Fp) / (Z : Fp) ^ 2) ((Y : Fp) / (Z : Fp) ^ 3) := by
        rw [hYn]
        intro e
        have : 2 * ((Y : Fp) / (Z : Fp) ^ 3) = 0 := by linear_combination e
        exact (mul_ne_zero h2 (div_ne_zero hY0 (pow_ne_zero 3 hZ))) this
      have hs : ecurve.slope ((X : Fp) / (Z : Fp) ^ 2) ((X : Fp) / (Z : Fp) ^ 2) ((Y : Fp) / (Z : Fp) ^ 3) ((Y : Fp) / (Z : Fp) ^ 3)
          = 3 * (X : Fp) ^ 2 / (2 * Y * Z) := by
        rw [WeierstrassCurve.Affine.slope_of_Y_ne rfl hne, hYn]
        simp only [ecurve]
        rw [show (Y : Fp) / (Z : Fp) ^ 3 - -((Y : Fp) / (Z : Fp) ^ 3) = 2 * ((Y : Fp) / (Z : Fp) ^ 3) by ring]
        field_simp; ring
      rw [WeierstrassCurve.Affine.Point.add_self_of_Y_ne hne]
      simp only [force_eq]
      refine ⟨⟨subP_lt _ _, subP_lt _ _, modP_lt _⟩, ?_, some_eq_some _ ?_ ?_⟩
      · rw [ZMod.natCast_mod]; push_cast; exact mul_ne_zero (mul_ne_zero h2 hY0) hZ
      · rw [hs, ecurve_addX]
        simp only [cast_subP, ZMod.natCast_mod, Nat.cast_mul, Nat.cast_ofNat]
        field_simp; ring
      · rw [hs, ecurve_addY, ecurve_addX]
        simp only [cast_subP, ZMod.natCast_mod, Nat.cast_mul, Nat.cast_ofNat]
        field_simp; ring

theorem Jac.add_rep {x y : Word} (hP : onCurve x y = true) {J : Jac} {Q : ecurve.Point} (h : J.Rep Q) :
    (J.add x.toNat y.toNat).Rep (Q + toE (.aff x y)) := by
  obtain ⟨hx, hy, -⟩ := (onCurve_iff x y).1 hP
  have hnsP := nonsingular_of_onCurve hP
  rw [toE_aff hnsP]
  cases J with
  | inf =>
    simp only [Jac.Rep] at h; subst h
    rw [zero_add]
    refine ⟨⟨hx, hy, by decide⟩, by simp, some_eq_some _ ?_ ?_⟩ <;> simp [fp]
  | pt X Y Z =>
    have hrep := h
    obtain ⟨⟨hX, hY, hZl⟩, hZ, hns, rfl⟩ := h
    rw [Jac.add]
    simp only [force_eq]
    set H := subP (x.toNat * (Z * Z % Config.p)) X with hH
    set R := subP (y.toNat * (Z * Z % Config.p) * Z) Y with hR
    have hHc : (H : Fp) = fp x * (Z : Fp) ^ 2 - X := by
      rw [hH, cast_subP]; push_cast [ZMod.natCast_mod]; simp only [fp]; ring
    have hRc : (R : Fp) = fp y * (Z : Fp) ^ 3 - Y := by
      rw [hR, cast_subP]; push_cast [ZMod.natCast_mod]; simp only [fp]; ring
    by_cases h0 : H = 0
    · rw [if_pos h0]
      have hxe : (X : Fp) / (Z : Fp) ^ 2 = fp x := by
        rw [h0, Nat.cast_zero] at hHc
        rw [div_eq_iff (pow_ne_zero 2 hZ)]; linear_combination hHc
      by_cases hr : R = 0
      · rw [if_pos hr]
        have hye : (Y : Fp) / (Z : Fp) ^ 3 = fp y := by
          rw [hr, Nat.cast_zero] at hRc
          rw [div_eq_iff (pow_ne_zero 3 hZ)]; linear_combination hRc
        have := Jac.dbl_rep hrep
        obtain ⟨h', he⟩ := some_eq_some hns hxe.symm hye.symm
        rw [he] at this ⊢
        exact this
      · rw [if_neg hr]
        have hyne : (Y : Fp) / (Z : Fp) ^ 3 ≠ fp y := by
          intro e
          rw [div_eq_iff (pow_ne_zero 3 hZ)] at e
          exact hr ((cast_eq_zero_p (subP_lt _ _)).1 (hRc.trans (by rw [e, sub_self])))
        show _ = (0 : ecurve.Point)
        refine WeierstrassCurve.Affine.Point.add_of_Y_eq hxe ?_
        rcases WeierstrassCurve.Affine.Y_eq_of_X_eq hns.1 hnsP.1 hxe with e | e
        · exact absurd e hyne
        · exact e
    · rw [if_neg h0]
      have hH0 : fp x * (Z : Fp) ^ 2 - X ≠ 0 := by
        rw [← hHc]; exact fun e => h0 ((cast_eq_zero_p (subP_lt _ _)).1 e)
      have hH1 : (H : Fp) ≠ 0 := hHc ▸ hH0
      have hXe : (X : Fp) = fp x * (Z : Fp) ^ 2 - H := by rw [hHc]; ring
      have hxne : (X : Fp) / (Z : Fp) ^ 2 ≠ fp x := by
        intro e
        rw [div_eq_iff (pow_ne_zero 2 hZ)] at e
        exact hH0 (by rw [e, sub_self])
      have hs : ecurve.slope ((X : Fp) / (Z : Fp) ^ 2) (fp x) ((Y : Fp) / (Z : Fp) ^ 3) (fp y)
          = (fp y * (Z : Fp) ^ 3 - Y) / (Z * H) := by
        rw [WeierstrassCurve.Affine.slope_of_X_ne hxne, ← neg_sub (fp x), ← neg_sub (fp y), neg_div_neg_eq]
        have : fp x - (X : Fp) / (Z : Fp) ^ 2 ≠ 0 := sub_ne_zero.2 (Ne.symm hxne)
        rw [div_eq_div_iff this (mul_ne_zero hZ hH1), hHc]
        field_simp
      rw [WeierstrassCurve.Affine.Point.add_of_X_ne hxne]
      refine ⟨⟨subP_lt _ _, subP_lt _ _, modP_lt _⟩, ?_, some_eq_some _ ?_ ?_⟩
      · rw [ZMod.natCast_mod]; push_cast; exact mul_ne_zero hZ hH1
      · rw [hs, ecurve_addX]
        simp only [cast_subP, ZMod.natCast_mod, Nat.cast_mul, Nat.cast_add, Nat.cast_ofNat, hRc, hXe]
        field_simp; ring
      · rw [hs, ecurve_addY, ecurve_addX]
        simp only [cast_subP, ZMod.natCast_mod, Nat.cast_mul, Nat.cast_add, Nat.cast_ofNat, hRc, hXe]
        field_simp; ring

theorem Jac.scan_rep {x y : Word} (hP : onCurve x y = true) (k i : Nat) {J : Jac} {Q : ecurve.Point} (h : J.Rep Q) :
    (Jac.scan x.toNat y.toNat k i J).Rep (2 ^ i • Q + (k % 2 ^ i) • toE (.aff x y)) := by
  induction i generalizing J Q with
  | zero =>
    rw [pow_zero, Nat.mod_one, one_nsmul, zero_nsmul, add_zero]; exact h
  | succ i ih =>
    have hb := Nat.testBit_eq_decide_div_mod_eq (x := k) (i := i)
    rw [Jac.scan, Nat.mod_pow_succ]
    by_cases hbit : k.testBit i
    · have h1 : k / 2 ^ i % 2 = 1 := by simpa [hb] using hbit
      rw [if_pos hbit, h1]
      have := ih (Jac.add_rep hP (Jac.dbl_rep h))
      rwa [scan_bit_one Q (toE (.aff x y)) (2 ^ i) (k % 2 ^ i)] at this
    · have h1 : k / 2 ^ i % 2 = 0 := by
        have : ¬ k / 2 ^ i % 2 = 1 := by simpa [hb] using hbit
        omega
      rw [if_neg hbit, h1]
      have := ih (Jac.dbl_rep h)
      rwa [scan_bit_zero Q (toE (.aff x y)) (2 ^ i) (k % 2 ^ i)] at this

theorem Jac.toPoint_rep {J : Jac} {Q : ecurve.Point} (h : J.Rep Q) : J.toPoint.valid = true ∧ toE J.toPoint = Q := by
  cases J with
  | inf => simp only [Jac.Rep] at h; subst h; exact ⟨rfl, rfl⟩
  | pt X Y Z =>
    obtain ⟨-, hZ, hns, rfl⟩ := h
    have hinv : ((powMod Config.p Z (Config.p - 2) 256 1 : ℕ) : Fp) = (Z : Fp)⁻¹ := by
      rw [cast_powMod, Nat.mod_eq_of_lt (by decide)]
      have := ZMod.pow_card_sub_one_eq_one hZ
      refine eq_inv_of_mul_eq_one_left ?_
      rw [Nat.cast_one, one_pow, one_mul, ← pow_succ]
      exact this
    simp only [Jac.toPoint, force_eq]
    refine toE_some hns ?_ ?_ ?_ ?_
    · rw [toNat_ofNat_mod modulus_p]; exact modP_lt _
    · rw [toNat_ofNat_mod modulus_p]; exact modP_lt _
    · rw [fp, toNat_ofNat_mod modulus_p]
      push_cast [ZMod.natCast_mod]
      rw [hinv]; field_simp
    · rw [fp, toNat_ofNat_mod modulus_p]
      push_cast [ZMod.natCast_mod]
      rw [hinv]; field_simp

/-- The fast scalar multiplication is `ScalarMultiply`. -/
theorem scalarMultiply_eq_fast {x y : Word} (hP : onCurve x y = true) (k : Word) :
    scalarMultiply (.aff x y) k = .ok (fastMul x.toNat y.toNat k.toNat) := by
  obtain ⟨R, hR, hv, he⟩ := scalarMultiply_spec (P := .aff x y) hP k
  have h := Jac.toPoint_rep (Jac.scan_rep hP k.toNat 256 (J := .inf) (Q := 0) rfl)
  rw [nsmul_zero, zero_add, Nat.mod_eq_of_lt k.isLt] at h
  rw [hR, toE_inj hv h.1 (he.trans h.2.symm)]; rfl

end Sys2Proof.Machine
end

