-- ==== Sys2Proof/Laws/Order.lean ====
section
/-! SUPPORT. The generator has order `n` (R16: "n is the prime order of the group generated by G"): `n • G` is the identity, by
evaluation, and no smaller positive multiple is, because `n` is prime. -/

namespace Sys2Proof.Machine

theorem generator_times_n : fastMul Config.gx.toNat Config.gy.toNat Config.n = .inf := by decide +kernel

theorem toE_generator_ne_zero : toE generator ≠ 0 := fun h => by
  have := (toE_eq_zero generator_valid).1 h
  cases this

variable [Fact (Nat.Prime Config.p)]

theorem n_smul_generator : Config.n • toE generator = 0 := by
  have hn : (BitVec.ofNat 256 Config.n).toNat = Config.n := by decide
  obtain ⟨R, hR, hv, he⟩ := scalarMultiply_spec generator_valid (BitVec.ofNat 256 Config.n)
  rw [generator, scalarMultiply_eq_fast generator_valid, hn, generator_times_n] at hR
  cases hR
  rw [hn] at he
  exact he.symm

theorem addOrderOf_generator : addOrderOf (toE generator) = Config.n := by
  have := fact_prime_n
  exact addOrderOf_eq_prime n_smul_generator toE_generator_ne_zero

/-- `k • G` is the identity exactly for the multiples of `n`. -/
theorem smul_generator_eq_zero (k : Nat) : k • toE generator = 0 ↔ k % Config.n = 0 := by
  rw [← Nat.dvd_iff_mod_eq_zero, ← addOrderOf_generator]
  exact (addOrderOf_dvd_iff_nsmul_eq_zero).symm

/-- Multiples of `G` depend on the scalar modulo `n` only. -/
theorem smul_generator_mod (k : Nat) : (k % Config.n) • toE generator = k • toE generator := by
  rw [← addOrderOf_generator]; exact mod_addOrderOf_nsmul _ _

theorem smul_generator_congr {j k : Nat} (h : j % Config.n = k % Config.n) : j • toE generator = k • toE generator := by
  rw [← smul_generator_mod j, h, smul_generator_mod]

/-- `ScalarMultiply(G, k)` is the identity exactly for the multiples of `n` (R102). -/
theorem scalarMultiply_generator_inf (k : Word) : scalarMultiply generator k = .ok .inf ↔ k.toNat % Config.n = 0 := by
  obtain ⟨R, hR, hv, he⟩ := scalarMultiply_spec generator_valid k
  rw [← smul_generator_eq_zero, ← he, hR, toE_eq_zero hv]
  exact ⟨fun h => by injection h, fun h => by rw [h]⟩

end Sys2Proof.Machine
end

