-- ==== Sys2Proof/Laws/Cardinality.lean ====
section
/-! SUPPORT. The group of the curve has `n` elements (R102: "the group has prime order `n`, cofactor 1"): its order is a multiple
of `n`, at most `2p + 1`, and odd. So `n` times any point is the identity. -/

namespace Sys2Proof.Machine

theorem minus_seven_not_cube : powMod Config.p (Config.p - 7) ((Config.p - 1) / 3) 256 1 ≠ 1 := by decide +kernel

variable [Fact (Nat.Prime Config.p)]

/-- No point of the curve has second coordinate 0, because -7 is no cube modulo `p`. -/
theorem ne_zero_of_equation {x y : Fp} (h : y ^ 2 = x ^ 3 + 7) : y ≠ 0 := by
  rintro rfl
  have h7 : ((Config.p - 7 : ℕ) : Fp) = -7 := by
    rw [Nat.cast_sub (by decide), ZMod.natCast_self]; simp
  have hx : x ^ 3 = ((Config.p - 7 : ℕ) : Fp) := by rw [h7]; linear_combination -h
  have hx0 : x ≠ 0 := by
    rintro rfl
    have : ((7 : ℕ) : Fp) = 0 := by
      have h' : (0 : Fp) = 7 := by linear_combination h
      exact_mod_cast h'.symm
    rw [ZMod.natCast_eq_zero_iff] at this
    revert this; decide
  have h1 := ZMod.pow_card_sub_one_eq_one hx0
  have he : Config.p - 1 = 3 * ((Config.p - 1) / 3) := by decide
  rw [he, pow_mul, hx] at h1
  have hp : ((powMod Config.p (Config.p - 7) ((Config.p - 1) / 3) 256 1 : ℕ) : Fp) = ((1 : ℕ) : Fp) := by
    rw [cast_powMod, Nat.mod_eq_of_lt (by decide)]
    simpa using h1
  rw [ZMod.natCast_eq_natCast_iff] at hp
  exact minus_seven_not_cube (by
    have hlt : powMod Config.p (Config.p - 7) ((Config.p - 1) / 3) 256 1 < Config.p := by decide +kernel
    rwa [Nat.ModEq, Nat.mod_eq_of_lt hlt, Nat.mod_eq_of_lt (by decide)] at hp)

omit [Fact (Nat.Prime Config.p)] in
theorem seven_not_square : powMod Config.p 7 ((Config.p - 1) / 2) 256 1 ≠ 1 := by decide +kernel

/-- No point of the curve has first coordinate 0, because 7 is no square modulo `p`. -/
theorem x_ne_zero_of_equation {x y : Fp} (h : y ^ 2 = x ^ 3 + 7) : x ≠ 0 := by
  rintro rfl
  have hy : y ^ 2 = ((7 : ℕ) : Fp) := by push_cast; linear_combination h
  have hy0 : y ≠ 0 := ne_zero_of_equation h
  have h1 := ZMod.pow_card_sub_one_eq_one hy0
  have he : Config.p - 1 = 2 * ((Config.p - 1) / 2) := by decide
  rw [he, pow_mul, hy] at h1
  have hp : ((powMod Config.p 7 ((Config.p - 1) / 2) 256 1 : ℕ) : Fp) = ((1 : ℕ) : Fp) := by
    rw [cast_powMod, Nat.mod_eq_of_lt (by decide)]
    simpa using h1
  rw [ZMod.natCast_eq_natCast_iff] at hp
  exact seven_not_square (by
    have hlt : powMod Config.p 7 ((Config.p - 1) / 2) 256 1 < Config.p := by decide +kernel
    rwa [Nat.ModEq, Nat.mod_eq_of_lt hlt, Nat.mod_eq_of_lt (by decide)] at hp)

/-- A chosen second coordinate for a first coordinate. -/
noncomputable def rootOf (x : Fp) : Fp :=
  haveI := Classical.dec (∃ y : Fp, y ^ 2 = x ^ 3 + 7)
  if h : ∃ y : Fp, y ^ 2 = x ^ 3 + 7 then h.choose else 0

theorem rootOf_spec {x y : Fp} (h : y ^ 2 = x ^ 3 + 7) : y = rootOf x ∨ y = -rootOf x := by
  have hex : ∃ y : Fp, y ^ 2 = x ^ 3 + 7 := ⟨y, h⟩
  have hr : rootOf x ^ 2 = x ^ 3 + 7 := by
    rw [rootOf, dif_pos hex]; exact hex.choose_spec
  exact sq_eq_sq_iff_eq_or_eq_neg.1 (h.trans hr.symm)

/-- A point by its first coordinate and one bit. -/
noncomputable def pointCode : ecurve.Point → Option (Fp × Bool)
  | .zero => none
  | .some x y _ => some (x, decide (y = rootOf x))

theorem pointCode_injective : Function.Injective pointCode := by
  intro P Q h
  cases P with
  | zero => cases Q with
    | zero => rfl
    | some => cases h
  | some x y hns =>
    cases Q with
    | zero => cases h
    | some x' y' hns' =>
      simp only [pointCode, Option.some.injEq, Prod.mk.injEq, decide_eq_decide] at h
      obtain ⟨rfl, hd⟩ := h
      have e := rootOf_spec ((ecurve_equation _ _).1 hns.1)
      have e' := rootOf_spec ((ecurve_equation _ _).1 hns'.1)
      have : y = y' := by
        by_cases hy : y = rootOf x
        · rw [hy, hd.1 hy]
        · rw [e.resolve_left hy, e'.resolve_left (fun h' => hy (hd.2 h'))]
      subst this; rfl

theorem finite_points : Finite ecurve.Point := Finite.of_injective _ pointCode_injective

theorem card_points_le : Nat.card ecurve.Point ≤ 2 * Config.p + 1 := by
  refine (Nat.card_le_card_of_injective _ pointCode_injective).trans ?_
  rw [Finite.card_option, Nat.card_prod, Nat.card_zmod]
  simp [mul_comm]

/-- The group of the curve has `n` elements (R102: cofactor 1). -/
theorem card_points : Nat.card ecurve.Point = Config.n := by
  have := finite_points
  have hd : Config.n ∣ Nat.card ecurve.Point := by
    rw [← addOrderOf_generator]; exact addOrderOf_dvd_natCard _
  obtain ⟨c, hc⟩ := hd
  have hle := card_points_le
  have hpos : 0 < Nat.card ecurve.Point := Nat.card_pos
  have hc3 : c < 3 := by
    by_contra h
    have : Config.n * 3 ≤ Config.n * c := Nat.mul_le_mul_left _ (by omega)
    rw [← hc] at this
    have h3 : 2 * Config.p + 1 < Config.n * 3 := by decide
    omega
  interval_cases c
  · omega
  · simpa using hc
  · exfalso
    have h2 : 2 ∣ Nat.card ecurve.Point := ⟨Config.n, by rw [hc, mul_comm]⟩
    have : Fact (Nat.Prime 2) := ⟨Nat.prime_two⟩
    obtain ⟨Q, hQ⟩ := exists_prime_addOrderOf_dvd_card' 2 h2
    have hQ2 : 2 • Q = 0 := by rw [← hQ]; exact addOrderOf_nsmul_eq_zero Q
    cases Q with
    | zero =>
      have : addOrderOf (0 : ecurve.Point) = 2 := hQ
      rw [addOrderOf_zero] at this; omega
    | some x y hns =>
      rw [two_nsmul, ← eq_neg_iff_add_eq_zero, WeierstrassCurve.Affine.Point.neg_some] at hQ2
      injection hQ2 with _ hy
      rw [ecurve_negY] at hy
      have h0 : 2 * y = 0 := by linear_combination hy
      exact ne_zero_of_equation ((ecurve_equation _ _).1 hns.1) ((mul_eq_zero.1 h0).resolve_left two_ne_zero_fp)

/-- Every point of the curve has order `n` or is the identity (R102). -/
theorem n_smul (Q : ecurve.Point) : Config.n • Q = 0 := by
  have := finite_points
  rw [← card_points]; exact card_nsmul_eq_zero'

theorem smul_mod (k : Nat) (Q : ecurve.Point) : (k % Config.n) • Q = k • Q := by
  have h : k • Q = (k % Config.n + Config.n * (k / Config.n)) • Q := by rw [Nat.mod_add_div]
  rw [h, add_nsmul, mul_nsmul, n_smul, nsmul_zero, add_zero]

end Sys2Proof.Machine
end

