-- ==== Sys2Proof/Laws/Decode.lean ====
section
/-! SUPPORT. The fields of a word written in each format, and the row check of the decoder (R51 to R53, R55). -/

namespace Sys2Proof

/-! ## Format R -/

@[simp] theorem opOf_formatR (op : Byte) (rd rs1 rs2 : BitVec 4) (imm8 : Byte) :
    opOf (formatR op rd rs1 rs2 imm8) = op := by
  apply BitVec.eq_of_getLsbD_eq
  intro i hi
  simp only [opOf, formatR, BitVec.getLsbD_extractLsb', BitVec.getLsbD_append]
  interval_cases i <;> simp

@[simp] theorem xHi_formatR (op : Byte) (rd rs1 rs2 : BitVec 4) (imm8 : Byte) :
    xHi (formatR op rd rs1 rs2 imm8) = rd.toFin := by
  unfold xHi; congr 1
  apply BitVec.eq_of_getLsbD_eq
  intro i hi
  simp only [formatR, BitVec.getLsbD_extractLsb', BitVec.getLsbD_append]
  interval_cases i <;> simp

@[simp] theorem xMid_formatR (op : Byte) (rd rs1 rs2 : BitVec 4) (imm8 : Byte) :
    xMid (formatR op rd rs1 rs2 imm8) = rs1.toFin := by
  unfold xMid; congr 1
  apply BitVec.eq_of_getLsbD_eq
  intro i hi
  simp only [formatR, BitVec.getLsbD_extractLsb', BitVec.getLsbD_append]
  interval_cases i <;> simp

@[simp] theorem xLo_formatR (op : Byte) (rd rs1 rs2 : BitVec 4) (imm8 : Byte) :
    xLo (formatR op rd rs1 rs2 imm8) = rs2.toFin := by
  unfold xLo; congr 1
  apply BitVec.eq_of_getLsbD_eq
  intro i hi
  simp only [formatR, BitVec.getLsbD_extractLsb', BitVec.getLsbD_append]
  interval_cases i <;> simp

@[simp] theorem byteLow_formatR (op : Byte) (rd rs1 rs2 : BitVec 4) (imm8 : Byte) :
    byteLow (formatR op rd rs1 rs2 imm8) = imm8 := by
  apply BitVec.eq_of_getLsbD_eq
  intro i hi
  simp only [byteLow, formatR, BitVec.getLsbD_extractLsb', BitVec.getLsbD_append]
  interval_cases i <;> simp

@[simp] theorem pHi_formatR (op : Byte) (rd rs1 rs2 : BitVec 4) (imm8 : Byte) :
    pHi (formatR op rd rs1 rs2 imm8) = (rd.extractLsb' 0 2).toFin := by
  unfold pHi; congr 1
  apply BitVec.eq_of_getLsbD_eq
  intro i hi
  simp only [formatR, BitVec.getLsbD_extractLsb', BitVec.getLsbD_append]
  interval_cases i <;> simp

@[simp] theorem pMid_formatR (op : Byte) (rd rs1 rs2 : BitVec 4) (imm8 : Byte) :
    pMid (formatR op rd rs1 rs2 imm8) = (rs1.extractLsb' 0 2).toFin := by
  unfold pMid; congr 1
  apply BitVec.eq_of_getLsbD_eq
  intro i hi
  simp only [formatR, BitVec.getLsbD_extractLsb', BitVec.getLsbD_append]
  interval_cases i <;> simp

@[simp] theorem pLo_formatR (op : Byte) (rd rs1 rs2 : BitVec 4) (imm8 : Byte) :
    pLo (formatR op rd rs1 rs2 imm8) = (rs2.extractLsb' 0 2).toFin := by
  unfold pLo; congr 1
  apply BitVec.eq_of_getLsbD_eq
  intro i hi
  simp only [formatR, BitVec.getLsbD_extractLsb', BitVec.getLsbD_append]
  interval_cases i <;> simp

/-! ## Format B -/

@[simp] theorem opOf_formatB (op src len dst : Byte) :
    opOf (formatB op src len dst) = op := by
  apply BitVec.eq_of_getLsbD_eq
  intro i hi
  simp only [opOf, formatB, BitVec.getLsbD_extractLsb', BitVec.getLsbD_append]
  interval_cases i <;> simp

@[simp] theorem byteSrc_formatB (op src len dst : Byte) :
    byteSrc (formatB op src len dst) = src := by
  apply BitVec.eq_of_getLsbD_eq
  intro i hi
  simp only [byteSrc, formatB, BitVec.getLsbD_extractLsb', BitVec.getLsbD_append]
  interval_cases i <;> simp

@[simp] theorem byteMid_formatB (op src len dst : Byte) :
    byteMid (formatB op src len dst) = len := by
  apply BitVec.eq_of_getLsbD_eq
  intro i hi
  simp only [byteMid, formatB, BitVec.getLsbD_extractLsb', BitVec.getLsbD_append]
  interval_cases i <;> simp

@[simp] theorem byteLow_formatB (op src len dst : Byte) :
    byteLow (formatB op src len dst) = dst := by
  apply BitVec.eq_of_getLsbD_eq
  intro i hi
  simp only [byteLow, formatB, BitVec.getLsbD_extractLsb', BitVec.getLsbD_append]
  interval_cases i <;> simp

/-! ## Format S -/

@[simp] theorem opOf_formatS (op : Byte) (rs1 rs2 : BitVec 4) (off imm8 : Byte) :
    opOf (formatS op rs1 rs2 off imm8) = op := by
  apply BitVec.eq_of_getLsbD_eq
  intro i hi
  simp only [opOf, formatS, BitVec.getLsbD_extractLsb', BitVec.getLsbD_append]
  interval_cases i <;> simp

@[simp] theorem xHi_formatS (op : Byte) (rs1 rs2 : BitVec 4) (off imm8 : Byte) :
    xHi (formatS op rs1 rs2 off imm8) = rs1.toFin := by
  unfold xHi; congr 1
  apply BitVec.eq_of_getLsbD_eq
  intro i hi
  simp only [formatS, BitVec.getLsbD_extractLsb', BitVec.getLsbD_append]
  interval_cases i <;> simp

@[simp] theorem xMid_formatS (op : Byte) (rs1 rs2 : BitVec 4) (off imm8 : Byte) :
    xMid (formatS op rs1 rs2 off imm8) = rs2.toFin := by
  unfold xMid; congr 1
  apply BitVec.eq_of_getLsbD_eq
  intro i hi
  simp only [formatS, BitVec.getLsbD_extractLsb', BitVec.getLsbD_append]
  interval_cases i <;> simp

@[simp] theorem byteMid_formatS (op : Byte) (rs1 rs2 : BitVec 4) (off imm8 : Byte) :
    byteMid (formatS op rs1 rs2 off imm8) = off := by
  apply BitVec.eq_of_getLsbD_eq
  intro i hi
  simp only [byteMid, formatS, BitVec.getLsbD_extractLsb', BitVec.getLsbD_append]
  interval_cases i <;> simp

@[simp] theorem byteLow_formatS (op : Byte) (rs1 rs2 : BitVec 4) (off imm8 : Byte) :
    byteLow (formatS op rs1 rs2 off imm8) = imm8 := by
  apply BitVec.eq_of_getLsbD_eq
  intro i hi
  simp only [byteLow, formatS, BitVec.getLsbD_extractLsb', BitVec.getLsbD_append]
  interval_cases i <;> simp

theorem getLsbD_formatS (op : Byte) (rs1 rs2 : BitVec 4) (off imm8 : Byte) {i : Nat} (h : i < 8) :
    (formatS op rs1 rs2 off imm8).getLsbD i = imm8.getLsbD i := by
  simp only [formatS, BitVec.getLsbD_append]
  interval_cases i <;> simp

/-! ## A word from its fields -/

theorem eq_formatR {w : Word32} (hz : w.extractLsb' 8 4 = 0) :
    formatR (opOf w) (w.extractLsb' 20 4) (w.extractLsb' 16 4) (w.extractLsb' 12 4) (byteLow w) = w := by
  apply BitVec.eq_of_getLsbD_eq
  intro i hi
  have h := fun k => congrArg (fun v => BitVec.getLsbD v k) hz
  simp only [BitVec.getLsbD_extractLsb'] at h
  have h0 := h 0
  have h1 := h 1
  have h2 := h 2
  have h3 := h 3
  simp at h0 h1 h2 h3
  simp only [formatR, opOf, byteLow, BitVec.getLsbD_extractLsb', BitVec.getLsbD_append]
  interval_cases i <;> simp [h0, h1, h2, h3]

theorem eq_formatB (w : Word32) : formatB (opOf w) (byteSrc w) (byteMid w) (byteLow w) = w := by
  apply BitVec.eq_of_getLsbD_eq
  intro i hi
  simp only [formatB, opOf, byteSrc, byteMid, byteLow, BitVec.getLsbD_extractLsb', BitVec.getLsbD_append]
  interval_cases i <;> simp

theorem eq_formatS (w : Word32) :
    formatS (opOf w) (w.extractLsb' 20 4) (w.extractLsb' 16 4) (byteMid w) (byteLow w) = w := by
  apply BitVec.eq_of_getLsbD_eq
  intro i hi
  simp only [formatS, opOf, byteMid, byteLow, BitVec.getLsbD_extractLsb', BitVec.getLsbD_append]
  interval_cases i <;> simp

/-! ## Register fields -/

@[simp] theorem toFin_xField (r : XReg) : (xField r).toFin = r := rfl

@[simp] theorem toFin_pField (r : PReg) : ((pField r).extractLsb' 0 2).toFin = r := by revert r; decide

@[simp] theorem ofNat_toNat_pField (r : PReg) : Fin.ofNat 4 (pField r).toNat = r := by revert r; decide

theorem pField_pHi {w : Word32} (h : w.extractLsb' 22 2 = 0) : pField (pHi w) = w.extractLsb' 20 4 := by
  have e : w.extractLsb' 20 4 = w.extractLsb' 22 2 ++ w.extractLsb' 20 2 := by
    apply BitVec.eq_of_getLsbD_eq
    intro i hi
    simp only [BitVec.getLsbD_extractLsb', BitVec.getLsbD_append]
    interval_cases i <;> simp
  rw [e, h]; rfl

theorem pField_pMid {w : Word32} (h : w.extractLsb' 18 2 = 0) : pField (pMid w) = w.extractLsb' 16 4 := by
  have e : w.extractLsb' 16 4 = w.extractLsb' 18 2 ++ w.extractLsb' 16 2 := by
    apply BitVec.eq_of_getLsbD_eq
    intro i hi
    simp only [BitVec.getLsbD_extractLsb', BitVec.getLsbD_append]
    interval_cases i <;> simp
  rw [e, h]; rfl

theorem pField_pLo {w : Word32} (h : w.extractLsb' 14 2 = 0) : pField (pLo w) = w.extractLsb' 12 4 := by
  have e : w.extractLsb' 12 4 = w.extractLsb' 14 2 ++ w.extractLsb' 12 2 := by
    apply BitVec.eq_of_getLsbD_eq
    intro i hi
    simp only [BitVec.getLsbD_extractLsb', BitVec.getLsbD_append]
    interval_cases i <;> simp
  rw [e, h]; rfl

theorem xField_xHi (w : Word32) : xField (xHi w) = w.extractLsb' 20 4 := rfl
theorem xField_xMid (w : Word32) : xField (xMid w) = w.extractLsb' 16 4 := rfl
theorem xField_xLo (w : Word32) : xField (xLo w) = w.extractLsb' 12 4 := rfl

@[simp] theorem xField_toFin (v : BitVec 4) : xField v.toFin = v := rfl

@[simp] theorem getLsbD_keypairFlags_zero (a b : Bool) : (keypairFlags a b).getLsbD 0 = a := by cases a <;> cases b <;> rfl

@[simp] theorem getLsbD_keypairFlags_one (a b : Bool) : (keypairFlags a b).getLsbD 1 = b := by cases a <;> cases b <;> rfl

/-! ## The row check -/

theorem row_ok {w mask : Word32} {i j : Instr} (h : row w mask i = .ok j) : i = j ∧ w &&& (mask &&& 0x00FFFFFF) = 0 := by
  unfold row at h
  split at h
  · next hm => exact ⟨by injection h, hm⟩
  · cases h

/-- A field all of whose bits a mask covers is 0 when the masked word is. -/
theorem field_zero {w mask : Word32} (h : w &&& mask = 0) (lo len : Nat)
    (hm : mask.extractLsb' lo len = BitVec.allOnes len) : w.extractLsb' lo len = 0 := by
  have := congrArg (BitVec.extractLsb' lo len) h
  rw [BitVec.extractLsb'_and, hm, BitVec.and_allOnes] at this
  rw [this]
  apply BitVec.eq_of_getLsbD_eq
  intro i hi
  simp

theorem row_of_mask {w mask : Word32} (i : Instr) (h : w &&& (mask &&& 0x00FFFFFF) = 0) : row w mask i = .ok i := if_pos h

end Sys2Proof
end

