-- ==== Sys2Proof/Laws/PerInstr.lean ====
section
/-! SUPPORT. Facts made of every command as syntax, one lemma per constructor. Family `RowMatch`: the word of a command matches
the command's row of the opcode table, and the row is one of the table (R55). -/

namespace Sys2Proof.Laws.RowMatch

/-- The word of the command matches its row of the opcode table. -/
def Statement (i : Instr) : Prop := i.tableRow ∈ opcodeTable ∧ encode i &&& i.tableRow.mask = i.tableRow.pattern

theorem nop : Statement .nop := by unfold Statement; decide

theorem li (rd : XReg) (imm8 : Byte) : Statement (.li rd imm8) := by
  refine ⟨show (⟨0x01000000, 0xFF0FFF00⟩ : OpcodeRow) ∈ opcodeTable by decide, ?_⟩
  apply BitVec.eq_of_getLsbD_eq
  intro i hi
  simp only [encode, Instr.tableRow, formatR, BitVec.getLsbD_and, BitVec.getLsbD_append]
  interval_cases i <;> simp

theorem mov (rd rs1 : XReg) : Statement (.mov rd rs1) := by
  refine ⟨show (⟨0x02000000, 0xFF00FFFF⟩ : OpcodeRow) ∈ opcodeTable by decide, ?_⟩
  apply BitVec.eq_of_getLsbD_eq
  intro i hi
  simp only [encode, Instr.tableRow, formatR, BitVec.getLsbD_and, BitVec.getLsbD_append]
  interval_cases i <;> simp

theorem ldw (rd : XReg) (off : Byte) : Statement (.ldw rd off) := by
  refine ⟨show (⟨0x03000000, 0xFF0FFF00⟩ : OpcodeRow) ∈ opcodeTable by decide, ?_⟩
  apply BitVec.eq_of_getLsbD_eq
  intro i hi
  simp only [encode, Instr.tableRow, formatR, BitVec.getLsbD_and, BitVec.getLsbD_append]
  interval_cases i <;> simp

theorem stw (rs1 : XReg) (off : Byte) : Statement (.stw rs1 off) := by
  refine ⟨show (⟨0x04000000, 0xFFF0FF00⟩ : OpcodeRow) ∈ opcodeTable by decide, ?_⟩
  apply BitVec.eq_of_getLsbD_eq
  intro i hi
  simp only [encode, Instr.tableRow, formatR, BitVec.getLsbD_and, BitVec.getLsbD_append]
  interval_cases i <;> simp

theorem fadd (rd rs1 rs2 : XReg) : Statement (.fadd rd rs1 rs2) := by
  refine ⟨show (⟨0x10000000, 0xFF000FFF⟩ : OpcodeRow) ∈ opcodeTable by decide, ?_⟩
  apply BitVec.eq_of_getLsbD_eq
  intro i hi
  simp only [encode, Instr.tableRow, formatR, BitVec.getLsbD_and, BitVec.getLsbD_append]
  interval_cases i <;> simp

theorem fsub (rd rs1 rs2 : XReg) : Statement (.fsub rd rs1 rs2) := by
  refine ⟨show (⟨0x11000000, 0xFF000FFF⟩ : OpcodeRow) ∈ opcodeTable by decide, ?_⟩
  apply BitVec.eq_of_getLsbD_eq
  intro i hi
  simp only [encode, Instr.tableRow, formatR, BitVec.getLsbD_and, BitVec.getLsbD_append]
  interval_cases i <;> simp

theorem fmul (rd rs1 rs2 : XReg) : Statement (.fmul rd rs1 rs2) := by
  refine ⟨show (⟨0x12000000, 0xFF000FFF⟩ : OpcodeRow) ∈ opcodeTable by decide, ?_⟩
  apply BitVec.eq_of_getLsbD_eq
  intro i hi
  simp only [encode, Instr.tableRow, formatR, BitVec.getLsbD_and, BitVec.getLsbD_append]
  interval_cases i <;> simp

theorem finv (rd rs1 : XReg) : Statement (.finv rd rs1) := by
  refine ⟨show (⟨0x13000000, 0xFF00FFFF⟩ : OpcodeRow) ∈ opcodeTable by decide, ?_⟩
  apply BitVec.eq_of_getLsbD_eq
  intro i hi
  simp only [encode, Instr.tableRow, formatR, BitVec.getLsbD_and, BitVec.getLsbD_append]
  interval_cases i <;> simp

theorem fred (rd rs1 rs2 : XReg) : Statement (.fred rd rs1 rs2) := by
  refine ⟨show (⟨0x14000000, 0xFF000FFF⟩ : OpcodeRow) ∈ opcodeTable by decide, ?_⟩
  apply BitVec.eq_of_getLsbD_eq
  intro i hi
  simp only [encode, Instr.tableRow, formatR, BitVec.getLsbD_and, BitVec.getLsbD_append]
  interval_cases i <;> simp

theorem sadd (rd rs1 rs2 : XReg) : Statement (.sadd rd rs1 rs2) := by
  refine ⟨show (⟨0x18000000, 0xFF000FFF⟩ : OpcodeRow) ∈ opcodeTable by decide, ?_⟩
  apply BitVec.eq_of_getLsbD_eq
  intro i hi
  simp only [encode, Instr.tableRow, formatR, BitVec.getLsbD_and, BitVec.getLsbD_append]
  interval_cases i <;> simp

theorem ssub (rd rs1 rs2 : XReg) : Statement (.ssub rd rs1 rs2) := by
  refine ⟨show (⟨0x19000000, 0xFF000FFF⟩ : OpcodeRow) ∈ opcodeTable by decide, ?_⟩
  apply BitVec.eq_of_getLsbD_eq
  intro i hi
  simp only [encode, Instr.tableRow, formatR, BitVec.getLsbD_and, BitVec.getLsbD_append]
  interval_cases i <;> simp

theorem smul (rd rs1 rs2 : XReg) : Statement (.smul rd rs1 rs2) := by
  refine ⟨show (⟨0x1A000000, 0xFF000FFF⟩ : OpcodeRow) ∈ opcodeTable by decide, ?_⟩
  apply BitVec.eq_of_getLsbD_eq
  intro i hi
  simp only [encode, Instr.tableRow, formatR, BitVec.getLsbD_and, BitVec.getLsbD_append]
  interval_cases i <;> simp

theorem sinv (rd rs1 : XReg) : Statement (.sinv rd rs1) := by
  refine ⟨show (⟨0x1B000000, 0xFF00FFFF⟩ : OpcodeRow) ∈ opcodeTable by decide, ?_⟩
  apply BitVec.eq_of_getLsbD_eq
  intro i hi
  simp only [encode, Instr.tableRow, formatR, BitVec.getLsbD_and, BitVec.getLsbD_append]
  interval_cases i <;> simp

theorem sred (rd rs1 rs2 : XReg) : Statement (.sred rd rs1 rs2) := by
  refine ⟨show (⟨0x1C000000, 0xFF000FFF⟩ : OpcodeRow) ∈ opcodeTable by decide, ?_⟩
  apply BitVec.eq_of_getLsbD_eq
  intro i hi
  simp only [encode, Instr.tableRow, formatR, BitVec.getLsbD_and, BitVec.getLsbD_append]
  interval_cases i <;> simp

theorem pinf (pd : PReg) : Statement (.pinf pd) := by
  refine ⟨show (⟨0x20000000, 0xFFCFFFFF⟩ : OpcodeRow) ∈ opcodeTable by decide, ?_⟩
  apply BitVec.eq_of_getLsbD_eq
  intro i hi
  simp only [encode, Instr.tableRow, formatR, pField, BitVec.getLsbD_and, BitVec.getLsbD_append]
  interval_cases i <;> simp

theorem pgen (pd : PReg) : Statement (.pgen pd) := by
  refine ⟨show (⟨0x21000000, 0xFFCFFFFF⟩ : OpcodeRow) ∈ opcodeTable by decide, ?_⟩
  apply BitVec.eq_of_getLsbD_eq
  intro i hi
  simp only [encode, Instr.tableRow, formatR, pField, BitVec.getLsbD_and, BitVec.getLsbD_append]
  interval_cases i <;> simp

theorem pset (pd : PReg) (rs1 rs2 : XReg) : Statement (.pset pd rs1 rs2) := by
  refine ⟨show (⟨0x22000000, 0xFFC00FFF⟩ : OpcodeRow) ∈ opcodeTable by decide, ?_⟩
  apply BitVec.eq_of_getLsbD_eq
  intro i hi
  simp only [encode, Instr.tableRow, formatR, pField, BitVec.getLsbD_and, BitVec.getLsbD_append]
  interval_cases i <;> simp

theorem pmov (pd ps1 : PReg) : Statement (.pmov pd ps1) := by
  refine ⟨show (⟨0x23000000, 0xFFCCFFFF⟩ : OpcodeRow) ∈ opcodeTable by decide, ?_⟩
  apply BitVec.eq_of_getLsbD_eq
  intro i hi
  simp only [encode, Instr.tableRow, formatR, pField, BitVec.getLsbD_and, BitVec.getLsbD_append]
  interval_cases i <;> simp

theorem pgetx (rd : XReg) (ps1 : PReg) : Statement (.pgetx rd ps1) := by
  refine ⟨show (⟨0x24000000, 0xFF0CFFFF⟩ : OpcodeRow) ∈ opcodeTable by decide, ?_⟩
  apply BitVec.eq_of_getLsbD_eq
  intro i hi
  simp only [encode, Instr.tableRow, formatR, pField, BitVec.getLsbD_and, BitVec.getLsbD_append]
  interval_cases i <;> simp

theorem pgety (rd : XReg) (ps1 : PReg) : Statement (.pgety rd ps1) := by
  refine ⟨show (⟨0x25000000, 0xFF0CFFFF⟩ : OpcodeRow) ∈ opcodeTable by decide, ?_⟩
  apply BitVec.eq_of_getLsbD_eq
  intro i hi
  simp only [encode, Instr.tableRow, formatR, pField, BitVec.getLsbD_and, BitVec.getLsbD_append]
  interval_cases i <;> simp

theorem padd (pd ps1 ps2 : PReg) : Statement (.padd pd ps1 ps2) := by
  refine ⟨show (⟨0x28000000, 0xFFCCCFFF⟩ : OpcodeRow) ∈ opcodeTable by decide, ?_⟩
  apply BitVec.eq_of_getLsbD_eq
  intro i hi
  simp only [encode, Instr.tableRow, formatR, pField, BitVec.getLsbD_and, BitVec.getLsbD_append]
  interval_cases i <;> simp

theorem pdbl (pd ps1 : PReg) : Statement (.pdbl pd ps1) := by
  refine ⟨show (⟨0x29000000, 0xFFCCFFFF⟩ : OpcodeRow) ∈ opcodeTable by decide, ?_⟩
  apply BitVec.eq_of_getLsbD_eq
  intro i hi
  simp only [encode, Instr.tableRow, formatR, pField, BitVec.getLsbD_and, BitVec.getLsbD_append]
  interval_cases i <;> simp

theorem pmul (pd ps1 : PReg) (rs2 : XReg) : Statement (.pmul pd ps1 rs2) := by
  refine ⟨show (⟨0x2A000000, 0xFFCC0FFF⟩ : OpcodeRow) ∈ opcodeTable by decide, ?_⟩
  apply BitVec.eq_of_getLsbD_eq
  intro i hi
  simp only [encode, Instr.tableRow, formatR, pField, BitVec.getLsbD_and, BitVec.getLsbD_append]
  interval_cases i <;> simp

theorem sha256 (dst src len : Byte) : Statement (.sha256 dst src len) := by
  refine ⟨show (⟨0x30000000, 0xFF000000⟩ : OpcodeRow) ∈ opcodeTable by decide, ?_⟩
  apply BitVec.eq_of_getLsbD_eq
  intro i hi
  simp only [encode, Instr.tableRow, formatB, BitVec.getLsbD_and, BitVec.getLsbD_append]
  interval_cases i <;> simp

theorem sha256d (dst src len : Byte) : Statement (.sha256d dst src len) := by
  refine ⟨show (⟨0x31000000, 0xFF000000⟩ : OpcodeRow) ∈ opcodeTable by decide, ?_⟩
  apply BitVec.eq_of_getLsbD_eq
  intro i hi
  simp only [encode, Instr.tableRow, formatB, BitVec.getLsbD_and, BitVec.getLsbD_append]
  interval_cases i <;> simp

theorem rmd160 (dst src len : Byte) : Statement (.rmd160 dst src len) := by
  refine ⟨show (⟨0x32000000, 0xFF000000⟩ : OpcodeRow) ∈ opcodeTable by decide, ?_⟩
  apply BitVec.eq_of_getLsbD_eq
  intro i hi
  simp only [encode, Instr.tableRow, formatB, BitVec.getLsbD_and, BitVec.getLsbD_append]
  interval_cases i <;> simp

theorem hash160 (dst src len : Byte) : Statement (.hash160 dst src len) := by
  refine ⟨show (⟨0x33000000, 0xFF000000⟩ : OpcodeRow) ∈ opcodeTable by decide, ?_⟩
  apply BitVec.eq_of_getLsbD_eq
  intro i hi
  simp only [encode, Instr.tableRow, formatB, BitVec.getLsbD_and, BitVec.getLsbD_append]
  interval_cases i <;> simp

theorem dpriv (rd rs1 rs2 : XReg) : Statement (.dpriv rd rs1 rs2) := by
  refine ⟨show (⟨0x40000000, 0xFF000FFF⟩ : OpcodeRow) ∈ opcodeTable by decide, ?_⟩
  apply BitVec.eq_of_getLsbD_eq
  intro i hi
  simp only [encode, Instr.tableRow, formatR, BitVec.getLsbD_and, BitVec.getLsbD_append]
  interval_cases i <;> simp

theorem dpub (pd : PReg) (rs1 : XReg) : Statement (.dpub pd rs1) := by
  refine ⟨show (⟨0x41000000, 0xFFC0FFFF⟩ : OpcodeRow) ∈ opcodeTable by decide, ?_⟩
  apply BitVec.eq_of_getLsbD_eq
  intro i hi
  simp only [encode, Instr.tableRow, formatR, pField, BitVec.getLsbD_and, BitVec.getLsbD_append]
  interval_cases i <;> simp

theorem encu (ps1 : PReg) (off : Byte) : Statement (.encu ps1 off) := by
  refine ⟨show (⟨0x42000000, 0xFFFCFF00⟩ : OpcodeRow) ∈ opcodeTable by decide, ?_⟩
  apply BitVec.eq_of_getLsbD_eq
  intro i hi
  simp only [encode, Instr.tableRow, formatR, pField, BitVec.getLsbD_and, BitVec.getLsbD_append]
  interval_cases i <;> simp

theorem encc (ps1 : PReg) (off : Byte) : Statement (.encc ps1 off) := by
  refine ⟨show (⟨0x43000000, 0xFFFCFF00⟩ : OpcodeRow) ∈ opcodeTable by decide, ?_⟩
  apply BitVec.eq_of_getLsbD_eq
  intro i hi
  simp only [encode, Instr.tableRow, formatR, pField, BitVec.getLsbD_and, BitVec.getLsbD_append]
  interval_cases i <;> simp

theorem keypair (rs1 rs2 : XReg) (off : Byte) (testnet addrCompressed : Bool) : Statement (.keypair rs1 rs2 off testnet addrCompressed) := by
  refine ⟨show (⟨0x44000000, 0xFF0000FC⟩ : OpcodeRow) ∈ opcodeTable by decide, ?_⟩
  apply BitVec.eq_of_getLsbD_eq
  intro i hi
  simp only [encode, Instr.tableRow, formatS, keypairFlags, BitVec.getLsbD_and, BitVec.getLsbD_append]
  interval_cases i <;> simp

theorem genaddr (dst src len : Byte) : Statement (.genaddr dst src len) := by
  refine ⟨show (⟨0x50000000, 0xFF000000⟩ : OpcodeRow) ∈ opcodeTable by decide, ?_⟩
  apply BitVec.eq_of_getLsbD_eq
  intro i hi
  simp only [encode, Instr.tableRow, formatB, BitVec.getLsbD_and, BitVec.getLsbD_append]
  interval_cases i <;> simp

theorem genaddrt (dst src len : Byte) : Statement (.genaddrt dst src len) := by
  refine ⟨show (⟨0x51000000, 0xFF000000⟩ : OpcodeRow) ∈ opcodeTable by decide, ?_⟩
  apply BitVec.eq_of_getLsbD_eq
  intro i hi
  simp only [encode, Instr.tableRow, formatB, BitVec.getLsbD_and, BitVec.getLsbD_append]
  interval_cases i <;> simp

theorem sign (rs1 rs2 : XReg) (off : Byte) : Statement (.sign rs1 rs2 off) := by
  refine ⟨show (⟨0x60000000, 0xFF0000FF⟩ : OpcodeRow) ∈ opcodeTable by decide, ?_⟩
  apply BitVec.eq_of_getLsbD_eq
  intro i hi
  simp only [encode, Instr.tableRow, formatS, BitVec.getLsbD_and, BitVec.getLsbD_append]
  interval_cases i <;> simp

theorem signtx (rs1 rs2 : XReg) (off : Byte) (imm8 : Byte) : Statement (.signtx rs1 rs2 off imm8) := by
  refine ⟨show (⟨0x61000000, 0xFF000000⟩ : OpcodeRow) ∈ opcodeTable by decide, ?_⟩
  apply BitVec.eq_of_getLsbD_eq
  intro i hi
  simp only [encode, Instr.tableRow, formatS, BitVec.getLsbD_and, BitVec.getLsbD_append]
  interval_cases i <;> simp

end Sys2Proof.Laws.RowMatch
end

