-- ==== Sys2Proof/Laws/Port.lean ====
section
/-! SUPPORT. The host window: where each word address leads (R32), the bits of a word of a register, and what a host write and a
step can do. -/

namespace Sys2Proof.Machine

theorem locate_xWord (i : XReg) (j : Fin 8) : locate (BitVec.ofNat 8 (8 * i.val + j.val)) = .xWord i j := by
  revert i j; decide

theorem locate_bufWord (k : Fin 64) : locate (BitVec.ofNat 8 (128 + k.val)) = .bufWord k := by revert k; decide

theorem locate_reserved : ∀ wa : BitVec 8, 0xC3 ≤ wa → locate wa = .reserved := by decide

/-- A word address below 192 is a word of `x` or of `BUF`. -/
theorem locate_storage : ∀ wa : BitVec 8, wa.toNat < 192 →
    (∃ i j, locate wa = .xWord i j ∧ wa = BitVec.ofNat 8 (8 * i.val + j.val)) ∨
    ∃ k, locate wa = .bufWord k ∧ wa = BitVec.ofNat 8 (128 + k.val) := by
  intro wa h
  by_cases hx : wa.toNat < 128
  · refine .inl ⟨⟨wa.toNat / 8, by omega⟩, ⟨wa.toNat % 8, by omega⟩, ?_, ?_⟩
    all_goals
      have e : wa = BitVec.ofNat 8 (8 * (wa.toNat / 8) + wa.toNat % 8) := by
        apply BitVec.eq_of_toNat_eq
        rw [BitVec.toNat_ofNat]
        omega
    · rw [← locate_xWord]; exact congrArg locate e
    · exact e
  · refine .inr ⟨⟨wa.toNat - 128, by omega⟩, ?_, ?_⟩
    all_goals
      have e : wa = BitVec.ofNat 8 (128 + (wa.toNat - 128)) := by
        apply BitVec.eq_of_toNat_eq
        rw [BitVec.toNat_ofNat]
        omega
    · rw [← locate_bufWord]; exact congrArg locate e
    · exact e

theorem hostRead_xWord (s : State) {wa : BitVec 8} {i : XReg} {j : Fin 8} (h : locate wa = .xWord i j) :
    hostRead s wa = xWordGet (s.getX i) j := by rw [hostRead, h]

theorem hostRead_bufWord (s : State) {wa : BitVec 8} {k : Fin 64} (h : locate wa = .bufWord k) :
    hostRead s wa = BitVec.ofNat 32 (be (s.load (4 * k.val) 4)) := by rw [hostRead, h]

theorem hostWrite_xWord (s : State) {wa : BitVec 8} {i : XReg} {j : Fin 8} (h : locate wa = .xWord i j) (d : Word32) :
    hostWrite s wa d = .next (s.setX i (xWordSet (s.getX i) j d)) := by rw [hostWrite, h]

theorem hostWrite_bufWord (s : State) {wa : BitVec 8} {k : Fin 64} (h : locate wa = .bufWord k) (d : Word32) :
    hostWrite s wa d = .next (s.store (4 * k.val) (bytesBe d.toNat 4)) := by rw [hostWrite, h]

/-- Everything a host write can do. -/
theorem hostWrite_cases (s : State) (wa : BitVec 8) (d : Word32) :
    (∃ i j, locate wa = .xWord i j ∧ hostWrite s wa d = .next (s.setX i (xWordSet (s.getX i) j d))) ∨
    (∃ k, locate wa = .bufWord k ∧ hostWrite s wa d = .next (s.store (4 * k.val) (bytesBe d.toNat 4))) ∨
    (wa = cmdWa ∧ hostWrite s wa d = issue d s) ∨ hostWrite s wa d = .next s := by
  rw [hostWrite]
  split
  · next i j h => exact .inl ⟨i, j, h, rfl⟩
  · next k h => exact .inr (.inl ⟨k, h, rfl⟩)
  · next h =>
    refine .inr (.inr (.inl ⟨?_, rfl⟩))
    revert h
    revert wa
    decide
  · exact .inr (.inr (.inr rfl))
  · exact .inr (.inr (.inr rfl))
  · exact .inr (.inr (.inr rfl))

/-- Everything issuing a word can do. -/
theorem issue_cases (w : Word32) (s : State) :
    (s.halted = true ∧ issue w s = .next (s.raise .eHalted)) ∨
    (s.halted = false ∧ ∃ i, decode w = .ok i ∧ issue w s = exec i s) ∨
    (s.halted = false ∧ (∃ e, decode w = .error e) ∧ issue w s = .next (s.raise .eIllegal)) := by
  unfold issue
  cases h : s.halted
  · cases hd : decode w with
    | ok i => exact .inr (.inl ⟨rfl, i, rfl, rfl⟩)
    | error e => exact .inr (.inr ⟨rfl, ⟨e, rfl⟩, rfl⟩)
  · exact .inl ⟨rfl, rfl⟩

/-- Everything a step can do. -/
theorem step_cases (s : State) :
    (s.pending = [] ∧ step s = .next s) ∨
    (∃ wa rest, s.pending = .read wa :: rest ∧
      step s = .next { s with pending := rest, replies := s.replies ++ [hostRead { s with pending := rest } wa] }) ∨
    (∃ wa d rest, s.pending = .write wa d :: rest ∧ step s = hostWrite { s with pending := rest } wa d) ∨
    ∃ rest, s.pending = .reset :: rest ∧ step s = .next (resetEvent { s with pending := rest }) := by
  unfold step
  cases s.pending with
  | nil => exact .inl ⟨rfl, rfl⟩
  | cons e rest =>
    cases e with
    | read wa => exact .inr (.inl ⟨wa, rest, rfl, rfl⟩)
    | write wa d => exact .inr (.inr (.inl ⟨wa, d, rest, rfl, rfl⟩))
    | reset => exact .inr (.inr (.inr ⟨rest, rfl, rfl⟩))

/-! ## Words of a register -/

theorem getLsbD_xWordGet (v : Word) (j : Fin 8) {b : Nat} (h : b < 32) :
    (xWordGet v j).getLsbD b = v.getLsbD (224 - 32 * j.val + b) := by
  simp [xWordGet, wordShift, h]

theorem getLsbD_xWordSet (v : Word) (j : Fin 8) (d : Word32) {b : Nat} (hb : b < 256) :
    (xWordSet v j d).getLsbD b =
      if 224 - 32 * j.val ≤ b ∧ b < 256 - 32 * j.val then d.getLsbD (b - (224 - 32 * j.val)) else v.getLsbD b := by
  have hj := j.isLt
  have key : (0xFFFFFFFF : Word).getLsbD (b - (224 - 32 * j.val)) = decide (b - (224 - 32 * j.val) < 32) := by
    have e : (0xFFFFFFFF : Word) = (BitVec.allOnes 32).setWidth 256 := by decide
    have : b - (224 - 32 * j.val) < 256 := by omega
    rw [e, BitVec.getLsbD_setWidth, BitVec.getLsbD_allOnes]
    simp [this]
  simp only [xWordSet, wordShift, BitVec.getLsbD_or, BitVec.getLsbD_and, BitVec.getLsbD_not, BitVec.getLsbD_shiftLeft,
    BitVec.getLsbD_setWidth, hb, key]
  by_cases h1 : b < 224 - 32 * j.val
  · rw [if_neg (by omega)]
    simp [h1]
  · by_cases h2 : b < 256 - 32 * j.val
    · rw [if_pos (by omega)]
      have h3 : b - (224 - 32 * j.val) < 32 := by omega
      have h4 : b - (224 - 32 * j.val) < 256 := by omega
      simp [h1, h3, h4]
    · rw [if_neg (by omega)]
      have h3 : ¬ b - (224 - 32 * j.val) < 32 := by omega
      have h6 : d.getLsbD (b - (224 - 32 * j.val)) = false := BitVec.getLsbD_of_ge _ _ (by omega)
      simp [h1, h3, h6]

/-- Bit `i` of `PTINF` (R17). -/
theorem getLsbD_ptinf (pt : Vector Point 4) (i : PReg) : (ptinf pt).getLsbD i.val = pt[i].isInf := by
  fin_cases i <;> simp only [ptinf, BitVec.getLsbD_append, BitVec.getLsbD_ofBool] <;> simp

theorem getLsbD_ptinf_ge (pt : Vector Point 4) {b : Nat} (h : 4 ≤ b) : (ptinf pt).getLsbD b = false := by
  have h1 : ¬ b < 1 := by omega
  have h2 : ¬ b - 1 < 1 := by omega
  have h3 : ¬ b - 1 - 1 < 1 := by omega
  have h4 : ¬ b - 1 - 1 - 1 < 1 := by omega
  simp only [ptinf, BitVec.getLsbD_append, BitVec.getLsbD_ofBool]
  simp [h1, h2, h3, h4]

theorem Point.isInf_iff (P : Point) : P.isInf = true ↔ P = .inf := by cases P <;> simp [Point.isInf]

/-- Four bytes packed into a word, the first in bits 31:24. -/
theorem ofNat_be_four (a b c d : Byte) : BitVec.ofNat 32 (be [a, b, c, d]) = a ++ b ++ c ++ d := by
  apply BitVec.eq_of_toNat_eq
  simp only [be, List.foldl, BitVec.toNat_ofNat, BitVec.toNat_append]
  have := a.isLt
  have := b.isLt
  have := c.isLt
  have := d.isLt
  rw [← Nat.shiftLeft_add_eq_or_of_lt (by omega), ← Nat.shiftLeft_add_eq_or_of_lt (by omega),
    ← Nat.shiftLeft_add_eq_or_of_lt (by omega)]
  simp only [Nat.shiftLeft_eq]
  omega

end Sys2Proof.Machine
end

