-- ==== Sys2Proof/Laws/Sums.lean ====
section
/-! SUPPORT. The relations of Safety on valid points: `IsSum` is the addition of the curve's group, `KFold` its multiples, so
`pointAdd`, `pointDouble` and `scalarMultiply` meet them and nothing else does. -/

namespace Sys2Proof.Machine

/-- The check of the machine is the equation of R21. -/
theorem onCurve_iff_OnCurve (x y : Word) : onCurve x y = true ↔ OnCurve x y := by
  rw [onCurve_iff, OnCurve]
  have : fp y ^ 2 = fp x ^ 3 + 7 ↔ y.toNat ^ 2 % Config.p = (x.toNat ^ 3 + 7) % Config.p := by
    rw [fp, fp, show ((y.toNat : Fp)) ^ 2 = ((y.toNat ^ 2 : ℕ) : Fp) by push_cast; rfl,
      show ((x.toNat : Fp)) ^ 3 + 7 = ((x.toNat ^ 3 + 7 : ℕ) : Fp) by push_cast; rfl, ZMod.natCast_eq_natCast_iff]
    exact Iff.rfl
  rw [this]

theorem Point.valid_iff (P : Point) : P.valid = true ↔ P.OnCurve := by
  cases P with
  | inf => exact ⟨fun _ => trivial, fun _ => rfl⟩
  | aff x y => exact onCurve_iff_OnCurve x y

theorem generator_onCurve : generator.OnCurve := (Point.valid_iff _).1 generator_valid

/-- Every field element is the residue some word below `p` names. -/
theorem exists_word (X : Fp) : ∃ x : Word, x.toNat < Config.p ∧ fp x = X := by
  have : NeZero Config.p := ⟨by decide⟩
  refine ⟨BitVec.ofNat 256 X.val, ?_⟩
  have hlt := ZMod.val_lt X
  have h : (BitVec.ofNat 256 X.val).toNat = X.val := by
    rw [BitVec.toNat_ofNat, Nat.mod_eq_of_lt (Nat.lt_of_lt_of_le hlt modulus_p.2)]
  exact ⟨by rw [h]; exact hlt, by rw [fp, h, ZMod.natCast_zmod_val]⟩

variable [Fact (Nat.Prime Config.p)]

theorem onChord_toE {lam : Fp} {x y x' : Word} {R : Point} {Q : ecurve.Point} (h : OnChord lam x y x' R)
    (hQ : ∀ {X Y : Fp}, X = lam ^ 2 - fp x - fp x' → Y = lam * (fp x - X) - fp y →
      ∃ hns : ecurve.Nonsingular X Y, Q = .some X Y hns) : R.valid = true ∧ toE R = Q := by
  obtain ⟨x3, y3, rfl, h1, h2, hx, hy⟩ := h
  obtain ⟨hns, rfl⟩ := hQ hx hy
  exact toE_some hns h1 h2 rfl rfl

theorem onChord_exists (lam : Fp) (x y x' : Word) : ∃ R, OnChord lam x y x' R := by
  obtain ⟨x3, h1, hx⟩ := exists_word (lam ^ 2 - fp x - fp x')
  obtain ⟨y3, h2, hy⟩ := exists_word (lam * (fp x - fp x3) - fp y)
  exact ⟨_, x3, y3, rfl, h1, h2, hx, hy⟩

/-- A sum of valid points is the sum in the group of the curve. -/
theorem toE_of_isSum {P Q R : Point} (hP : P.valid = true) (hQ : Q.valid = true) (h : IsSum P Q R) :
    R.valid = true ∧ toE R = toE P + toE Q := by
  cases P with
  | inf => simp only [IsSum] at h; subst h; exact ⟨hQ, by simp⟩
  | aff x y =>
  cases Q with
  | inf => simp only [IsSum] at h; subst h; exact ⟨hP, by simp⟩
  | aff x' y' =>
    have hns := nonsingular_of_onCurve hP
    have hns' := nonsingular_of_onCurve hQ
    obtain ⟨hx, hy, heq⟩ := (onCurve_iff x y).1 hP
    obtain ⟨hx', hy', heq'⟩ := (onCurve_iff x' y').1 hQ
    rw [toE_aff hns, toE_aff hns']
    rcases h with ⟨rfl, hs, rfl⟩ | ⟨rfl, hs, lam, hl, hc⟩ | ⟨hne, lam, hl, hc⟩
    · refine ⟨rfl, ?_⟩
      rw [WeierstrassCurve.Affine.Point.add_of_Y_eq rfl (by rw [ecurve_negY]; linear_combination hs), toE_inf]
    · have hprod : (fp y - fp y') * (fp y + fp y') = 0 := by linear_combination heq - heq'
      have hy2 : y = y' := fp_inj hy hy' (sub_eq_zero.1 ((mul_eq_zero.1 hprod).resolve_right hs))
      subst hy2
      have h2 : 2 * fp y ≠ 0 := by rwa [two_mul]
      have hne : fp y ≠ ecurve.negY (fp x) (fp y) := by
        rw [ecurve_negY]; intro e; exact h2 (by linear_combination e)
      have hsl : ecurve.slope (fp x) (fp x) (fp y) (fp y) = lam := by
        rw [WeierstrassCurve.Affine.slope_of_Y_ne rfl hne, ecurve_negY]
        simp only [ecurve]
        rw [div_eq_iff (by rw [sub_neg_eq_add, ← two_mul]; exact h2)]
        linear_combination -hl
      refine onChord_toE hc fun {X Y} hX hY => ?_
      rw [WeierstrassCurve.Affine.Point.add_self_of_Y_ne hne]
      subst hX hY
      have hX : ecurve.addX (fp x) (fp x) (ecurve.slope (fp x) (fp x) (fp y) (fp y)) = lam ^ 2 - fp x - fp x := by
        rw [hsl, ecurve_addX]
      refine some_eq_some _ hX.symm ?_
      rw [ecurve_addY, hX, hsl]
    · have hxne : fp x ≠ fp x' := fun e => hne (fp_inj hx hx' e)
      have hsl : ecurve.slope (fp x) (fp x') (fp y) (fp y') = lam := by
        rw [WeierstrassCurve.Affine.slope_of_X_ne hxne, div_eq_iff (sub_ne_zero.2 hxne)]
        linear_combination hl
      refine onChord_toE hc fun {X Y} hX hY => ?_
      rw [WeierstrassCurve.Affine.Point.add_of_X_ne hxne]
      subst hX hY
      have hX : ecurve.addX (fp x) (fp x') (ecurve.slope (fp x) (fp x') (fp y) (fp y')) = lam ^ 2 - fp x - fp x' := by
        rw [hsl, ecurve_addX]
      refine some_eq_some _ hX.symm ?_
      rw [ecurve_addY, hX, hsl]

/-- Valid points have a sum. -/
theorem isSum_exists {P Q : Point} (hP : P.valid = true) (hQ : Q.valid = true) : ∃ R, IsSum P Q R := by
  cases P with
  | inf => exact ⟨Q, rfl⟩
  | aff x y =>
  cases Q with
  | inf => exact ⟨_, rfl⟩
  | aff x' y' =>
    obtain ⟨hx, hy, heq⟩ := (onCurve_iff x y).1 hP
    obtain ⟨hx', hy', heq'⟩ := (onCurve_iff x' y').1 hQ
    by_cases h : x = x'
    · by_cases hs : fp y + fp y' = 0
      · exact ⟨.inf, .inl ⟨h, hs, rfl⟩⟩
      · subst h
        have hprod : (fp y - fp y') * (fp y + fp y') = 0 := by linear_combination heq - heq'
        have hy2 : y = y' := fp_inj hy hy' (sub_eq_zero.1 ((mul_eq_zero.1 hprod).resolve_right hs))
        subst hy2
        have h2 : 2 * fp y ≠ 0 := by rwa [two_mul]
        obtain ⟨R, hR⟩ := onChord_exists (3 * fp x ^ 2 / (2 * fp y)) x y x
        exact ⟨R, .inr (.inl ⟨rfl, hs, _, div_mul_cancel₀ _ h2, hR⟩)⟩
    · have hxne : fp x' - fp x ≠ 0 := sub_ne_zero.2 fun e => h (fp_inj hx hx' e.symm)
      obtain ⟨R, hR⟩ := onChord_exists ((fp y' - fp y) / (fp x' - fp x)) x y x'
      exact ⟨R, .inr (.inr ⟨h, _, div_mul_cancel₀ _ hxne, hR⟩)⟩

/-- `IsSum` on valid points is the addition of the group. -/
theorem isSum_iff {P Q R : Point} (hP : P.valid = true) (hQ : Q.valid = true) :
    IsSum P Q R ↔ R.valid = true ∧ toE R = toE P + toE Q := by
  refine ⟨toE_of_isSum hP hQ, fun ⟨hv, he⟩ => ?_⟩
  obtain ⟨R', hR'⟩ := isSum_exists hP hQ
  obtain ⟨hv', he'⟩ := toE_of_isSum hP hQ hR'
  rwa [toE_inj hv hv' (he.trans he'.symm)]

/-- A multiple of a valid point is the multiple in the group. -/
theorem toE_of_kFold {P : Point} (hP : P.valid = true) {k : Nat} {R : Point} (h : KFold P k R) :
    R.valid = true ∧ toE R = k • toE P := by
  induction h with
  | zero => exact ⟨rfl, (zero_nsmul _).symm⟩
  | succ _ hs ih =>
    rw [succ_nsmul, ← ih.2]
    exact toE_of_isSum ih.1 hP hs

/-- Every multiple of a valid point exists. -/
theorem kFold_exists {P : Point} (hP : P.valid = true) (k : Nat) : ∃ R, KFold P k R := by
  induction k with
  | zero => exact ⟨_, .zero⟩
  | succ k ih =>
    obtain ⟨Q, hQ⟩ := ih
    obtain ⟨R, hR⟩ := isSum_exists (toE_of_kFold hP hQ).1 hP
    exact ⟨R, .succ hQ hR⟩

/-- `KFold` on valid points is the multiple in the group. -/
theorem kFold_iff {P : Point} (hP : P.valid = true) (k : Nat) (R : Point) :
    KFold P k R ↔ R.valid = true ∧ toE R = k • toE P := by
  refine ⟨toE_of_kFold hP, fun ⟨hv, he⟩ => ?_⟩
  obtain ⟨R', hR'⟩ := kFold_exists hP k
  obtain ⟨hv', he'⟩ := toE_of_kFold hP hR'
  rwa [toE_inj hv hv' (he.trans he'.symm)]

end Sys2Proof.Machine
end

