-- ==== Sys2Proof/Laws/Signature.lean ====
section
/-! SUPPORT. Keys and signatures: what key derivation, the public key and one candidate of the nonce loop answer, in the terms of
Safety (R142, R143, R173). -/

namespace Sys2Proof.Machine

theorem validKey_iff (d : Word) : validKey d = true ↔ IsPrivateKey d := by
  have h0 : d ≠ 0 ↔ 1 ≤ d.toNat := by
    rw [Nat.one_le_iff_ne_zero, Ne, Ne, ← BitVec.toNat_inj]; rfl
  rw [validKey, Bool.and_eq_true, decide_eq_true_iff, decide_eq_true_iff, h0, IsPrivateKey]

theorem validKey_eq_false (d : Word) : validKey d = false ↔ ¬ IsPrivateKey d := by
  rw [← validKey_iff, Bool.not_eq_true]

/-! ## Encodings, as the statements write them -/

theorem getLsbD_zero_eq (y : Word) : y.getLsbD 0 = decide (y.toNat % 2 = 1) := by
  simp [BitVec.getLsbD, Nat.testBit_zero]

theorem encodeUncompressed_aff (x y : Word) : encodeUncompressed (.aff x y) = .ok (uncompressedBytes x y) := by
  simp [encodeUncompressed, uncompressedBytes, wordBytes]

theorem encodeCompressed_aff (x y : Word) : encodeCompressed (.aff x y) = .ok (compressedBytes x y) := by
  simp only [encodeCompressed, compressedBytes, wordBytes, getLsbD_zero_eq]
  rcases Nat.mod_two_eq_zero_or_one y.toNat with h | h <;> simp [h]

theorem addressPayload_eq (pub : Bytes) (testnet : Bool) : addressPayload pub testnet = addressBytes pub testnet := by
  cases testnet <;> simp [addressPayload, addressBytes, hash160, sha256d, versionByte]

/-! ## The public key -/

/-- A private key times the generator is a finite point (R143, R195). -/
theorem scalarMultiply_generator_finite {d : Word} (hd : IsPrivateKey d) :
    ∃ x y, scalarMultiply generator d = .ok (.aff x y) ∧ KFold generator d.toNat (.aff x y) ∧ OnCurve x y := by
  have := fact_prime_p
  obtain ⟨R, hR, hv, he⟩ := scalarMultiply_spec generator_valid d
  cases R with
  | inf =>
    have h0 := (scalarMultiply_generator_inf d).1 hR
    rw [Nat.mod_eq_of_lt hd.2] at h0
    exact absurd h0 (Nat.one_le_iff_ne_zero.1 hd.1)
  | aff x y => exact ⟨x, y, hR, (kFold_iff generator_valid _ _).2 ⟨hv, he⟩, (Point.valid_iff _).1 hv⟩

theorem derivePublicKey_ok {d : Word} (hd : IsPrivateKey d) :
    ∃ x y, derivePublicKey d = .ok (.aff x y) ∧ KFold generator d.toNat (.aff x y) ∧ OnCurve x y := by
  obtain ⟨x, y, h, hk, hc⟩ := scalarMultiply_generator_finite hd
  refine ⟨x, y, ?_, hk, hc⟩
  rw [derivePublicKey, if_pos ((validKey_iff d).2 hd), h]; rfl

/-- Multiples of the generator are unique. -/
theorem kFold_generator_unique {k : Nat} {P Q : Point} (hP : KFold generator k P) (hQ : KFold generator k Q) : P = Q := by
  have := fact_prime_p
  obtain ⟨hv, he⟩ := (kFold_iff generator_valid _ _).1 hP
  obtain ⟨hv', he'⟩ := (kFold_iff generator_valid _ _).1 hQ
  exact toE_inj hv hv' (he.trans he'.symm)

/-! ## Key derivation -/

/-- The message of an attempt, as the statements write it. -/
theorem kdfDigest_eq (e s : Word) (c : Nat) :
    kdfDigest e s c = be (sha256 (kdfMessage (wordBytes e ++ wordBytes s) c)) % Config.n := by
  unfold kdfDigest kdfMessage wordBytes
  split <;> simp

theorem derivePrivateKey_entropy {e : Word} (he : e = 0) (s : Word) : derivePrivateKey e s = .error .eEntropy := if_pos he

theorem derivePrivateKey_salt {e s : Word} (he : e ≠ 0) (hs : s = 0) : derivePrivateKey e s = .error .eSalt := by
  rw [derivePrivateKey, if_neg he, if_pos hs]

theorem kdfLoop_skip {e s : Word} {k c : Nat} (h : kdfDigest e s c = 0) :
    kdfLoop (wordBytes e ++ wordBytes s) (k + 1) c = kdfLoop (wordBytes e ++ wordBytes s) k (c + 1) := by
  rw [kdfDigest_eq] at h
  simp [kdfLoop, h]

theorem kdfLoop_stop {e s : Word} {k c : Nat} (h : kdfDigest e s c ≠ 0) :
    kdfLoop (wordBytes e ++ wordBytes s) (k + 1) c = .ok (BitVec.ofNat 256 (kdfDigest e s c)) := by
  rw [kdfDigest_eq] at h ⊢
  simp [kdfLoop, h]

/-- The key the derivation answers is the first digest that is not 0 (R142). -/
theorem derivePrivateKey_ok {e s : Word} (he : e ≠ 0) (hs : s ≠ 0) {d : Nat} (h : Derives e s d) :
    ∃ v, derivePrivateKey e s = .ok v ∧ v.toNat = d ∧ IsPrivateKey v := by
  obtain ⟨c, hc, hz, hne, rfl⟩ := h
  have ht : (BitVec.ofNat 256 (kdfDigest e s c)).toNat = kdfDigest e s c := toNat_ofNat_mod modulus_n _
  have hd : derivePrivateKey e s = .ok (BitVec.ofNat 256 (kdfDigest e s c)) := by
    rw [derivePrivateKey, if_neg he, if_neg hs]
    have key : ∀ j, j ≤ c → kdfLoop (wordBytes e ++ wordBytes s) Config.kdfAttempts 0 =
        kdfLoop (wordBytes e ++ wordBytes s) (Config.kdfAttempts - j) j := by
      intro j
      induction j with
      | zero => intro _; rfl
      | succ j ih =>
        intro hj
        rw [ih (by omega), show Config.kdfAttempts - j = (Config.kdfAttempts - (j + 1)) + 1 by omega,
          kdfLoop_skip (hz j (by omega))]
    rw [key c le_rfl, show Config.kdfAttempts - c = (Config.kdfAttempts - c - 1) + 1 by omega, kdfLoop_stop hne]
  exact ⟨_, hd, ht, (validKey_iff _).1 (derivePrivateKey_valid hd)⟩

/-- When every attempt reduces to 0 the derivation fails (R142). -/
theorem derivePrivateKey_retry {e s : Word} (he : e ≠ 0) (hs : s ≠ 0) (h : ∀ c, c < 4 → kdfDigest e s c = 0) :
    derivePrivateKey e s = .error .fRetryKdf := by
  rw [derivePrivateKey, if_neg he, if_neg hs]
  show kdfLoop _ (3 + 1) 0 = _
  rw [kdfLoop_skip (h 0 (by omega)), kdfLoop_skip (k := 2) (h 1 (by omega)), kdfLoop_skip (k := 1) (h 2 (by omega)),
    kdfLoop_skip (k := 0) (h 3 (by omega))]
  rfl

/-! ## One candidate -/

theorem zmod_eq_iff (a b : Nat) : ((a : ZMod Config.n) = b) ↔ a % Config.n = b % Config.n :=
  ZMod.natCast_eq_natCast_iff _ _ _

/-- The second half of a signature before it is made canonical. -/
theorem signature_half {d z k r kInv : Word} (hi : scalarInv k = .ok kInv) :
    (k.toNat * (scalarMul kInv (scalarAdd z (scalarMul r d))).toNat) % Config.n = (z.toNat + r.toNat * d.toNat) % Config.n := by
  have := fact_prime_n
  rw [← zmod_eq_iff]
  have h1 := (cast_modInv modulus_n (by decide) hi).1
  have h2 : ((scalarMul kInv (scalarAdd z (scalarMul r d))).toNat : ZMod Config.n) =
      kInv.toNat * (z.toNat + r.toNat * d.toNat) := by
    rw [scalarMul, scalarAdd, cast_modMul modulus_n, cast_modAdd modulus_n, cast_modMul modulus_n]
  push_cast
  rw [h2, ← mul_assoc, h1, one_mul]

theorem scalarInv_ok {k : Word} (hk : IsPrivateKey k) : ∃ r, scalarInv k = .ok r :=
  modInv_isOk (by rw [Nat.mod_eq_of_lt hk.2]; exact Nat.one_le_iff_ne_zero.1 hk.1)

/-- The equation for the second half has one solution below `n`. -/
theorem signature_half_unique {k : Word} (hk : IsPrivateKey k) {a b : Nat} (ha : a < Config.n) (hb : b < Config.n)
    (h : (k.toNat * a) % Config.n = (k.toNat * b) % Config.n) : a = b := by
  have := fact_prime_n
  have hc : Nat.Coprime Config.n k.toNat := by
    rw [Nat.Prime.coprime_iff_not_dvd this.out]
    exact Nat.not_dvd_of_pos_of_lt hk.1 hk.2
  have := Nat.ModEq.cancel_left_of_coprime hc h
  rwa [Nat.ModEq, Nat.mod_eq_of_lt ha, Nat.mod_eq_of_lt hb] at this

/-- What one candidate answers: a signature exactly when it is accepted, and otherwise it is rejected; it never raises (R173
steps 3 to 6, R195). -/
theorem signWith_spec (d z k : Word) :
    (∃ sig, Accepts d z k sig ∧ signWith d z k = .ok (some sig)) ∨ (Rejects d z k ∧ signWith d z k = .ok none) := by
  by_cases hk : IsPrivateKey k
  case neg => exact .inr ⟨.inl hk, by rw [signWith, (validKey_eq_false k).2 hk]; rfl⟩
  obtain ⟨x, y, hm, hf, -⟩ := scalarMultiply_generator_finite hk
  obtain ⟨kInv, hi⟩ := scalarInv_ok hk
  have hr := toNat_ofNat_mod modulus_n x.toNat
  have hR : ∀ (r : Word), r = BitVec.ofNat 256 (x.toNat % Config.n) → signWith d z k =
      if r = 0 then .ok none else
        if scalarMul kInv (scalarAdd z (scalarMul r d)) = 0 then .ok none
        else .ok (some (canonicalize ⟨r, scalarMul kInv (scalarAdd z (scalarMul r d)), y.getLsbD 0⟩)) := by
    rintro r rfl
    rw [signWith, if_pos ((validKey_iff k).2 hk), hm, hi]; rfl
  rw [hR _ rfl]
  generalize hrr : BitVec.ofNat 256 (x.toNat % Config.n) = r at hr
  have h0 : r = 0 ↔ x.toNat % Config.n = 0 := by
    rw [← hr, ← BitVec.toNat_inj]; rfl
  split
  · next h => exact .inr ⟨.inr ⟨x, y, hf, .inl (h0.1 h)⟩, rfl⟩
  next hne =>
  have hh := signature_half (d := d) (z := z) (r := r) hi
  have hlt : (scalarMul kInv (scalarAdd z (scalarMul r d))).toNat < Config.n := modMul_lt modulus_n _ _
  generalize scalarMul kInv (scalarAdd z (scalarMul r d)) = s0 at hh hlt
  split
  · next h =>
    subst h
    refine .inr ⟨.inr ⟨x, y, hf, .inr ?_⟩, rfl⟩
    rw [← hr, ← hh]; simp
  next hs =>
  have hs1 : 1 ≤ s0.toNat := by
    rw [Nat.one_le_iff_ne_zero]; intro e; exact hs (BitVec.eq_of_toNat_eq e)
  refine .inl ⟨_, ⟨hk, x, y, s0.toNat, hf, ?_, ?_, hs1, hlt, ?_, ?_, ?_⟩, rfl⟩
  · unfold canonicalize; split <;> exact hr
  · have : r.toNat ≠ 0 := by rw [hr]; exact fun h => hne (h0.2 h)
    unfold canonicalize; split <;> exact this
  · unfold canonicalize; split <;> exact hh
  · unfold canonicalize
    split
    · next h =>
      show (BitVec.ofNat 256 (Config.n - s0.toNat)).toNat = _
      rw [BitVec.toNat_ofNat, Nat.mod_eq_of_lt]
      exact lt_of_le_of_lt (Nat.sub_le _ _) (by decide)
    · rfl
  · unfold canonicalize
    rw [getLsbD_zero_eq]
    split
    · next h =>
      have h' : ¬ s0.toNat ≤ Config.halfN := by simpa using h
      simp [h']
    · next h =>
      have h' : s0.toNat ≤ Config.halfN := by simpa using h
      simp [h']

/-- A candidate gives at most one signature. -/
theorem accepts_unique {d z k : Word} {a b : Signature} (ha : Accepts d z k a) (hb : Accepts d z k b) : a = b := by
  obtain ⟨hk, x, y, s0, hf, hr, -, -, hl, he, hs, hv⟩ := ha
  obtain ⟨-, x', y', s0', hf', hr', -, -, hl', he', hs', hv'⟩ := hb
  obtain ⟨rfl, rfl⟩ := Point.aff.inj (kFold_generator_unique hf hf')
  have hrr : a.r = b.r := BitVec.eq_of_toNat_eq (hr.trans hr'.symm)
  rw [← hrr] at he'
  obtain rfl := signature_half_unique hk hl hl' (he.trans he'.symm)
  have hss : a.s = b.s := BitVec.eq_of_toNat_eq (hs.trans hs'.symm)
  have hvv : a.v = b.v := Bool.eq_iff_iff.2 (hv.trans hv'.symm)
  cases a; cases b; simp_all

/-- A candidate is not accepted and rejected. -/
theorem not_accepts_of_rejects {d z k : Word} (hr : Rejects d z k) {sig : Signature} (ha : Accepts d z k sig) : False := by
  obtain ⟨hk, x, y, s0, hf, hr', hne, h1, hl, he, -, -⟩ := ha
  rcases hr with hnk | ⟨x', y', hf', h⟩
  · exact hnk hk
  obtain ⟨rfl, rfl⟩ := Point.aff.inj (kFold_generator_unique hf hf')
  rcases h with h | h
  · exact hne (hr'.trans h)
  · rw [hr', h] at he
    have : s0 = 0 := signature_half_unique hk hl (by decide) (by simpa using he)
    omega

theorem signWith_accepts {d z k : Word} {sig : Signature} (h : Accepts d z k sig) : signWith d z k = .ok (some sig) := by
  rcases signWith_spec d z k with ⟨sig', h', e⟩ | ⟨h', -⟩
  · rw [e, accepts_unique h h']
  · exact (not_accepts_of_rejects h' h).elim

theorem signWith_rejects {d z k : Word} (h : Rejects d z k) : signWith d z k = .ok none := by
  rcases signWith_spec d z k with ⟨sig', h', e⟩ | ⟨-, e⟩
  · exact (not_accepts_of_rejects h h').elim
  · exact e

/-! ## The nonce loop -/

theorem signLoop_accept {d z : Word} {a j : Nat} {sig : Signature} (h : Accepts d z (candidateAt d z j) sig) :
    signLoop d z (a + 1) (nonceStateAt d z j) = .ok sig := by
  simp only [signLoop]
  rw [show signWith d z (beWord (nonceCandidate (nonceStateAt d z j)).V) = .ok (some sig) from signWith_accepts h]
  rfl

theorem signLoop_reject {d z : Word} {a j : Nat} (h : Rejects d z (candidateAt d z j)) :
    signLoop d z (a + 1) (nonceStateAt d z j) = signLoop d z a (nonceStateAt d z (j + 1)) := by
  simp only [signLoop]
  rw [show signWith d z (beWord (nonceCandidate (nonceStateAt d z j)).V) = .ok none from signWith_rejects h]
  rfl

/-- The loop after `j` rejections. -/
theorem signLoop_skip {d z : Word} {a j : Nat} (h : ∀ i, i < j → Rejects d z (candidateAt d z i)) :
    signLoop d z (a + j) (nonceStateAt d z 0) = signLoop d z a (nonceStateAt d z j) := by
  induction j generalizing a with
  | zero => rfl
  | succ j ih =>
    rw [show a + (j + 1) = (a + 1) + j by omega, ih (fun i hi => h i (by omega)), signLoop_reject (h j (by omega))]

/-- Whatever the loop answers is the signature of an accepted candidate. -/
theorem signLoop_ok {d z : Word} {a j : Nat} {sig : Signature} (h : signLoop d z a (nonceStateAt d z j) = .ok sig) :
    ∃ k, Accepts d z k sig := by
  induction a generalizing j with
  | zero => cases h
  | succ a ih =>
    rcases signWith_spec d z (candidateAt d z j) with ⟨sig', ha, -⟩ | ⟨hr, -⟩
    · rw [signLoop_accept ha] at h; cases h; exact ⟨_, ha⟩
    · rw [signLoop_reject hr] at h; exact ih h

theorem sign_refused {d : Word} (hd : ¬ IsPrivateKey d) (e : Word) : sign d e = .error .ePrivkey := by
  rw [sign, (validKey_eq_false d).2 hd]; rfl

theorem derivePublicKey_refused {d : Word} (hd : ¬ IsPrivateKey d) : derivePublicKey d = .error .ePrivkey := by
  rw [derivePublicKey, (validKey_eq_false d).2 hd]; rfl

/-- The signature of the first candidate that is not rejected (R173). -/
theorem sign_ok {d e z : Word} (hz : z = digestScalar e) (hd : IsPrivateKey d) {j : Nat} (hj : j < 8) {sig : Signature}
    (hr : ∀ i, i < j → Rejects d z (candidateAt d z i)) (ha : Accepts d z (candidateAt d z j) sig) : sign d e = .ok sig := by
  subst hz
  rw [sign, if_pos ((validKey_iff d).2 hd)]
  show signLoop d _ 8 (nonceStateAt d (digestScalar e) 0) = _
  rw [show 8 = (7 - j + 1) + j by omega, signLoop_skip hr, signLoop_accept ha]

/-- All eight candidates rejected (R173). -/
theorem sign_retry {d e z : Word} (hz : z = digestScalar e) (hd : IsPrivateKey d)
    (hr : ∀ i, i < 8 → Rejects d z (candidateAt d z i)) : sign d e = .error .fRetryNonce := by
  subst hz
  rw [sign, if_pos ((validKey_iff d).2 hd)]
  show signLoop d _ (0 + 8) (nonceStateAt d (digestScalar e) 0) = _
  rw [signLoop_skip hr]; rfl

end Sys2Proof.Machine
end

