-- ==== Sys2Proof/Tests/Slice0.lean ====
section
/-! SUPPORT. The tests: the well-formedness smoke, decoding by words written out from the spec's encodings, the spec's own example
of each command, and for every statement with hypotheses a witness that meets them. Expected values are the spec's (the examples of
the rules and 95_test_vectors.md), never the model's. -/

namespace Sys2Proof.Tests

set_option Elab.async false

open Sys2Proof.Machine

/-! ## Well-formedness refuses each ill-formed term (R37, R161) and takes the last well-formed one -/

theorem test_wf_length : (Instr.genaddr 0 0 32).wellFormed = false ∧ (Instr.genaddrt 0 0 66).wellFormed = false ∧
    (Instr.genaddr 0 0 33).wellFormed = true ∧ (Instr.genaddrt 0 0 65).wellFormed = true := by decide

theorem test_wf_register_access : (Instr.ldw 0 225).wellFormed = false ∧ (Instr.stw 0 225).wellFormed = false ∧
    (Instr.ldw 0 224).wellFormed = true ∧ (Instr.stw 0 224).wellFormed = true := by decide

theorem test_wf_hash_source : (Instr.sha256 0 2 255).wellFormed = false ∧ (Instr.sha256d 0 255 2).wellFormed = false ∧
    (Instr.rmd160 0 128 129).wellFormed = false ∧ (Instr.hash160 0 2 255).wellFormed = false ∧
    (Instr.sha256 0 1 255).wellFormed = true := by decide

theorem test_wf_hash_destination : (Instr.sha256 225 0 0).wellFormed = false ∧ (Instr.sha256d 225 0 0).wellFormed = false ∧
    (Instr.rmd160 237 0 0).wellFormed = false ∧ (Instr.hash160 237 0 0).wellFormed = false ∧
    (Instr.sha256 224 0 0).wellFormed = true ∧ (Instr.hash160 236 0 0).wellFormed = true := by decide

theorem test_wf_encodings : (Instr.encu 0 192).wellFormed = false ∧ (Instr.encc 0 224).wellFormed = false ∧
    (Instr.keypair 0 0 102 false false).wellFormed = false ∧ (Instr.encu 0 191).wellFormed = true ∧
    (Instr.encc 0 223).wellFormed = true ∧ (Instr.keypair 0 0 101 false false).wellFormed = true := by decide

theorem test_wf_address : (Instr.genaddr 232 0 33).wellFormed = false ∧ (Instr.genaddrt 0 224 33).wellFormed = false ∧
    (Instr.genaddr 231 0 33).wellFormed = true ∧ (Instr.genaddrt 0 223 33).wellFormed = true := by decide

theorem test_wf_signatures : (Instr.sign 0 0 192).wellFormed = false ∧ (Instr.signtx 0 0 191 0).wellFormed = false ∧
    (Instr.sign 0 0 191).wellFormed = true ∧ (Instr.signtx 0 0 190 0).wellFormed = true := by decide

/-! ## Decoding (R51 to R56): words of the rules' examples, or written out from the formats -/

theorem test_decode_movement : decode 0x00000000 = .ok .nop ∧ decode 0x01100005 = .ok (.li 1 5) ∧
    decode 0x02210000 = .ok (.mov 2 1) ∧ decode 0x03300020 = .ok (.ldw 3 0x20) ∧ decode 0x04030040 = .ok (.stw 3 0x40) := by
  decide

theorem test_decode_field : decode 0x10312000 = .ok (.fadd 3 1 2) ∧ decode 0x11312000 = .ok (.fsub 3 1 2) ∧
    decode 0x12312000 = .ok (.fmul 3 1 2) ∧ decode 0x13410000 = .ok (.finv 4 1) ∧ decode 0x14312000 = .ok (.fred 3 1 2) := by
  decide

theorem test_decode_scalar : decode 0x18312000 = .ok (.sadd 3 1 2) ∧ decode 0x19312000 = .ok (.ssub 3 1 2) ∧
    decode 0x1A312000 = .ok (.smul 3 1 2) ∧ decode 0x1B410000 = .ok (.sinv 4 1) ∧ decode 0x1C312000 = .ok (.sred 3 1 2) := by
  decide

theorem test_decode_points : decode 0x20100000 = .ok (.pinf 1) ∧ decode 0x21000000 = .ok (.pgen 0) ∧
    decode 0x22112000 = .ok (.pset 1 1 2) ∧ decode 0x23200000 = .ok (.pmov 2 0) ∧ decode 0x24520000 = .ok (.pgetx 5 2) ∧
    decode 0x25600000 = .ok (.pgety 6 0) ∧ decode 0x28201000 = .ok (.padd 2 0 1) ∧ decode 0x29100000 = .ok (.pdbl 1 0) ∧
    decode 0x2A104000 = .ok (.pmul 1 0 4) := by decide

theorem test_decode_hashes : decode 0x30000340 = .ok (.sha256 0x40 0x00 3) ∧ decode 0x31000340 = .ok (.sha256d 0x40 0x00 3) ∧
    decode 0x32000340 = .ok (.rmd160 0x40 0x00 3) ∧ decode 0x33102030 = .ok (.hash160 0x30 0x10 0x20) := by decide

theorem test_decode_keys : decode 0x40312000 = .ok (.dpriv 3 1 2) ∧ decode 0x41030000 = .ok (.dpub 0 3) ∧
    decode 0x42000000 = .ok (.encu 0 0) ∧ decode 0x43000080 = .ok (.encc 0 0x80) ∧
    decode 0x44120002 = .ok (.keypair 1 2 0x00 false true) ∧ decode 0x44120001 = .ok (.keypair 1 2 0x00 true false) := by decide

theorem test_decode_addresses : decode 0x50002140 = .ok (.genaddr 0x40 0x00 33) ∧
    decode 0x51004180 = .ok (.genaddrt 0x80 0x00 65) := by decide

theorem test_decode_signer : decode 0x60120000 = .ok (.sign 1 2 0x00) ∧ decode 0x61124001 = .ok (.signtx 1 2 0x40 1) := by
  decide

/-- A word bit by bit: `PMUL p1, p0, x4` is op 0010 1010, rd 0001, rs1 0000, rs2 0100, z 0000, imm8 0 (R51, R112). -/
theorem test_decode_bits : decode (0b00101010000100000100000000000000 : Word32) = .ok (.pmul 1 0 4) := by decide

/-- Illegal words (R56): unassigned `op`, non-zero `z`, a non-zero unused field, a point index above 3, `SIGN` with an `imm8`,
`KEYPAIR` with a flag above bit 1. -/
theorem test_decode_illegal : decode 0xFFFFFFFF = .error .unassignedOp ∧ decode 0x05000000 = .error .unassignedOp ∧
    decode 0x10312100 = .error .nonzeroField ∧ decode 0x00000001 = .error .nonzeroField ∧
    decode 0x21400000 = .error .nonzeroField ∧ decode 0x28204000 = .error .nonzeroField ∧
    decode 0x60120001 = .error .nonzeroField ∧ decode 0x44120004 = .error .nonzeroField := by decide

theorem test_table_word : decodeTableWord 32 0x12312000 = some (.fmul 3 1 2) ∧ decodeTableWord 32 0xFFFFFFFF = none := by
  decide

/-- The encoder gives the spec's words back. -/
theorem test_encode : encode (.fred 3 1 2) = 0x14312000 ∧ encode (.stw 3 0x40) = 0x04030040 ∧
    encode (.genaddr 0x40 0x00 33) = 0x50002140 ∧ encode (.keypair 1 2 0x00 false true) = 0x44120002 := by decide

/-! ## One step of each command -/

/-- The reset state with some general registers set. -/
def withX (l : List (XReg × Word)) : State := l.foldl (fun s e => s.setX e.1 e.2) State.reset

/-- A general register and `STATUS` after a command. -/
def xAfter (i : Instr) (s : State) (r : XReg) : Option (Word × Word32) :=
  match exec i s with
  | .next t => some (t.getX r, t.status)
  | .fault _ | .refused _ => none

/-- A point register and `STATUS` after a command. -/
def ptAfter (i : Instr) (s : State) (q : PReg) : Option (Point × Word32) :=
  match exec i s with
  | .next t => some (t.getPt q, t.status)
  | .fault _ | .refused _ => none

/-- Bytes of the buffer as one number, and `STATUS`, after a command. -/
def bufAfter (i : Instr) (s : State) (off len : Nat) : Option (Nat × Word32) :=
  match exec i s with
  | .next t => some (be (t.load off len), t.status)
  | .fault _ | .refused _ => none

/-- The largest register value. -/
def top : Word := BitVec.allOnes 256
def pW : Word := BitVec.ofNat 256 Config.p
def nW : Word := BitVec.ofNat 256 Config.n

/-- `NOP` after a failed `SIGN` (R70). -/
theorem test_nop_clears_err : xAfter .nop { State.reset with status := 0x12 } 0 = some (0, 0) := by decide +kernel

/-- `NOP` on a halted engine keeps `FCODE` (R193). -/
theorem test_nop_halted : xAfter .nop { State.reset with status := 0x00800180 } 0 = some (0, 0x008001FF) := by decide +kernel

/-- R71: no sign extension. -/
theorem test_li : xAfter (.li 1 0xFF) (withX [(1, top)]) 1 = some (255, 0) := by decide +kernel

/-- R72: no reduction. -/
theorem test_mov : xAfter (.mov 2 1) (withX [(1, top)]) 2 = some (top, 0) := by decide +kernel

/-- R73. -/
theorem test_ldw : xAfter (.ldw 3 0x20) (State.reset.store 0x3E [0x01, 0x02]) 3 = some (258, 0) := by decide +kernel

/-- R73: past offset 224. -/
theorem test_ldw_range : xAfter (.ldw 3 225) (withX [(3, 7)]) 3 = some (7, 0x02) := by decide +kernel

/-- R74: the last bytes and the one after them. -/
theorem test_stw : bufAfter (.stw 3 0x40) (withX [(3, 258)]) 0x5D 4 = some (0x00010200, 0) := by decide +kernel

/-- R74: past offset 224. -/
theorem test_stw_range : bufAfter (.stw 3 225) (withX [(3, 258)]) 225 31 = some (0, 0x02) := by decide +kernel

/-- R84. -/
theorem test_fadd : xAfter (.fadd 3 1 2) (withX [(1, pW - 1), (2, 1)]) 3 = some (0, 0) := by decide +kernel

/-- R84: operands above `p`. -/
theorem test_fadd_top : xAfter (.fadd 3 1 1) (withX [(1, top)]) 3 = some (0x2000007A0, 0) := by decide +kernel

/-- R85. -/
theorem test_fsub : xAfter (.fsub 3 1 2) (withX [(1, 5), (2, 7)]) 3 = some (pW - 2, 0) := by decide +kernel

/-- R86. -/
theorem test_fmul : xAfter (.fmul 3 1 2) (withX [(1, 2), (2, 3)]) 3 = some (6, 0) := by decide +kernel

/-- R86: the product is not truncated. -/
theorem test_fmul_top : xAfter (.fmul 3 1 1) (withX [(1, top)]) 3 = some (0x1000007A0000E8900, 0) := by decide +kernel

/-- R87. -/
theorem test_finv : xAfter (.finv 4 1) (withX [(1, 3)]) 4 = some (0xAAAAAAAAAAAAAAAAAAAAAAAAAAAAAAAAAAAAAAAAAAAAAAAAAAAAAAA9FFFFFD75, 0) := by decide +kernel

/-- R87, vector FF2: fatal. -/
theorem test_finv_zero : xAfter (.finv 3 1) (withX [(1, pW), (3, 99)]) 3 = some (99, 0x00800180) := by decide +kernel

/-- R88. -/
theorem test_fred : xAfter (.fred 3 1 2) (withX [(2, pW)]) 3 = some (0, 0) := by decide +kernel

/-- R88: the high half. -/
theorem test_fred_high : xAfter (.fred 3 1 2) (withX [(1, 1)]) 3 = some (0x1000003D1, 0) := by decide +kernel

/-- R89. -/
theorem test_sadd : xAfter (.sadd 3 1 2) (withX [(1, nW - 1), (2, 2)]) 3 = some (1, 0) := by decide +kernel

/-- R90. -/
theorem test_ssub : xAfter (.ssub 3 1 2) (withX [(2, 1)]) 3 = some (nW - 1, 0) := by decide +kernel

/-- R91. -/
theorem test_smul : xAfter (.smul 3 1 2) (withX [(1, 2), (2, BitVec.ofNat 256 (Config.halfN + 1))]) 3 = some (1, 0) := by decide +kernel

/-- R92. -/
theorem test_sinv : xAfter (.sinv 4 1) (withX [(1, 2)]) 4 = some (BitVec.ofNat 256 (Config.halfN + 1), 0) := by decide +kernel

/-- R92, vector FF4: fatal. -/
theorem test_sinv_zero : xAfter (.sinv 3 1) (withX [(1, nW), (3, 99)]) 3 = some (99, 0x00800180) := by decide +kernel

/-- R93. -/
theorem test_sred : xAfter (.sred 3 1 2) (withX [(2, nW + 5)]) 3 = some (5, 0) := by decide +kernel

/-- `2G` and `3G` (R110, R111). -/
def twoG : Point := .aff 0xC6047F9441ED7D6D3045406E95C07CD85C778E4B8CEF3CA7ABAC09B95C709EE5
  0x1AE168FEA63DC339A3C58419466CEAEEF7F632653266D0E1236431A950CFE52A
def threeG : Point := .aff 0xF9308A019258C31049344F85F89D5229B531C845836F99B08601F113BCE036F9
  0x388F7B0F632DE8140FE337E62A37F3566500A99934C2231B6CB9FD7584B8E672
/-- `-G` (R16). -/
def minusG : Point := .aff Config.gx 0xB7C52588D95C3B9AA25B0403F1EEF75702E84BB7597AABE663B82F6F04EF2777

/-- The reset state with `pt[0] = G`. -/
def withG : State := State.reset.setPt 0 generator

/-- R104. -/
theorem test_pinf : ptAfter (.pinf 0) withG 0 = some (.inf, 0) := by decide +kernel

/-- R105. -/
theorem test_pgen : ptAfter (.pgen 2) State.reset 2 = some (.aff Config.gx Config.gy, 0) := by decide +kernel

/-- R106. -/
theorem test_pset : ptAfter (.pset 1 1 2) (withX [(1, 1), (2, 0x4218F20AE6C646B363DB68605822FB14264CA8D2587FDD6FBC750D587E76A7EE)]) 1 =
    some (.aff 1 0x4218F20AE6C646B363DB68605822FB14264CA8D2587FDD6FBC750D587E76A7EE, 0) := by decide +kernel

/-- R106, vector PT30. -/
theorem test_pset_refused : ptAfter (.pset 0 1 2) (withX [(1, pW), (2, 0)]) 0 = some (.inf, 0x04) := by decide +kernel

/-- R107. -/
theorem test_pmov : ptAfter (.pmov 3 0) withG 3 = some (generator, 0) := by decide +kernel

/-- R108. -/
theorem test_pgetx : xAfter (.pgetx 5 0) withG 5 = some (Config.gx, 0) := by decide +kernel

/-- R108, vector PT32. -/
theorem test_pgetx_inf : xAfter (.pgetx 5 2) (withX [(5, 77)]) 5 = some (0, 0) := by decide +kernel

/-- R109. -/
theorem test_pgety : xAfter (.pgety 6 0) withG 6 = some (Config.gy, 0) := by decide +kernel

/-- R110. -/
theorem test_padd : ptAfter (.padd 2 0 1) (withG.setPt 1 twoG) 2 = some (threeG, 0) := by decide +kernel

/-- R110, vector PT6. -/
theorem test_padd_opposite : ptAfter (.padd 2 0 1) (withG.setPt 1 minusG) 2 = some (.inf, 0) := by decide +kernel

/-- R111. -/
theorem test_pdbl : ptAfter (.pdbl 1 0) withG 1 = some (twoG, 0) := by decide +kernel

/-- R124. -/
theorem test_sha256 : bufAfter (.sha256 0x40 0x00 3) (State.reset.store 0 [0x61, 0x62, 0x63]) 0x40 32 =
    some (0xBA7816BF8F01CFEA414140DE5DAE2223B00361A396177A9CB410FF61F20015AD, 0) := by decide +kernel

/-- R125. -/
theorem test_sha256d : bufAfter (.sha256d 0x40 0x00 3) (State.reset.store 0 [0x61, 0x62, 0x63]) 0x40 32 =
    some (0x4F8B42C22DD3729B519BA6F68D2DA7CC5B2D606D05DAED5AD5128CC03E6C6358, 0) := by decide +kernel

/-- R126. -/
theorem test_rmd160 : bufAfter (.rmd160 0x40 0x00 3) (State.reset.store 0 [0x61, 0x62, 0x63]) 0x40 20 =
    some (0x8EB208F7E05D987A9B044A8E98C6B087F15A0BFC, 0) := by decide +kernel

/-- R127. -/
theorem test_hash160 : bufAfter (.hash160 0x40 0x00 3) (State.reset.store 0 [0x61, 0x62, 0x63]) 0x40 20 =
    some (0xBB1BE98C142444D7A56AA3981C3942A978E4DC33, 0) := by decide +kernel

/-- R144. -/
theorem test_dpriv : xAfter (.dpriv 3 1 2) (withX [(1, 0x0101010101010101010101010101010101010101010101010101010101010101), (2, 0x0202020202020202020202020202020202020202020202020202020202020202)]) 3 =
    some (0xF818AFD37A6DC3BC92FB44731011277006DB4EFA6E9023CD7468C02335D22A4D, 0) := by decide +kernel

/-- R144: entropy is reported first. -/
theorem test_dpriv_order : xAfter (.dpriv 3 1 2) State.reset 3 = some (0, 0x10) ∧ xAfter (.dpriv 3 1 2) (withX [(1, 1)]) 3 = some (0, 0x11) := by decide +kernel

/-- R145. -/
theorem test_dpub_refused : ptAfter (.dpub 0 3) (withX [(3, nW)]) 0 = some (.inf, 0x12) := by decide +kernel

/-- R146. -/
theorem test_encu : bufAfter (.encu 0 0x00) withG 0 33 = some (0x04 * 256 ^ 32 + Config.gx.toNat, 0) := by decide +kernel

/-- R146: fatal, and the range first. -/
theorem test_encu_inf : bufAfter (.encu 0 191) State.reset 191 65 = some (0, 0x00810181) ∧ bufAfter (.encu 0 200) State.reset 200 56 = some (0, 0x02) := by decide +kernel

/-- R147. -/
theorem test_encc : bufAfter (.encc 0 0x80) withG 0x80 33 =
    some (0x0279BE667EF9DCBBAC55A06295CE870B07029BFCDB2DCE28D959F2815B16F81798, 0) := by decide +kernel

/-- R147. -/
theorem test_encc_range : bufAfter (.encc 0 224) withG 224 32 = some (0, 0x02) := by decide +kernel

/-- R161. -/
theorem test_genaddr : bufAfter (.genaddr 0x40 0x00 33) (State.reset.store 0 (compressedBytes Config.gx Config.gy)) 0x40 25 =
    some (0x00751E76E8199196D454941C45D1B3A323F1433BD6510D1634, 0) := by decide +kernel

/-- R161: the length is checked before the ranges. -/
theorem test_genaddr_order : bufAfter (.genaddr 0xFF 0xFF 34) State.reset 0 25 = some (0, 0x03) := by decide +kernel

/-- R162. -/
theorem test_genaddrt : bufAfter (.genaddrt 0x80 0x00 65) (State.reset.store 0 (uncompressedBytes Config.gx Config.gy)) 0x80 25 =
    some (0x6F91B24BF9F5288532960AC687ABB035127B1D28A5B1B311BD, 0) := by decide +kernel

/-- R174: the range is checked before the key. -/
theorem test_sign_refused : bufAfter (.sign 1 2 0x00) State.reset 0 65 = some (0, 0x12) ∧ bufAfter (.sign 1 2 192) State.reset 192 64 = some (0, 0x02) := by decide +kernel

/-- R175. -/
theorem test_signtx_refused : bufAfter (.signtx 1 2 0x00 1) (withX [(1, nW)]) 0 66 = some (0, 0x12) ∧ bufAfter (.signtx 1 2 191 1) State.reset 191 65 = some (0, 0x02) := by decide +kernel

/-- R148. -/
theorem test_keypair_refused : bufAfter (.keypair 1 2 101 false false) (withX [(1, 1)]) 101 155 = some (0, 0x11) ∧
    bufAfter (.keypair 1 2 102 false false) (withX [(1, 1)]) 102 154 = some (0, 0x02) := by decide +kernel

/-! ## The commands that take a scalar multiple, by the fast scan of Laws.Fast -/

theorem mul_generator {k : Word} {P : Point} (h : fastMul Config.gx.toNat Config.gy.toNat k.toNat = P) :
    scalarMultiply generator k = .ok P := by
  have := fact_prime_p
  rw [generator, scalarMultiply_eq_fast generator_valid, h]

/-- R112, vector PT21: `k = n + 2`, the one scan that adds equal points. -/
theorem pmul_example : scalarMultiply generator (nW + 2) = .ok twoG := mul_generator (by decide +kernel)

theorem test_pmul : ∃ t, exec (.pmul 1 0 4) (withG.setX 4 (nW + 2)) = .next t ∧ t.getPt 1 = twoG := by
  have hp : (withG.setX 4 (nW + 2)).getPt 0 = generator := by decide +kernel
  have hx : (withG.setX 4 (nW + 2)).getX 4 = nW + 2 := by decide +kernel
  obtain ⟨t, ht, hw⟩ := exec_wrotePt (i := .pmul 1 0 4) (s := withG.setX 4 (nW + 2)) (pd := 1) (P := twoG)
    (by decide +kernel) (by simp only [bodyOf, hp, hx, pmul_example, except_ok_bind])
  exact ⟨t, ht, hw.value⟩

/-- The public key of 32 bytes `0x11` (R145). -/
def key11 : Word := 0x1111111111111111111111111111111111111111111111111111111111111111
def pub11 : Point := .aff 0x4F355BDCB7CC0AF728EF3CCEB9615D90684BB5B2CA5F859AB0F0B704075871AA
  0x385B6B1B8EAD809CA67454D9683FCF2BA03456D6FE2C4ABE2B07F0FBDBB2F1C1

theorem dpub_example : derivePublicKey key11 = .ok pub11 := by
  rw [derivePublicKey, if_pos (by decide +kernel), mul_generator (P := pub11) (by decide +kernel)]; rfl

theorem test_dpub : ∃ t, exec (.dpub 0 3) (withX [(3, key11)]) = .next t ∧ t.getPt 0 = pub11 := by
  have hx : (withX [(3, key11)]).getX 3 = key11 := by decide +kernel
  obtain ⟨t, ht, hw⟩ := exec_wrotePt (i := .dpub 0 3) (s := withX [(3, key11)]) (pd := 0) (P := pub11)
    (by decide +kernel) (by simp only [bodyOf, hx, dpub_example, except_ok_bind])
  exact ⟨t, ht, hw.value⟩

/-- Entropy and salt of the example of R144 and R148, the key they derive and its public key. -/
def entropy : Word := 0x0101010101010101010101010101010101010101010101010101010101010101
def salt : Word := 0x0202020202020202020202020202020202020202020202020202020202020202
def derived : Word := 0xF818AFD37A6DC3BC92FB44731011277006DB4EFA6E9023CD7468C02335D22A4D
def derivedX : Word := 0xE6A9D38AFDE596D93A7795BA4594BBEA8AB3F92CF8259C49A23DDB07D7EF9522
def derivedY : Word := 0x73E7355B86E116678AC7979BAF996329591FF1E4DE61A3F620F802D7DF183E2C
def derivedPub : Point := .aff derivedX derivedY

theorem sha_example : be (sha256 (wordBytes entropy ++ wordBytes salt)) = derived.toNat := by decide +kernel

theorem derive_example : derivePrivateKey entropy salt = .ok derived := by
  have h : kdfDigest entropy salt 0 = derived.toNat := by
    rw [kdfDigest_eq, kdfMessage, if_pos rfl, sha_example]; decide +kernel
  rw [derivePrivateKey, if_neg (by decide +kernel), if_neg (by decide +kernel)]
  show kdfLoop _ (3 + 1) 0 = _
  rw [kdfLoop_stop (by rw [h]; decide +kernel), h]
  simp

theorem derived_public : derivePublicKey derived = .ok derivedPub := by
  rw [derivePublicKey, if_pos (by decide +kernel), mul_generator (P := derivedPub) (by decide +kernel)]; rfl

/-- The record of R148's example, `flags = 2`: the key, its two encodings and the mainnet address of the compressed one. -/
theorem address_example : addressPayload (compressedBytes derivedX derivedY) false =
    bytesBe 0x0060601C83676BCDC541D0DDCB94BC213CB391468473D24B7B 25 := by decide +kernel

theorem test_keypair : ∃ t, exec (.keypair 1 2 0x00 false true) (withX [(1, entropy), (2, salt)]) = .next t ∧
    t.bytesAt 0 155 = wordBytes derived ++ uncompressedBytes derivedX derivedY ++ compressedBytes derivedX derivedY ++
      bytesBe 0x0060601C83676BCDC541D0DDCB94BC213CB391468473D24B7B 25 := by
  have h1 : (withX [(1, entropy), (2, salt)]).getX 1 = entropy := by decide +kernel
  have h2 : (withX [(1, entropy), (2, salt)]).getX 2 = salt := by decide +kernel
  obtain ⟨t, ht, hw⟩ := exec_wroteBuf (i := .keypair 1 2 0x00 false true) (s := withX [(1, entropy), (2, salt)]) (off := 0)
    (by decide +kernel) (by decide +kernel) (by
      rw [bodyOf, checkRange_ok (by decide), h1, h2, keypairBytes, derive_example, except_ok_bind, except_ok_bind,
        derived_public, except_ok_bind, derivedPub, encodeUncompressed_aff, except_ok_bind, encodeCompressed_aff,
        except_ok_bind, except_ok_bind, if_pos rfl, address_example]; rfl)
  exact ⟨t, ht, hw.bytesAt⟩

/-! ## The signature of R172 and R174: key 1, SHA-256 of "Satoshi Nakamoto" -/

def digest : Word := 0xA0DC65FFCA799873CBEA0AC274015B9526505DAAAED385155425F7337704883E
def nonce : Word := 0x8F8A276C19F4149656B280621E358CCE24F5F52542772691EE69063B74F15D15
def signature : Signature where
  r := 0x934B1EA10A4B3C1757E2B0C017D0B6143CE3C9A7E6A4A49860D7A6AB210EE3D8
  s := 0x2442CE9D2B916064108014783E923EC36B49743E2FFA1C4496F01A512AAFD9E5
  v := true

/-- The generator's state after `NonceInit`, in the steps of R172's worked values. -/
def nonceK1 : Bytes := bytesBe 0x0B663006E369D6851668B59760C0CFBAA5D09E23E6F916443B3DE4D558BF91B7 32
def nonceV1 : Bytes := bytesBe 0x616CAD1051AEBE08197D002DBDB90BDC2BB6B65B3D768C518863056A840C03F0 32
def nonceK2 : Bytes := bytesBe 0xF457C01688026EE0B9236E5C7FF1478007AD0B697855F592EFA9468ECF0C1F86 32
def nonceV2 : Bytes := bytesBe 0xA196437A8F26FBC9E519E4FD4B5D10D62E6A5306C98CA431B96131F403BFF4AE 32

theorem test_nonce_k1 : hmacSha256 (rep 0x00 32) (rep 0x01 32 ++ [0x00] ++ wordBytes 1 ++ wordBytes digest) = nonceK1 := by
  decide +kernel
theorem test_nonce_v1 : hmacSha256 nonceK1 (rep 0x01 32) = nonceV1 := by decide +kernel
theorem test_nonce_k2 : hmacSha256 nonceK1 (nonceV1 ++ [0x01] ++ wordBytes 1 ++ wordBytes digest) = nonceK2 := by
  decide +kernel
theorem test_nonce_v2 : hmacSha256 nonceK2 nonceV1 = nonceV2 := by decide +kernel
theorem test_nonce_candidate : hmacSha256 nonceK2 nonceV2 = wordBytes nonce := by decide +kernel

theorem candidate_example : candidateAt 1 digest 0 = nonce := by
  simp only [candidateAt, nonceStateAt, nonceInit, nonceMix, nonceCandidate, test_nonce_k1, test_nonce_v1, test_nonce_k2,
    test_nonce_v2, test_nonce_candidate, beWord_wordBytes]

theorem digest_reduced : digestScalar digest = digest := by decide +kernel

/-- The first candidate gives the signature of R174's example. -/
theorem test_accepts : Accepts 1 digest (candidateAt 1 digest 0) signature := by
  rw [candidate_example]
  have h : signWith 1 digest nonce = .ok (some signature) := by
    rw [signWith, if_pos (by decide +kernel), mul_generator rfl]
    decide +kernel
  rcases signWith_spec 1 digest nonce with ⟨sig, ha, e⟩ | ⟨-, e⟩
  · rw [h] at e; cases e; exact ha
  · rw [h] at e; cases e

theorem sign_example : sign 1 digest = .ok signature :=
  sign_ok digest_reduced.symm ((validKey_iff 1).1 (by decide +kernel)) (j := 0) (by decide) (fun _ h => absurd h (by omega)) test_accepts

/-- What `SIGN` and `SIGNTX` write for the example: `r`, `s`, `v = 01`, and the sighash byte last (R174 to R176). -/
theorem test_sign : ∃ t, exec (.sign 1 2 0x00) (withX [(1, 1), (2, digest)]) = .next t ∧
    t.bytesAt 0 65 = wordBytes signature.r ++ wordBytes signature.s ++ [0x01] := by
  have h1 : (withX [(1, 1), (2, digest)]).getX 1 = 1 := by decide +kernel
  have h2 : (withX [(1, 1), (2, digest)]).getX 2 = digest := by decide +kernel
  obtain ⟨t, ht, hw⟩ := exec_wroteBuf (i := .sign 1 2 0x00) (s := withX [(1, 1), (2, digest)]) (off := 0)
    (bs := serializeSig signature) (by decide +kernel) (by decide +kernel) (by
      simp only [bodyOf, h1, h2, sign_example, except_ok_bind]; rfl)
  exact ⟨t, ht, hw.bytesAt⟩

theorem test_signtx : ∃ t, exec (.signtx 1 2 0x40 1) (withX [(1, 1), (2, digest)]) = .next t ∧
    t.bytesAt 64 66 = wordBytes signature.r ++ wordBytes signature.s ++ [0x01] ++ [0x01] := by
  have h1 : (withX [(1, 1), (2, digest)]).getX 1 = 1 := by decide +kernel
  have h2 : (withX [(1, 1), (2, digest)]).getX 2 = digest := by decide +kernel
  obtain ⟨t, ht, hw⟩ := exec_wroteBuf (i := .signtx 1 2 0x40 1) (s := withX [(1, 1), (2, digest)]) (off := 64)
    (bs := serializeTx signature 1) (by decide +kernel) (by decide +kernel) (by
      simp only [bodyOf, h1, h2, sign_example, except_ok_bind]; rfl)
  exact ⟨t, ht, hw.bytesAt⟩

/-! ## Witnesses: states and operands that meet the hypotheses of the statements, each clause at the ends of its range. The one
clause without a witness is the exhausted retry of `DPRIV`, `KEYPAIR`, `SIGN` and `SIGNTX`: the spec knows no input that reaches it
(R144, R173). -/

/-- A halted engine. -/
def stopped : State := { State.reset with status := 0x00800180 }

theorem ready : State.reset.halted = false ∧ State.reset.buf.wf := by decide +kernel

theorem points_withG : withG.PointsOnCurve := by
  intro q
  have hq : withG.getPt q = generator ∨ withG.getPt q = .inf := by revert q; decide +kernel
  rcases hq with h | h <;> rw [h]
  · exact generator_onCurve
  · trivial

/-- For every statement that asks for no more than an engine that is not halted: `NOP`, `LI`, `MOV`, the modular commands but the
inverses, `PINF`, `PGEN`, `PMOV`; and for the halted and illegal clauses of `CommandForm`. (Format B has no illegal word, R52.) -/
theorem test_witness_CommandForm : State.reset.halted = false ∧ stopped.halted = true ∧
    (0x01100105 : Word32).extractLsb' 24 8 = 0x01#8 ∧ (0x01100105 : Word32) &&& 0xFF0FFF00 ≠ 0x01#8 ++ 0#24 := by decide +kernel

theorem test_witness_EncodeOfDecode : decode 0x61124001 = .ok (.signtx 1 2 0x40 1) := by decide

theorem test_witness_LegalWordMatchesItsOnlyRow : decode 0x01100005 = .ok (.li 1 5) ∧
    (⟨0x01000000, 0xFF0FFF00⟩ : OpcodeRow) ∈ opcodeTable ∧ (0x01100005 : Word32) &&& 0xFF0FFF00 = 0x01000000 := by decide

theorem test_witness_IllegalWordRaisesIllegal : State.reset.halted = false ∧
    (∀ r ∈ opcodeTable, (0xFFFFFFFF : Word32) &&& r.mask ≠ r.pattern) ∧
    (∀ r ∈ opcodeTable, (0x60120001 : Word32) &&& r.mask ≠ r.pattern) ∧
    decode 0x2A104000 = .ok (.pmul 1 0 4) ∧ decode 0x43000080 = .ok (.encc 0 0x80) ∧
    decode 0x60120000 = .ok (.sign 1 2 0) ∧ decode 0x44120003 = .ok (.keypair 1 2 0 true true) := by decide +kernel

theorem test_witness_FormatSLastByte : (1 : Byte) ≠ 0 ∧ (3 : Byte).extractLsb' 2 6 = 0 ∧ (4 : Byte).extractLsb' 2 6 ≠ 0 := by
  decide

theorem test_witness_StepRunsDecodedCommand :
    ({ State.reset with pending := [.write cmdWa 0x01100005] } : State).pending = .write cmdWa 0x01100005 :: [] ∧
    decode 0x01100005 = .ok (.li 1 5) := by decide

theorem test_witness_StepDeliversTheNextEvent :
    ({ State.reset with pending := [.read 0xC1] } : State).pending = .read 0xC1 :: [] ∧
    ({ State.reset with pending := [.write 0 5] } : State).pending = .write 0 5 :: [] ∧ State.reset.pending = [] := by decide

theorem test_witness_HostWindow : State.reset.buf.wf ∧ (0xC3 : BitVec 8) ≤ 0xC3 ∧ (0xC3 : BitVec 8) ≤ 0xFF := by decide +kernel

theorem test_witness_HostReadReturnsLatestWrite : State.reset.buf.wf ∧ (0 : BitVec 8).toNat < 192 ∧
    (191 : BitVec 8).toNat < 192 ∧ (0 : BitVec 8) ≠ 191 ∧ (∃ t, hostWrite State.reset 0 5 = .next t) ∧
    ∃ t, hostWrite State.reset 191 5 = .next t :=
  ⟨ready.2, by decide, by decide, by decide, ⟨_, rfl⟩, ⟨_, rfl⟩⟩

theorem test_witness_ResetEventClearsEverything :
    ({ stopped with pending := [.reset] } : State).pending = .reset :: [] := by decide

theorem test_witness_ResultCodesAndTheirCommands : (∃ t, exec (.ldw 0 225) State.reset = .next t) ∧
    ∃ t, issue 0xFFFFFFFF State.reset = .next t := ⟨exec_next _ _, issue_next _ _⟩

/-- `FINV` of 0 at reset is fatal. -/
theorem finv_fatal : ∃ t, exec (.finv 0 0) State.reset = .next t ∧ Raised State.reset t .fInvZero :=
  exec_raises ready.1 (by decide +kernel)

theorem test_witness_FatalFailureHaltsUntilReset : State.reset.halted = false ∧
    (∃ t, exec (.finv 0 0) State.reset = .next t ∧ errOf t.status = Cause.code .fInvZero) ∧ stopped.halted = true ∧
    (0 : BitVec 8).toNat < 192 ∧ (191 : BitVec 8).toNat < 192 ∧
    step stopped = .next stopped ∧ (∀ rest, stopped.pending ≠ .reset :: rest) ∧
    ({ stopped with pending := [.reset] } : State).pending = .reset :: [] := by
  obtain ⟨t, ht, hr⟩ := finv_fatal
  exact ⟨ready.1, ⟨t, ht, hr.err⟩, by decide +kernel, by decide, by decide, rfl, (fun rest h => by cases h), by decide⟩

theorem test_witness_ReachableFatalFailures : withG.PointsOnCurve ∧ withG.halted = false ∧
    ∃ t, exec (.finv 0 0) withG = .next t ∧ t.halted = true := by
  obtain ⟨t, ht, hr⟩ := exec_raises (i := .finv 0 0) (s := withG) (c := .fInvZero) (by decide +kernel) (by decide +kernel)
  exact ⟨points_withG, by decide +kernel, t, ht, (hr.fatal rfl).1⟩

/-- One failure of each of the five checks, and a word that passes them all. -/
theorem test_witness_FirstFailingCheckIsReported : FirstFailure 0x00000000 stopped .eHalted ∧
    FirstFailure 0xFFFFFFFF State.reset .eIllegal ∧ FirstFailure 0x5000FFFF State.reset .eLen ∧
    FirstFailure 0x030000E1 State.reset .eRange ∧ FirstFailure 0x40312000 State.reset .eEntropy ∧
    FirstFailure 0x22112000 State.reset .eNotOnCurve ∧ ∀ c, ¬ FirstFailure 0x00000000 State.reset c := by
  refine ⟨.halted (by decide +kernel), .illegal (by decide +kernel) (by decide +kernel),
    .len (i := .genaddr 0xFF 0 0xFF) (by decide +kernel) (by decide) (by decide),
    .range (i := .ldw 0 225) (by decide +kernel) (by decide) (by decide) (by decide),
    .operands (i := .dpriv 3 1 2) (by decide +kernel) (by decide) (by decide) (.inl ⟨by decide +kernel, rfl⟩),
    .operands (i := .pset 1 1 2) (by decide +kernel) (by decide) (by decide) ⟨fun h => absurd h.2.2 (by decide +kernel), rfl⟩,
    fun c h => ?_⟩
  have hd : decode 0x00000000 = .ok .nop := by decide
  cases h with
  | halted h => exact absurd h (by decide +kernel)
  | illegal _ h => exact absurd h (by decide +kernel)
  | len _ h h' => rw [hd] at h; cases h; cases h'
  | range _ h _ h' => rw [hd] at h; cases h; cases h'
  | operands _ h _ h' => rw [hd] at h; cases h; exact h'

theorem test_witness_EveryStepKeepsInvariant : withG.Inv ∧ ∃ t, step withG = .next t :=
  ⟨⟨points_withG, by decide +kernel, ⟨by decide +kernel, .inl (by decide +kernel), by decide +kernel,
    fun h => absurd h (by decide +kernel)⟩⟩, _, rfl⟩

theorem test_witness_PointRegistersStayOnCurve : withG.PointsOnCurve ∧ ∃ t, step withG = .next t := ⟨points_withG, _, rfl⟩

theorem test_witness_CommandWritesOnlyItsDestinations : State.reset.buf.wf ∧
    ∃ t, exec (.stw 0 224) State.reset = .next t := ⟨ready.2, exec_next _ _⟩

theorem test_witness_RegisterHoldsUntilWritten :
    ∃ t, step { State.reset with pending := [.write 0 5] } = .next t ∧
      t.getX 0 ≠ State.getX { State.reset with pending := [.write 0 5] } 0 := ⟨_, rfl, by decide +kernel⟩

/-- Two states that differ outside the sources, for a command on registers and for one on the buffer. -/
theorem test_witness_CommandDependsOnlyOnItsSources :
    (withX [(1, 1)]).buf.wf ∧ (withX [(1, 1), (5, 7)]).buf.wf ∧ (withX [(1, 1)]).halted = (withX [(1, 1), (5, 7)]).halted ∧
    (∀ r ∈ (Instr.mov 2 1).srcX, (withX [(1, 1)]).getX r = (withX [(1, 1), (5, 7)]).getX r) ∧
    (State.reset.store 0 [1, 2]).buf.wf ∧
    (∀ k : Nat, k < (Instr.sha256 0 0 1).srcBuf.2 → (State.reset.store 0 [1, 2]).byteAt ((Instr.sha256 0 0 1).srcBuf.1 + k) =
      (State.reset.store 0 [1, 3]).byteAt ((Instr.sha256 0 0 1).srcBuf.1 + k)) := by
  refine ⟨by decide +kernel, by decide +kernel, by decide +kernel, by decide +kernel, by decide +kernel, fun k hk => ?_⟩
  have : k = 0 := by have : k < 1 := hk; omega
  subst this; decide +kernel

theorem test_witness_LdwLoadsBigEndian : State.reset.halted = false ∧ (0 : Byte).toNat ≤ 224 ∧ (224 : Byte).toNat ≤ 224 ∧
    224 < (225 : Byte).toNat := by decide +kernel

theorem test_witness_StwStoresBigEndian : State.reset.halted = false ∧ State.reset.buf.wf ∧ (224 : Byte).toNat ≤ 224 ∧
    224 < (225 : Byte).toNat := by decide +kernel

theorem test_witness_FinvWritesUniqueInverse : (withX [(1, 1)]).halted = false ∧ ((withX [(1, 1)]).getX 1).toNat % Config.p ≠ 0 ∧
    ((withX [(1, top)]).getX 1).toNat % Config.p ≠ 0 ∧ ((withX [(1, pW)]).getX 1).toNat % Config.p = 0 ∧
    ((withX [(1, 0)]).getX 1).toNat % Config.p = 0 := by decide +kernel

theorem test_witness_SinvWritesUniqueInverse : (withX [(1, 1)]).halted = false ∧ ((withX [(1, 1)]).getX 1).toNat % Config.n ≠ 0 ∧
    ((withX [(1, top)]).getX 1).toNat % Config.n ≠ 0 ∧ ((withX [(1, nW)]).getX 1).toNat % Config.n = 0 ∧
    ((withX [(1, 0)]).getX 1).toNat % Config.n = 0 := by decide +kernel

theorem test_witness_PsetChecksTheCurve : State.reset.halted = false ∧ OnCurve Config.gx Config.gy ∧ ¬ OnCurve 0 0 ∧
    ¬ OnCurve pW 0 := by
  refine ⟨ready.1, generator_onCurve, fun h => absurd h.2.2 (by decide +kernel), fun h => absurd h.1 (by decide +kernel)⟩

theorem test_witness_PgetReadsCoordinate : withG.halted = false ∧ withG.getPt 0 = .aff Config.gx Config.gy ∧
    withG.getPt 1 = .inf := by decide +kernel

theorem twoG_onCurve : twoG.OnCurve := (onCurve_iff_OnCurve _ _).1 (by decide +kernel)

/-- Different points, equal points and the identity. -/
theorem test_witness_PaddWritesTheSum : (withG.setPt 1 twoG).halted = false ∧ ((withG.setPt 1 twoG).getPt 0).OnCurve ∧
    ((withG.setPt 1 twoG).getPt 1).OnCurve ∧ ((withG.setPt 1 twoG).getPt 2).OnCurve := by
  refine ⟨by decide +kernel, ?_, ?_, ?_⟩
  · rw [show (withG.setPt 1 twoG).getPt 0 = generator by decide +kernel]; exact generator_onCurve
  · rw [show (withG.setPt 1 twoG).getPt 1 = twoG by decide +kernel]; exact twoG_onCurve
  · rw [show (withG.setPt 1 twoG).getPt 2 = .inf by decide +kernel]; trivial

/-- The guard for `y = 0` is met only in a state no run reaches. -/
theorem test_witness_PdblWritesTheDouble : withG.halted = false ∧ (withG.getPt 0).OnCurve ∧ (withG.getPt 1).OnCurve ∧
    (State.reset.setPt 0 (.aff 1 0)).halted = false ∧ (State.reset.setPt 0 (.aff 1 0)).getPt 0 = .aff 1 0 :=
  ⟨by decide +kernel, points_withG 0, points_withG 1, by decide +kernel, by decide +kernel⟩

theorem test_witness_PmulWritesTheMultiple : withG.halted = false ∧ (withG.getPt 0).OnCurve ∧ (withG.getPt 1).OnCurve :=
  ⟨by decide +kernel, points_withG 0, points_withG 1⟩

theorem test_witness_HashCommandsWriteDigest : State.reset.halted = false ∧ State.reset.buf.wf ∧
    (1 : Byte).toNat + (255 : Byte).toNat ≤ 256 ∧ (224 : Byte).toNat + 32 ≤ 256 ∧ (236 : Byte).toNat + 20 ≤ 256 ∧
    256 < (2 : Byte).toNat + (255 : Byte).toNat ∧ 256 < (225 : Byte).toNat + 32 ∧ 256 < (237 : Byte).toNat + 20 := by
  decide +kernel

theorem derives_example : Derives entropy salt derived.toNat := by
  have h : kdfDigest entropy salt 0 = derived.toNat := by
    rw [kdfDigest_eq, kdfMessage, if_pos rfl, sha_example]; decide +kernel
  exact ⟨0, by decide, fun j hj => absurd hj (by omega), by rw [h]; decide +kernel, h.symm⟩

theorem test_witness_DprivDerivesPrivateKey : (withX [(1, entropy), (2, salt)]).halted = false ∧
    (withX [(1, entropy), (2, salt)]).getX 1 ≠ 0 ∧ (withX [(1, entropy), (2, salt)]).getX 2 ≠ 0 ∧
    Derives ((withX [(1, entropy), (2, salt)]).getX 1) ((withX [(1, entropy), (2, salt)]).getX 2) derived.toNat ∧
    State.reset.getX 1 = 0 ∧ (withX [(1, 1)]).getX 1 ≠ 0 ∧ (withX [(1, 1)]).getX 2 = 0 := by
  refine ⟨by decide +kernel, by decide +kernel, by decide +kernel, ?_, by decide +kernel, by decide +kernel, by decide +kernel⟩
  rw [show (withX [(1, entropy), (2, salt)]).getX 1 = entropy by decide +kernel,
    show (withX [(1, entropy), (2, salt)]).getX 2 = salt by decide +kernel]
  exact derives_example

/-- 1 and `n - 1` are private keys, 0 and `n` are not. -/
theorem test_witness_DpubWritesFinitePublicKey : State.reset.halted = false ∧ IsPrivateKey 1 ∧ IsPrivateKey (nW - 1) ∧
    ¬ IsPrivateKey 0 ∧ ¬ IsPrivateKey nW := by
  refine ⟨ready.1, (validKey_iff _).1 (by decide +kernel), (validKey_iff _).1 (by decide +kernel),
    (validKey_eq_false _).1 (by decide +kernel), (validKey_eq_false _).1 (by decide +kernel)⟩

theorem test_witness_EncodingsOfPoint : withG.halted = false ∧ withG.buf.wf ∧ withG.getPt 0 = .aff Config.gx Config.gy ∧
    withG.getPt 1 = .inf ∧ (191 : Byte).toNat ≤ 191 ∧ 191 < (192 : Byte).toNat ∧ (223 : Byte).toNat ≤ 223 ∧
    223 < (224 : Byte).toNat := by decide +kernel

theorem test_witness_KeypairWritesItsRecord : (withX [(1, entropy), (2, salt)]).buf.wf ∧ (101 : Byte).toNat ≤ 101 ∧
    101 < (102 : Byte).toNat ∧ Derives entropy salt derived.toNat ∧ (withX [(1, entropy), (2, salt)]).getX 1 = entropy ∧
    (withX [(1, entropy), (2, salt)]).getX 2 = salt ∧ entropy ≠ 0 ∧ salt ≠ 0 :=
  ⟨by decide +kernel, by decide, by decide, derives_example, by decide +kernel, by decide +kernel, by decide +kernel,
    by decide +kernel⟩

theorem test_witness_AddressCommandsWritePayload : State.reset.halted = false ∧ State.reset.buf.wf ∧
    (33 : Byte).toNat = 33 ∧ (65 : Byte).toNat = 65 ∧ ((34 : Byte).toNat ≠ 33 ∧ (34 : Byte).toNat ≠ 65) ∧
    (223 : Byte).toNat + (33 : Byte).toNat ≤ 256 ∧ 256 < (224 : Byte).toNat + (33 : Byte).toNat ∧
    (231 : Byte).toNat + 25 ≤ 256 ∧ 256 < (232 : Byte).toNat + 25 := by decide +kernel

theorem test_witness_AddressChecksumIsOfItsBody : State.reset.halted = false ∧ State.reset.buf.wf ∧
    ∃ t, exec (if true then .genaddrt 231 0 33 else .genaddr 231 0 33) State.reset = .next t ∧ errOf t.status = 0x00 := by
  obtain ⟨t, ht, hw⟩ := exec_wroteBuf (i := .genaddrt 231 0 33) (s := State.reset) (off := 231)
    (bs := addressPayload (State.reset.load 0 33) true) ready.1 ready.2 rfl
  exact ⟨ready.1, ready.2, t, ht, hw.err⟩

theorem test_witness_SignCommandsWriteSignature : (withX [(1, 1), (2, digest)]).halted = false ∧
    (withX [(1, 1), (2, digest)]).buf.wf ∧ (withX [(1, 1), (2, digest)]).getX 1 = 1 ∧
    digest.toNat = ((withX [(1, 1), (2, digest)]).getX 2).toNat % Config.n ∧ IsPrivateKey 1 ∧ ¬ IsPrivateKey 0 ∧
    Accepts 1 digest (candidateAt 1 digest 0) signature ∧ (191 : Byte).toNat ≤ 191 ∧ 191 < (192 : Byte).toNat ∧
    (190 : Byte).toNat ≤ 190 ∧ 190 < (191 : Byte).toNat :=
  ⟨by decide +kernel, by decide +kernel, by decide +kernel, by decide +kernel, (validKey_iff _).1 (by decide +kernel),
    (validKey_eq_false _).1 (by decide +kernel), test_accepts, by decide, by decide, by decide, by decide⟩

/-- The example's signature, with the points its verification adds. -/
theorem test_witness_SignatureIsCanonicalAndVerifies :
    ∃ (t : State) (r sg w : Nat) (Q A B R : Point),
      exec (.sign 1 2 0) (withX [(1, 1), (2, digest)]) = .next t ∧ errOf t.status = 0x00 ∧ r = be (t.bytesAt 0 32) ∧
      sg = be (t.bytesAt (0 + 32) 32) ∧ (sg * w) % Config.n = 1 ∧
      KFold generator ((withX [(1, 1), (2, digest)]).getX 1).toNat Q ∧
      KFold generator (((withX [(1, 1), (2, digest)]).getX 2).toNat % Config.n * w % Config.n) A ∧
      KFold Q (r * w % Config.n) B ∧ IsSum A B R := by
  have := fact_prime_p
  have h1 : (withX [(1, 1), (2, digest)]).getX 1 = 1 := by decide +kernel
  have h2 : (withX [(1, 1), (2, digest)]).getX 2 = digest := by decide +kernel
  obtain ⟨t, ht, hw⟩ := exec_wroteBuf (i := .sign 1 2 0x00) (s := withX [(1, 1), (2, digest)]) (off := 0)
    (bs := serializeSig signature) (by decide +kernel) (by decide +kernel) (by
      simp only [bodyOf, h1, h2, sign_example, except_ok_bind]; rfl)
  have hs : t.bytesAt (0 + 32) 32 = wordBytes signature.s := by
    apply List.ext_getElem (by simp [State.bytesAt])
    intro k h1 _
    have hk : k < 32 := by simpa [State.bytesAt] using h1
    have := hw.written (32 + k) (by simp; omega)
    simp only [State.bytesAt, List.getElem_map, List.getElem_range, serializeSig, List.getElem_append] at this ⊢
    simp at this
    rw [show 0 + 32 + k = 32 + k by omega, this, dif_pos (by omega)]
  obtain ⟨Q, hQ⟩ := kFold_exists generator_valid ((withX [(1, 1), (2, digest)]).getX 1).toNat
  obtain ⟨w, hwi⟩ : ∃ w, (signature.s.toNat * w) % Config.n = 1 := ⟨(modPowScan Config.n signature.s (Config.n - 2) 256 1).toNat, by
    decide +kernel⟩
  obtain ⟨A, hA⟩ := kFold_exists generator_valid (((withX [(1, 1), (2, digest)]).getX 2).toNat % Config.n * w % Config.n)
  have vQ := ((kFold_iff generator_valid _ _).1 hQ).1
  obtain ⟨B, hB⟩ := kFold_exists vQ (be (t.bytesAt 0 32) * w % Config.n)
  obtain ⟨R, hR⟩ := isSum_exists ((kFold_iff generator_valid _ _).1 hA).1 ((kFold_iff vQ _ _).1 hB).1
  exact ⟨t, _, _, w, Q, A, B, R, ht, hw.err, rfl, rfl, by rw [hs, be_wordBytes]; exact hwi, hQ, hA, hB, hR⟩

end Sys2Proof.Tests
end

section
/-! SUPPORT. How a predicate of the state is kept along a step: seven closure conditions, one for each elementary update a host
event can make, and the one case analysis of `step`, `issue` and `exec` that rests on them. -/

namespace Sys2Proof.Machine

/-- The elementary updates of a step all keep `P`: the host's lists moving on, reset, a write to a register, to a point register by
a command, to the buffer inside its 256 bytes, and the two ways `STATUS` is written. -/
structure StepClosed (P : State → Prop) : Prop where
  host : ∀ (s : State) (pending : List HostEvent) (replies : List Word32), P s → P { s with pending := pending, replies := replies }
  reset : P State.reset
  setX : ∀ (s : State) (rd : XReg) (v : Word), P s → P (s.setX rd v)
  setPt : ∀ (i : Instr) (s : State) (pd : PReg) (Q : Point), P s → bodyOf i s = .ok (s.setPt pd Q) → i.destPt = some pd →
    P (s.setPt pd Q)
  store : ∀ (s : State) (off : Nat) (bs : Bytes), P s → off + bs.length ≤ 256 → P (s.store off bs)
  succeed : ∀ s : State, P s → P s.succeed
  raise : ∀ (s : State) (c : Cause), P s → P (s.raise c)

namespace StepClosed

variable {P : State → Prop} (hP : StepClosed P)
include hP

theorem body {i : Instr} {s t : State} (hs : P s) (h : bodyOf i s = .ok t) : P t := by
  obtain ⟨rd, v, -, -, -, rfl⟩ | ⟨pd, Q, -, hpd, -, rfl⟩ | ⟨off, bs, -, -, -, hin, rfl⟩ | ⟨-, -, -, rfl⟩ := body_ok h
  · exact hP.setX s rd v hs
  · exact hP.setPt i s pd Q hs h hpd
  · exact hP.store s off bs hs hin
  · exact hs

theorem exec {i : Instr} {s t : State} (hs : P s) (h : exec i s = .next t) : P t := by
  obtain ⟨-, he⟩ | ⟨-, u, hu, he⟩ | ⟨-, c, -, he⟩ := exec_cases i s <;> cases he.symm.trans h
  · exact hP.raise s .eHalted hs
  · exact hP.succeed u (hP.body hs hu)
  · exact hP.raise s c hs

theorem issue {w : Word32} {s t : State} (hs : P s) (h : issue w s = .next t) : P t := by
  obtain ⟨-, he⟩ | ⟨-, i, -, he⟩ | ⟨-, -, he⟩ := issue_cases w s
  · cases he.symm.trans h
    exact hP.raise s .eHalted hs
  · exact hP.exec hs (he.symm.trans h)
  · cases he.symm.trans h
    exact hP.raise s .eIllegal hs

theorem hostWrite {wa : BitVec 8} {d : Word32} {s t : State} (hs : P s) (h : hostWrite s wa d = .next t) : P t := by
  obtain ⟨i, j, -, he⟩ | ⟨k, -, he⟩ | ⟨-, he⟩ | he := hostWrite_cases s wa d
  · cases he.symm.trans h
    exact hP.setX s i _ hs
  · cases he.symm.trans h
    exact hP.store s _ _ hs (by rw [length_bytesBe]; omega)
  · exact hP.issue hs (he.symm.trans h)
  · cases he.symm.trans h
    exact hs

/-- What every elementary update keeps, every step keeps. -/
theorem step {s t : State} (hs : P s) (h : step s = .next t) : P t := by
  obtain ⟨-, he⟩ | ⟨wa, rest, -, he⟩ | ⟨wa, d, rest, -, he⟩ | ⟨rest, -, he⟩ := step_cases s
  · cases he.symm.trans h
    exact hs
  · cases he.symm.trans h
    exact hP.host s _ _ hs
  · exact hP.hostWrite (hP.host s rest s.replies hs) (he.symm.trans h)
  · cases he.symm.trans h
    exact hP.host State.reset _ _ hP.reset

end StepClosed

end Sys2Proof.Machine
end

section
/-! SUPPORT. The three parts of the invariant, each kept by every elementary update of a step: points on the curve (R21), the buffer
in canonical form (R14), the rules of `STATUS` (R15, R191). -/

namespace Sys2Proof.Machine

/-! ## Points on the curve: the group functions do not leave it -/

theorem pointDouble_onCurve {P R : Point} (hP : P.OnCurve) (h : pointDouble P = .ok R) : R.OnCurve := by
  have := fact_prime_p
  obtain ⟨D, hD, hv, -⟩ := pointDouble_spec ((Point.valid_iff P).2 hP)
  cases hD.symm.trans h
  exact (Point.valid_iff R).1 hv

theorem pointAdd_onCurve {P Q R : Point} (hP : P.OnCurve) (hQ : Q.OnCurve) (h : pointAdd P Q = .ok R) : R.OnCurve := by
  have := fact_prime_p
  obtain ⟨S, hS, hv, -⟩ := pointAdd_spec ((Point.valid_iff P).2 hP) ((Point.valid_iff Q).2 hQ)
  cases hS.symm.trans h
  exact (Point.valid_iff R).1 hv

theorem scalarMultiply_onCurve {P R : Point} (hP : P.OnCurve) {k : Word} (h : scalarMultiply P k = .ok R) : R.OnCurve := by
  have := fact_prime_p
  obtain ⟨M, hM, hv, -⟩ := scalarMultiply_spec ((Point.valid_iff P).2 hP) k
  cases hM.symm.trans h
  exact (Point.valid_iff R).1 hv

/-- `DPUB` writes a point of the curve: a key it accepts lies in `[1, n)`, and its multiple of `G` is on the curve (R145). -/
theorem derivePublicKey_onCurve {d : Word} {R : Point} (h : derivePublicKey d = .ok R) : R.OnCurve := by
  by_cases hd : IsPrivateKey d
  · obtain ⟨x, y, hxy, -, hc⟩ := derivePublicKey_ok hd
    cases hxy.symm.trans h
    exact hc
  · cases (derivePublicKey_refused hd).symm.trans h

/-- Each command that names a point register leaves a point of the curve there (R104 to R107, R110 to R112, R145). -/
theorem body_destPt_onCurve {i : Instr} {s t : State} {pd : PReg} (hs : s.PointsOnCurve) (h : bodyOf i s = .ok t)
    (hd : i.destPt = some pd) : (t.getPt pd).OnCurve := by
  have written : ∀ {Q : Point} {q : PReg}, some q = some pd → Q.OnCurve → ((s.setPt q Q).getPt pd).OnCurve := by
    rintro Q _ ⟨⟩ hQ
    rwa [State.getPt_setPt_self]
  cases i with
  | pinf => cases h; exact written hd trivial
  | pgen => cases h; exact written hd generator_onCurve
  | pset _ rs1 rs2 =>
    obtain ⟨_, hc, h⟩ := bind_eq_ok.1 h
    cases h
    exact written hd ((onCurve_iff_OnCurve _ _).1 (check_eq_ok.1 hc))
  | pmov _ ps1 => cases h; exact written hd (hs ps1)
  | padd _ ps1 ps2 =>
    obtain ⟨_, hQ, h⟩ := bind_eq_ok.1 h
    cases h
    exact written hd (pointAdd_onCurve (hs ps1) (hs ps2) hQ)
  | pdbl _ ps1 =>
    obtain ⟨_, hQ, h⟩ := bind_eq_ok.1 h
    cases h
    exact written hd (pointDouble_onCurve (hs ps1) hQ)
  | pmul _ ps1 =>
    obtain ⟨_, hQ, h⟩ := bind_eq_ok.1 h
    cases h
    exact written hd (scalarMultiply_onCurve (hs ps1) hQ)
  | dpub =>
    obtain ⟨_, hQ, h⟩ := bind_eq_ok.1 h
    cases h
    exact written hd (derivePublicKey_onCurve hQ)
  | _ => cases hd

theorem pointsOnCurve_reset : State.reset.PointsOnCurve := fun i => by
  rw [State.getPt_reset]
  trivial

theorem pointsOnCurve_stepClosed : StepClosed State.PointsOnCurve where
  host _ _ _ hs := hs
  reset := pointsOnCurve_reset
  setX _ _ _ hs := hs
  setPt i s pd Q hs h hd q := by
    by_cases hq : q = pd
    · subst hq
      exact body_destPt_onCurve hs h hd
    · rw [State.getPt_setPt_of_ne _ _ hq]
      exact hs q
  store _ _ _ hs _ := hs
  succeed _ hs := hs
  raise _ _ hs := hs

/-! ## The buffer -/

theorem bufWf_stepClosed : StepClosed fun s => s.buf.wf where
  host _ _ _ hs := hs
  reset := ⟨.nil, fun _ h => by cases h⟩
  setX _ _ _ hs := hs
  setPt _ _ _ _ hs _ _ := hs
  store _ _ _ hs hin := Memory.wf_writeBytes hs hin
  succeed _ hs := hs
  raise _ _ hs := hs

/-! ## STATUS -/

theorem statusGood_zero : StatusGood 0 where
  reserved := rfl
  err := .inl rfl
  fcodeClear _ := rfl
  fcodeSet h := by cases h

/-- Writing a known code to `ERR` touches no other rule of `STATUS`. -/
theorem StatusGood.withErr {st : Word32} (h : StatusGood st) {e : Byte} (he : KnownCode e) : StatusGood (withErr st e) where
  reserved := by rw [reservedOf_withErr, h.reserved]
  err := by rwa [errOf_withErr]
  fcodeClear hf := by
    rw [fatalOf_withErr] at hf
    rw [fcodeOf_withErr, h.fcodeClear hf]
  fcodeSet hf := by
    rw [fatalOf_withErr] at hf
    rw [fcodeOf_withErr]
    exact h.fcodeSet hf

theorem StatusGood.statusOk {st : Word32} (h : StatusGood st) : StatusGood (statusOk st) := h.withErr (.inl rfl)

/-- `raise` writes `FCODE` only together with `FATAL`, and only the code of a fatal failure (R192, R193). -/
theorem StatusGood.statusRaise {st : Word32} (h : StatusGood st) (c : Cause) : StatusGood (statusRaise c st) := by
  have known : KnownCode c.code := .inr ⟨c, rfl⟩
  cases hc : c.isFatal && !fatalOf st
  · rw [Machine.statusRaise, if_neg (by simp [hc])]
    exact h.withErr known
  · obtain ⟨hfatal, hclear⟩ := Bool.and_eq_true_iff.1 hc
    rw [Bool.not_eq_true'] at hclear
    exact {
      reserved := by rw [reservedOf_statusRaise, h.reserved]
      err := by rwa [errOf_statusRaise]
      fcodeClear := fun hf => by
        rw [fatalOf_statusRaise_fatal hfatal hclear] at hf
        cases hf
      fcodeSet := fun _ => ⟨c, hfatal, fcodeOf_statusRaise_fatal hfatal hclear⟩ }

theorem statusGood_stepClosed : StepClosed fun s => StatusGood s.status where
  host _ _ _ hs := hs
  reset := statusGood_zero
  setX _ _ _ hs := hs
  setPt _ _ _ _ hs _ _ := hs
  store _ _ _ hs _ := hs
  succeed _ hs := hs.statusOk
  raise _ c hs := hs.statusRaise c

end Sys2Proof.Machine
end

section
/-! PROOFS. The invariant of the machine (R21, R15, R22, R191). -/

namespace Sys2Proof.Machine

/-- Settles O21: the three parts of the invariant are each kept by every elementary update of a step. -/
theorem everyStepKeepsInvariant : Obligations.EveryStepKeepsInvariant := fun _ _ ⟨hpoints, hmemory, hstatus⟩ h =>
  ⟨pointsOnCurve_stepClosed.step hpoints h, bufWf_stepClosed.step hmemory h, statusGood_stepClosed.step hstatus h⟩

/-- Settles O22: the points part of the invariant needs no other part. -/
theorem pointRegistersStayOnCurve : Obligations.PointRegistersStayOnCurve :=
  ⟨pointsOnCurve_reset, fun _ _ hs h => pointsOnCurve_stepClosed.step hs h⟩

/-- Settles O20: each part of the invariant holds at reset. -/
theorem resetMeetsInvariant : Obligations.ResetMeetsInvariant :=
  ⟨pointsOnCurve_reset, bufWf_stepClosed.reset, statusGood_zero⟩

end Sys2Proof.Machine
end

section
/-! PROOFS. Registers: who writes them, and what they hold at reset (R11, R17, R19, R22). -/

namespace Sys2Proof.Machine

/-- A command changes no general register but the one it names as `rd`, whatever way it ends. -/
theorem exec_getX {i : Instr} {s t : State} {r : XReg} (h : exec i s = .next t) (hr : i.destX ≠ some r) :
    t.getX r = s.getX r := by
  obtain ⟨-, he⟩ | ⟨-, u, hu, he⟩ | ⟨-, c, -, he⟩ := exec_cases i s <;> cases he.symm.trans h
  · rfl
  · rw [State.getX_succeed]
    obtain ⟨rd, v, hrd, -, -, rfl⟩ | ⟨pd, Q, -, -, -, rfl⟩ | ⟨off, bs, -, -, -, -, rfl⟩ | ⟨-, -, -, rfl⟩ := body_ok hu
    · exact State.getX_setX_of_ne s v fun e => hr (e ▸ hrd)
    · rfl
    · rfl
    · rfl
  · rfl

/-- Only a decoded command that names `x[r]` as `rd` makes the issue of a word change it. -/
theorem issue_changes_getX {w : Word32} {s t : State} {r : XReg} (h : issue w s = .next t) (hne : t.getX r ≠ s.getX r) :
    ∃ i, decode w = .ok i ∧ i.destX = some r := by
  obtain ⟨-, he⟩ | ⟨-, i, hi, he⟩ | ⟨-, -, he⟩ := issue_cases w s
  · cases he.symm.trans h
    exact absurd rfl hne
  · exact ⟨i, hi, not_not.1 fun hr => hne (exec_getX (he.symm.trans h) hr)⟩
  · cases he.symm.trans h
    exact absurd rfl hne

/-- The eight words of `x[i]` are the word addresses `8 i` to `8 i + 7` (R32). -/
theorem div_eight_of_locate {wa : BitVec 8} {i : XReg} {j : Fin 8} (h : locate wa = .xWord i j) : wa.toNat / 8 = i.val := by
  by_cases hx : wa.toNat < 128
  · rw [locate, if_pos hx] at h
    injection h with hi
    rw [← hi, Fin.val_ofNat]
    omega
  · rw [locate, if_neg hx] at h
    split_ifs at h

/-- A host write changes `x[r]` by writing one of its words, or by issuing a command that names it as `rd` (R19, R33). -/
theorem hostWrite_changes_getX {wa : BitVec 8} {d : Word32} {s t : State} {r : XReg} (h : hostWrite s wa d = .next t)
    (hne : t.getX r ≠ s.getX r) : wa.toNat / 8 = r.val ∨ wa = cmdWa ∧ ∃ i, decode d = .ok i ∧ i.destX = some r := by
  obtain ⟨i, j, hl, he⟩ | ⟨k, -, he⟩ | ⟨hwa, he⟩ | he := hostWrite_cases s wa d
  · cases he.symm.trans h
    have hr : r = i := not_not.1 fun e => hne (State.getX_setX_of_ne s _ e)
    exact .inl (hr ▸ div_eight_of_locate hl)
  · cases he.symm.trans h
    exact absurd rfl hne
  · exact .inr ⟨hwa, issue_changes_getX (he.symm.trans h) hne⟩
  · cases he.symm.trans h
    exact absurd rfl hne

/-- Settles O24: a read and an empty step write no register, and a host write only as `hostWrite_changes_getX` says. -/
theorem registerHoldsUntilWritten : Obligations.RegisterHoldsUntilWritten := by
  intro s t r h hne
  obtain ⟨-, he⟩ | ⟨wa, rest, -, he⟩ | ⟨wa, d, rest, hp, he⟩ | ⟨rest, hp, -⟩ := step_cases s
  · cases he.symm.trans h
    exact absurd rfl hne
  · cases he.symm.trans h
    exact absurd rfl hne
  · obtain hwa | ⟨rfl, i, hi, hr⟩ := hostWrite_changes_getX (he.symm.trans h) hne
    · exact .inr (.inl ⟨wa, d, rest, hp, hwa⟩)
    · exact .inr (.inr ⟨d, i, rest, hp, hi, hr⟩)
  · exact .inl ⟨rest, hp⟩

/-- Settles O12: bit by bit, `PTINF` is `getLsbD_ptinf`; a write to its address is ignored by the window map. -/
theorem ptinfShowsIdentities : Obligations.PtinfShowsIdentities := by
  have hread : ∀ s : State, hostRead s 0xC2 = ptinf s.pt := fun _ => rfl
  refine ⟨fun s i => ?_, fun s b hb => ?_, rfl, fun _ _ => rfl⟩
  · rw [hread, getLsbD_ptinf]
    exact Point.isInf_iff _
  · rw [hread, getLsbD_ptinf_ge s.pt hb]

/-- Settles O13: the accessors at reset, and the fields of a `STATUS` of 0. -/
theorem resetValues : Obligations.ResetValues :=
  ⟨State.getX_reset, State.getPt_reset, fun a _ => State.byteAt_reset a, rfl, rfl, rfl, rfl, rfl⟩

end Sys2Proof.Machine
end

section
/-! PROOFS. The curve constants (R16): the multiples of the generator that the spec names, by the group of the curve. -/

namespace Sys2Proof.Machine

/-- The negative of a point of the curve has the second coordinate `p - y` (R100). -/
theorem toE_neg {x y : Word} (h : onCurve x y = true) (hy : 0 < y.toNat) :
    (Point.aff x (BitVec.ofNat 256 (Config.p - y.toNat))).valid = true ∧
      toE (.aff x (BitVec.ofNat 256 (Config.p - y.toNat))) = -toE (.aff x y) := by
  obtain ⟨hx, hyp, -⟩ := (onCurve_iff x y).1 h
  have hval : (BitVec.ofNat 256 (Config.p - y.toNat)).toNat = Config.p - y.toNat := by
    rw [BitVec.toNat_ofNat, Nat.mod_eq_of_lt]
    have := modulus_p.2
    omega
  have hfp : fp (BitVec.ofNat 256 (Config.p - y.toNat)) = ecurve.negY (fp x) (fp y) := by
    rw [ecurve_negY, fp, hval, Nat.cast_sub hyp.le, ZMod.natCast_self, zero_sub, fp]
  rw [toE_aff (nonsingular_of_onCurve h), WeierstrassCurve.Affine.Point.neg_some]
  exact toE_some _ hx (by omega) rfl hfp

section
variable [Fact (Nat.Prime Config.p)]

/-- A valid point that is the multiple in the group is the one `k`-fold sum. -/
theorem kFold_iff_eq {P Q : Point} (hP : P.valid = true) (hQ : Q.valid = true) {k : Nat} (h : toE Q = k • toE P) (R : Point) :
    KFold P k R ↔ R = Q := by
  rw [kFold_iff hP, ← h]
  exact ⟨fun ⟨hv, he⟩ => toE_inj hv hQ he, by rintro rfl; exact ⟨hQ, rfl⟩⟩

/-- `(n - 1) G = -G`, because `n G` is the identity. -/
theorem pred_n_smul_generator : (Config.n - 1) • toE generator = -toE generator := by
  refine eq_neg_of_add_eq_zero_left ?_
  rw [← succ_nsmul]
  exact n_smul_generator

end

/-- Settles O37: the table's values by definition, the primes by their certificates, the two multiples of `G` in the group. -/
theorem curveConstants : Obligations.CurveConstants := by
  have := fact_prime_p
  have half : ∀ s : Nat, 2 * s ≤ Config.n ↔ s ≤ Config.halfN := fun s => by
    unfold Config.n Config.halfN
    omega
  obtain ⟨hneg, hnegE⟩ := toE_neg generator_valid (by decide : 0 < Config.gy.toNat)
  exact ⟨rfl, rfl, rfl, rfl, rfl, rfl, half, rfl, prime_p, prime_n, rfl, rfl, rfl, generator_onCurve,
    kFold_iff_eq generator_valid rfl (n_smul_generator.symm),
    kFold_iff_eq generator_valid hneg (hnegE.trans pred_n_smul_generator.symm)⟩

end Sys2Proof.Machine
end

section
/-! SUPPORT. How a command ends, as an inversion of `exec`, and what it and two runs of it have in common. -/

namespace Sys2Proof.Machine

/-- The code of success is the code of no cause (R191). -/
theorem Cause.code_ne_zero (c : Cause) : c.code ≠ 0x00 := by cases c <;> decide

theorem errOf_raise_ne_zero (s : State) (c : Cause) : errOf (s.raise c).status ≠ 0x00 := by
  rw [State.raise_status, errOf_statusRaise]
  exact c.code_ne_zero

/-- The state a command ends in: `STATUS` written by a raise, or what its body yields with success reported (R190). -/
theorem exec_ends {i : Instr} {s t : State} (h : exec i s = .next t) :
    (∃ c, t = s.raise c) ∨ ∃ u, bodyOf i s = .ok u ∧ t = u.succeed := by
  obtain ⟨-, he⟩ | ⟨-, u, hu, he⟩ | ⟨-, c, -, he⟩ := exec_cases i s <;> cases he.symm.trans h
  · exact .inl ⟨.eHalted, rfl⟩
  · exact .inr ⟨u, hu, rfl⟩
  · exact .inl ⟨c, rfl⟩

/-- No destination of a body is `STATUS`. -/
theorem body_status {i : Instr} {s u : State} (h : bodyOf i s = .ok u) : u.status = s.status := by
  obtain ⟨rd, v, -, -, -, rfl⟩ | ⟨pd, P, -, -, -, rfl⟩ | ⟨off, bs, -, -, -, -, rfl⟩ | ⟨-, -, -, rfl⟩ := body_ok h <;> rfl

/-- A success leaves the halt as it was (R190). -/
theorem halted_succeed_body {i : Instr} {s u : State} (h : bodyOf i s = .ok u) : u.succeed.halted = s.halted := by
  rw [State.halted, State.succeed_status, fatalOf_statusOk, body_status h, State.halted]

/-- The two states hold the same value in the destination of the command. -/
structure SameDestination (i : Instr) (t t' : State) : Prop where
  register : ∀ r : XReg, i.destX = some r → t.getX r = t'.getX r
  point : ∀ q : PReg, i.destPt = some q → t.getPt q = t'.getPt q
  bytes : ∀ off len k : Nat, i.destBuf = some (off, len) → k < len → t.byteAt (off + k) = t'.byteAt (off + k)

/-- A byte string stored in two buffers reads the same in its range, whatever the buffers held before. -/
theorem byteAt_store_congr {s s' : State} (hs : s.buf.wf) (hs' : s'.buf.wf) (off : Nat) (bs : Bytes) {k : Nat}
    (hk : k < bs.length) : (s.store off bs).byteAt (off + k) = (s'.store off bs).byteAt (off + k) := by
  have hin : off ≤ off + k ∧ off + k < off + bs.length := by omega
  rw [State.byteAt_store hs, State.byteAt_store hs', dif_pos hin, dif_pos hin]

/-- Bodies of the same outcome raise the same cause, or both succeed and leave the same value in the destination. -/
theorem SameOutcome.ends {i : Instr} {s s' : State} (hs : s.buf.wf) (hs' : s'.buf.wf) (h : SameOutcome i s s') :
    (∃ c, bodyOf i s = .error c ∧ bodyOf i s' = .error c) ∨
    ∃ u u', bodyOf i s = .ok u ∧ bodyOf i s' = .ok u' ∧ SameDestination i u u' := by
  obtain he | ⟨rd, v, hx, hp, hb, hu, hu'⟩ | ⟨pd, P, hx, hp, hb, hu, hu'⟩ | ⟨off, bs, hx, hp, hb, hu, hu'⟩ |
    ⟨hx, hp, hb, hu, hu'⟩ := h
  · exact .inl he
  · exact .inr ⟨_, _, hu, hu', by simp [hx], by simp [hp], by simp [hb]⟩
  · exact .inr ⟨_, _, hu, hu', by simp [hx], by simp [hp], by simp [hb]⟩
  · refine .inr ⟨_, _, hu, hu', by simp [hx], by simp [hp], fun _ _ k hk hlt => ?_⟩
    cases hb.symm.trans hk
    exact byteAt_store_congr hs hs' off bs hlt
  · exact .inr ⟨_, _, hu, hu', by simp [hx], by simp [hp], by simp [hb]⟩

/-- Two states with the same halt that raise the same cause report the same `ERR` and the same halt. -/
theorem raise_reports_same {s s' : State} (hhalt : s.halted = s'.halted) (c : Cause) :
    errOf (s.raise c).status = errOf (s'.raise c).status ∧ (s.raise c).halted = (s'.raise c).halted := by
  rw [State.raise_status, State.raise_status, errOf_statusRaise, errOf_statusRaise, halted_raise, halted_raise, hhalt]
  exact ⟨rfl, rfl⟩

/-- Two runs of a command from the same halt, with bodies of the same outcome, both raise the same cause or both succeed. -/
theorem exec_ends_alike {i : Instr} {s s' t t' : State} (hs : s.buf.wf) (hs' : s'.buf.wf) (hhalt : s.halted = s'.halted)
    (ho : SameOutcome i s s') (h : exec i s = .next t) (h' : exec i s' = .next t') :
    (∃ c, t = s.raise c ∧ t' = s'.raise c) ∨
    ∃ u u', bodyOf i s = .ok u ∧ bodyOf i s' = .ok u' ∧ SameDestination i u u' ∧ t = u.succeed ∧ t' = u'.succeed := by
  rw [exec_body] at h h'
  cases hh : s.halted with
  | true =>
    rw [command_halted hh] at h
    rw [command_halted (hhalt ▸ hh)] at h'
    cases h
    cases h'
    exact .inl ⟨.eHalted, rfl, rfl⟩
  | false =>
    have hh' : s'.halted = false := hhalt ▸ hh
    obtain ⟨c, he, he'⟩ | ⟨u, u', hu, hu', hd⟩ := ho.ends hs hs'
    · rw [he, command_error hh] at h
      rw [he', command_error hh'] at h'
      cases h
      cases h'
      exact .inl ⟨c, rfl, rfl⟩
    · rw [hu, command_ok hh] at h
      rw [hu', command_ok hh'] at h'
      cases h
      cases h'
      exact .inr ⟨u, u', hu, hu', hd, rfl, rfl⟩

end Sys2Proof.Machine
end

section
/-! PROOFS. What a command reads and what it writes (R34, R39, R75). -/

namespace Sys2Proof.Machine

/-- Settles O25: bodies have the same outcome on the same sources (`body_sources`), so both runs raise or both succeed. -/
theorem commandDependsOnlyOnItsSources : Obligations.CommandDependsOnlyOnItsSources := by
  intro i s s' t t' hs hs' hhalt hx hp hb h h'
  obtain ⟨c, rfl, rfl⟩ | ⟨u, u', hu, hu', hd, rfl, rfl⟩ :=
    exec_ends_alike hs hs' hhalt (body_sources hx hp hb) h h'
  · obtain ⟨herr, hhalted⟩ := raise_reports_same hhalt c
    exact ⟨herr, hhalted, fun h0 => absurd h0 (errOf_raise_ne_zero s c)⟩
  · refine ⟨?_, ?_, fun _ => ⟨hd.register, hd.point, hd.bytes⟩⟩
    · rw [State.succeed_status, State.succeed_status, errOf_statusOk, errOf_statusOk]
    · rw [halted_succeed_body hu, halted_succeed_body hu', hhalt]

/-- Settles O23: a raise writes `STATUS` alone, and a success is one write to one destination. -/
theorem commandWritesOnlyItsDestinations : Obligations.CommandWritesOnlyItsDestinations := by
  intro i s t hs h
  refine ⟨fun r hr => exec_getX h hr, ?_⟩
  obtain ⟨c, rfl⟩ | ⟨u, hu, rfl⟩ := exec_ends h
  · have hc := raised_raise s c
    exact ⟨fun q _ => hc.points q, fun a _ => hc.bytes a, hc.host⟩
  obtain ⟨rd, v, -, -, -, rfl⟩ | ⟨pd, P, -, hpd, -, rfl⟩ | ⟨off, bs, -, -, hoff, -, rfl⟩ | ⟨-, -, -, rfl⟩ := body_ok hu
  · have hw := wroteX_succeed s rd v
    exact ⟨fun q _ => hw.points q, fun a _ => hw.bytes a, hw.host⟩
  · have hw := wrotePt_succeed s pd P
    exact ⟨fun q hq => hw.others q fun e => hq (e ▸ hpd), fun a _ => hw.bytes a, hw.host⟩
  · have hw := wroteBuf_succeed hs off bs
    exact ⟨fun q _ => hw.points q, fun a ha => hw.outside a (ha off bs.length hoff), hw.host⟩
  · exact ⟨fun _ _ => rfl, fun _ _ => rfl, ⟨rfl, rfl⟩⟩

end Sys2Proof.Machine
end

section
/-! SUPPORT. The words of the host window: which address each has, and reading one after a write to it or to another (R32, R33). -/

namespace Sys2Proof.Machine

/-- The word address of a word of the window, `locate` read backwards; 0 for the reserved words, which have many (R32). -/
def addressOf : Location → BitVec 8
  | .xWord i j => BitVec.ofNat 8 (8 * i.val + j.val)
  | .bufWord k => BitVec.ofNat 8 (128 + k.val)
  | .cmd => 0xC0
  | .status => 0xC1
  | .ptinf => 0xC2
  | .reserved => 0

theorem addressOf_locate : ∀ wa : BitVec 8, locate wa ≠ .reserved → addressOf (locate wa) = wa := by decide

/-- Two addresses of one word that is not reserved are equal. -/
theorem eq_of_locate_eq {wa wa' : BitVec 8} {l : Location} (hl : l ≠ .reserved) (h : locate wa = l) (h' : locate wa' = l) :
    wa = wa' := by
  rw [← addressOf_locate wa (h ▸ hl), ← addressOf_locate wa' (h' ▸ hl), h, h']

/-! ## Words of a register -/

theorem xWordGet_xWordSet_self (v : Word) (j : Fin 8) (d : Word32) : xWordGet (xWordSet v j d) j = d := by
  apply BitVec.eq_of_getLsbD_eq
  intro b hb
  rw [getLsbD_xWordGet _ _ hb, getLsbD_xWordSet _ _ _ (by omega), if_pos (by omega), Nat.add_sub_cancel_left]

theorem xWordGet_xWordSet_of_ne (v : Word) {j j' : Fin 8} (h : j' ≠ j) (d : Word32) :
    xWordGet (xWordSet v j d) j' = xWordGet v j' := by
  apply BitVec.eq_of_getLsbD_eq
  intro b hb
  have hne : j'.val ≠ j.val := fun e => h (Fin.ext e)
  rw [getLsbD_xWordGet _ _ hb, getLsbD_xWordSet _ _ _ (by omega), if_neg (by omega), getLsbD_xWordGet _ _ hb]

/-! ## Words of the buffer -/

/-- Byte `i` of the four bytes a host write stores, the first being bits 31:24 (R32). -/
theorem getElem_hostBytes (d : Word32) (i : Nat) (h : i < (bytesBe d.toNat 4).length) :
    (bytesBe d.toNat 4)[i] = d.extractLsb' (8 * (3 - i)) 8 := by
  rw [getElem_bytesBe]
  apply BitVec.eq_of_toNat_eq
  rw [BitVec.toNat_ofNat, BitVec.extractLsb'_toNat, Nat.shiftRight_eq_div_pow, Nat.pow_mul]

theorem byteAt_store_hostBytes {s : State} (hs : s.buf.wf) (off : Nat) (d : Word32) (a : Nat) :
    (s.store off (bytesBe d.toNat 4)).byteAt a =
      if off ≤ a ∧ a < off + 4 then d.extractLsb' (8 * (off + 3 - a)) 8 else s.byteAt a := by
  rw [State.byteAt_store hs]
  by_cases ha : off ≤ a ∧ a < off + 4
  · rw [if_pos ha, dif_pos (by rwa [length_bytesBe]), getElem_hostBytes]
    congr 2
    omega
  · rw [if_neg ha, dif_neg (by rwa [length_bytesBe])]

theorem ofNat_be_hostBytes (d : Word32) : BitVec.ofNat 32 (be (bytesBe d.toNat 4)) = d := by
  rw [be_bytesBe (by have := d.isLt; omega), BitVec.ofNat_toNat, BitVec.setWidth_eq]

/-- A load outside the bytes a store writes reads what was there before. -/
theorem load_store_of_disjoint {s : State} (hs : s.buf.wf) {off a n : Nat} {bs : Bytes}
    (h : a + n ≤ off ∨ off + bs.length ≤ a) : (s.store off bs).load a n = s.load a n := by
  apply List.ext_getElem (by simp)
  intro k hk _
  rw [State.length_load] at hk
  rw [State.getElem_load, State.getElem_load, State.byteAt_store hs, dif_neg (by omega)]

/-! ## A read after a write -/

/-- A host write to a word of a register shows at no other word of the window. -/
theorem hostRead_setX_of_ne (s : State) {wa : BitVec 8} {i : XReg} {j : Fin 8} (h : locate wa ≠ .xWord i j) (d : Word32) :
    hostRead (s.setX i (xWordSet (s.getX i) j d)) wa = hostRead s wa := by
  cases hl : locate wa with
  | xWord i' j' =>
    rw [hostRead_xWord _ hl, hostRead_xWord _ hl]
    by_cases hi : i' = i
    · subst hi
      rw [State.getX_setX_self, xWordGet_xWordSet_of_ne _ fun hj => h (by rw [hl, hj])]
    · rw [State.getX_setX_of_ne _ _ hi]
  | bufWord k => rw [hostRead_bufWord _ hl, hostRead_bufWord _ hl]; rfl
  | cmd | status | ptinf | reserved => simp [hostRead, hl]

/-- A host write to a word of the buffer shows at no other word of the window. -/
theorem hostRead_store_of_ne {s : State} (hs : s.buf.wf) {wa : BitVec 8} {k : Fin 64} (h : locate wa ≠ .bufWord k)
    (d : Word32) : hostRead (s.store (4 * k.val) (bytesBe d.toNat 4)) wa = hostRead s wa := by
  cases hl : locate wa with
  | xWord i j => rw [hostRead_xWord _ hl, hostRead_xWord _ hl, State.getX_store]
  | bufWord k' =>
    have hk : k'.val ≠ k.val := fun e => h (by rw [hl, Fin.ext e])
    rw [hostRead_bufWord _ hl, hostRead_bufWord _ hl, load_store_of_disjoint hs (by rw [length_bytesBe]; omega)]
  | cmd | status | ptinf | reserved => simp [hostRead, hl]

end Sys2Proof.Machine
end

section
/-! PROOFS. The host window (R31 to R33, R42) and the step that serves it (R31, R209). -/

namespace Sys2Proof.Machine

/-- Settles O10: each address leads where `locate` says, a word of `x` bit by bit, a word of `BUF` byte by byte. -/
theorem hostWindow : Obligations.HostWindow := by
  refine ⟨fun s i j => ?xWord, fun s k hs => ?bufWord, fun _ _ => ⟨rfl, rfl⟩, fun _ _ => ⟨rfl, rfl⟩, fun _ _ => ⟨rfl, rfl⟩,
    fun s wa d hwa => ?reserved, fun _ _ => rfl⟩
  case xWord =>
    have hl := locate_xWord i j
    refine ⟨fun b hb => ?_, fun d => ⟨_, hostWrite_xWord s hl d, fun b hb => ?_, fun r hr => ?_, rfl, rfl, rfl, rfl, rfl⟩⟩
    · rw [hostRead_xWord s hl, getLsbD_xWordGet _ _ hb]
    · rw [State.getX_setX_self, getLsbD_xWordSet _ _ _ hb]
    · exact State.getX_setX_of_ne s _ hr
  case bufWord =>
    have hl := locate_bufWord k
    refine ⟨?_, fun d => ⟨_, hostWrite_bufWord s hl d, byteAt_store_hostBytes hs _ d, rfl, rfl, rfl, rfl, rfl⟩⟩
    rw [hostRead_bufWord s hl]
    exact ofNat_be_four ..
  case reserved =>
    rw [hostRead, hostWrite, locate_reserved wa hwa]
    exact ⟨rfl, rfl⟩

/-- Settles O11: an address below 192 is one word of `x` or of `BUF`, and no other address is that word. -/
theorem hostReadReturnsLatestWrite : Obligations.HostReadReturnsLatestWrite := by
  intro s t wa d hs hwa h
  obtain ⟨i, j, hl, -⟩ | ⟨k, hl, -⟩ := locate_storage wa hwa
  · cases (hostWrite_xWord s hl d).symm.trans h
    refine ⟨?_, fun wa' hne => hostRead_setX_of_ne s (fun hl' => hne (eq_of_locate_eq (by simp) hl' hl)) d⟩
    rw [hostRead_xWord _ hl, State.getX_setX_self, xWordGet_xWordSet_self]
  · cases (hostWrite_bufWord s hl d).symm.trans h
    refine ⟨?_, fun wa' hne => hostRead_store_of_ne hs (fun hl' => hne (eq_of_locate_eq (by simp) hl' hl)) d⟩
    have hload := State.load_store hs (4 * k.val) (bytesBe d.toNat 4)
    rw [length_bytesBe] at hload
    rw [hostRead_bufWord _ hl, hload, ofNat_be_hostBytes]

/-- Settles O9: the step takes the first event off the list and delivers it. -/
theorem stepDeliversTheNextEvent : Obligations.StepDeliversTheNextEvent := by
  intro s rest
  refine ⟨fun wa hp => ?_, fun wa d hp => ?_, fun hp => ?_⟩
  · rw [step, hp]
    rfl
  · rw [step, hp]
    rfl
  · rw [step, hp]

end Sys2Proof.Machine
end

section
/-! SUPPORT. The decoder, row by row of the opcode table (R51 to R55 [30_encoding.md]): what it reads from a word for the command of
a row, and that it answers exactly when the word matches the row. -/

namespace Sys2Proof

/-! ## The operands a word holds -/

/-- The command of the same row with its operands read from a word, each from the bits its format gives it (R51 to R53). -/
def Instr.readFrom (w : Word32) : Instr → Instr
  | .nop => .nop
  | .li .. => .li (xHi w) (byteLow w)
  | .mov .. => .mov (xHi w) (xMid w)
  | .ldw .. => .ldw (xHi w) (byteLow w)
  | .stw .. => .stw (xMid w) (byteLow w)
  | .fadd .. => .fadd (xHi w) (xMid w) (xLo w)
  | .fsub .. => .fsub (xHi w) (xMid w) (xLo w)
  | .fmul .. => .fmul (xHi w) (xMid w) (xLo w)
  | .finv .. => .finv (xHi w) (xMid w)
  | .fred .. => .fred (xHi w) (xMid w) (xLo w)
  | .sadd .. => .sadd (xHi w) (xMid w) (xLo w)
  | .ssub .. => .ssub (xHi w) (xMid w) (xLo w)
  | .smul .. => .smul (xHi w) (xMid w) (xLo w)
  | .sinv .. => .sinv (xHi w) (xMid w)
  | .sred .. => .sred (xHi w) (xMid w) (xLo w)
  | .pinf .. => .pinf (pHi w)
  | .pgen .. => .pgen (pHi w)
  | .pset .. => .pset (pHi w) (xMid w) (xLo w)
  | .pmov .. => .pmov (pHi w) (pMid w)
  | .pgetx .. => .pgetx (xHi w) (pMid w)
  | .pgety .. => .pgety (xHi w) (pMid w)
  | .padd .. => .padd (pHi w) (pMid w) (pLo w)
  | .pdbl .. => .pdbl (pHi w) (pMid w)
  | .pmul .. => .pmul (pHi w) (pMid w) (xLo w)
  | .sha256 .. => .sha256 (byteLow w) (byteSrc w) (byteMid w)
  | .sha256d .. => .sha256d (byteLow w) (byteSrc w) (byteMid w)
  | .rmd160 .. => .rmd160 (byteLow w) (byteSrc w) (byteMid w)
  | .hash160 .. => .hash160 (byteLow w) (byteSrc w) (byteMid w)
  | .dpriv .. => .dpriv (xHi w) (xMid w) (xLo w)
  | .dpub .. => .dpub (pHi w) (xMid w)
  | .encu .. => .encu (pMid w) (byteLow w)
  | .encc .. => .encc (pMid w) (byteLow w)
  | .keypair .. => .keypair (xHi w) (xMid w) (byteMid w) (w.getLsbD 0) (w.getLsbD 1)
  | .genaddr .. => .genaddr (byteLow w) (byteSrc w) (byteMid w)
  | .genaddrt .. => .genaddrt (byteLow w) (byteSrc w) (byteMid w)
  | .sign .. => .sign (xHi w) (xMid w) (byteMid w)
  | .signtx .. => .signtx (xHi w) (xMid w) (byteMid w) (byteLow w)

/-- The operands of a command stand in its word where the decoder reads them. -/
theorem readFrom_encode (i : Instr) : i.readFrom (encode i) = i := by
  cases i <;> simp [Instr.readFrom, encode, getLsbD_formatS, -BitVec.toFin_extractLsb', -BitVec.getLsbD_eq_getElem]

@[simp] theorem tableRow_readFrom (w : Word32) (i : Instr) : (i.readFrom w).tableRow = i.tableRow := by
  cases i <;> rfl

/-! ## Rows of the opcode table -/

/-- The lemmas of the family `RowMatch`, one per constructor, in the order of the constructors. -/
theorem rowMatch : ∀ i : Instr, Laws.RowMatch.Statement i :=
  open Laws.RowMatch in
  @Instr.rec Statement nop li mov ldw stw fadd fsub fmul finv fred sadd ssub smul sinv sred pinf pgen pset pmov pgetx pgety padd
    pdbl pmul sha256 sha256d rmd160 hash160 dpriv dpub encu encc keypair genaddr genaddrt sign signtx

theorem tableRow_mem (i : Instr) : i.tableRow ∈ opcodeTable := (rowMatch i).1

theorem encode_matches (i : Instr) : encode i &&& i.tableRow.mask = i.tableRow.pattern := (rowMatch i).2

/-- The bits above the fields are `op` (R51 to R53). -/
theorem and_opMask (w : Word32) : w &&& 0xFF000000 = opOf w ++ 0#24 := by
  apply BitVec.eq_of_getLsbD_eq
  intro i hi
  simp only [opOf, BitVec.getLsbD_and, BitVec.getLsbD_append, BitVec.getLsbD_extractLsb']
  interval_cases i <;> simp

/-- The mask of a row covers `op`, and its pattern is `op` alone (R55). -/
theorem mask_and_pattern_of_mem : ∀ r ∈ opcodeTable,
    r.mask = 0xFF000000 ||| (r.mask &&& 0x00FFFFFF) ∧ r.mask.extractLsb' 24 8 = BitVec.allOnes 8 ∧
    r.pattern = opOf r.pattern ++ 0#24 ∧ r.pattern &&& 0x00FFFFFF = 0 := by decide

/-- A word matches a row of the table when it has the row's `op` and passes the decoder's check of the row's other bits. -/
theorem match_iff {r : OpcodeRow} (hr : r ∈ opcodeTable) (w : Word32) :
    w &&& r.mask = r.pattern ↔ opOf w = opOf r.pattern ∧ w &&& (r.mask &&& 0x00FFFFFF) = 0 := by
  obtain ⟨hmask, hmaskOp, hpattern, hpatternLow⟩ := mask_and_pattern_of_mem r hr
  constructor
  · intro h
    rw [← BitVec.and_assoc, h]
    refine ⟨?_, hpatternLow⟩
    rw [← h, opOf, opOf, BitVec.extractLsb'_and, hmaskOp, BitVec.and_allOnes]
  · rintro ⟨hop, hlow⟩
    calc w &&& r.mask = (w &&& 0xFF000000) ||| (w &&& (r.mask &&& 0x00FFFFFF)) := by
          rw [← BitVec.and_or_distrib_left, ← hmask]
      _ = opOf r.pattern ++ 0#24 := by rw [and_opMask, hop, hlow]; exact BitVec.or_zero
      _ = r.pattern := hpattern.symm

/-- Every row of the table is the row of a command: of the one its own pattern decodes to. -/
theorem exists_tableRow {r : OpcodeRow} (hr : r ∈ opcodeTable) : ∃ i : Instr, i.tableRow = r := by
  have hall : ∀ r ∈ opcodeTable, (decode r.pattern).map Instr.tableRow = .ok r := by decide
  have hdecode := hall r hr
  cases hd : decode r.pattern with
  | ok i => exact ⟨i, by simpa [hd, Except.map] using hdecode⟩
  | error e => simp [hd, Except.map] at hdecode

/-! ## The decoder row by row -/

/-- A word with the `op` of a command is decoded by the row of that command. -/
theorem decode_of_op {w : Word32} {i : Instr} (h : opOf w = opOf i.tableRow.pattern) :
    decode w = row w i.tableRow.mask (i.readFrom w) := by
  cases i <;> (rw [decode, h]; simp [Instr.tableRow, opOf, Instr.readFrom])

/-- A word decodes only to a command whose row has its `op`. -/
theorem opOf_of_decode {w : Word32} {i : Instr} (h : decode w = .ok i) : opOf w = opOf i.tableRow.pattern := by
  unfold decode at h
  split at h
  case h_38 => cases h
  all_goals
    next hop =>
    cases (row_ok h).1
    exact BitVec.eq_of_toNat_eq (hop.trans (by simp [Instr.tableRow, opOf]))

/-- A word that matches a command's row decodes to the command of that row it holds. -/
theorem decode_readFrom {w : Word32} {i : Instr} (h : w &&& i.tableRow.mask = i.tableRow.pattern) :
    decode w = .ok (i.readFrom w) := by
  obtain ⟨hop, hlow⟩ := (match_iff (tableRow_mem i) w).1 h
  rw [decode_of_op hop, row_of_mask _ hlow]

/-- The decoder answers a command exactly when the word matches the command's row and holds its operands. -/
theorem decode_eq_ok_iff {w : Word32} {i : Instr} :
    decode w = .ok i ↔ w &&& i.tableRow.mask = i.tableRow.pattern ∧ i.readFrom w = i := by
  constructor
  · intro h
    have hop := opOf_of_decode h
    obtain ⟨hread, hlow⟩ := row_ok (decode_of_op hop ▸ h)
    exact ⟨(match_iff (tableRow_mem i) w).2 ⟨hop, hlow⟩, hread⟩
  · rintro ⟨hm, hread⟩
    rw [decode_readFrom hm, hread]

/-! ## A word from the command it holds -/

/-- A word with these fields is the format R word of them. -/
theorem formatR_eq {w : Word32} {op imm8 : Byte} {rd rs1 rs2 : BitVec 4} (hop : opOf w = op) (hrd : w.extractLsb' 20 4 = rd)
    (hrs1 : w.extractLsb' 16 4 = rs1) (hrs2 : w.extractLsb' 12 4 = rs2) (hz : w.extractLsb' 8 4 = 0) (himm : byteLow w = imm8) :
    formatR op rd rs1 rs2 imm8 = w := by
  rw [← hop, ← hrd, ← hrs1, ← hrs2, ← himm, eq_formatR hz]

theorem formatB_eq {w : Word32} {op src len dst : Byte} (hop : opOf w = op) (hsrc : byteSrc w = src) (hlen : byteMid w = len)
    (hdst : byteLow w = dst) : formatB op src len dst = w := by
  rw [← hop, ← hsrc, ← hlen, ← hdst, eq_formatB]

theorem formatS_eq {w : Word32} {op off imm8 : Byte} {rs1 rs2 : BitVec 4} (hop : opOf w = op) (hrs1 : w.extractLsb' 20 4 = rs1)
    (hrs2 : w.extractLsb' 16 4 = rs2) (hoff : byteMid w = off) (himm : byteLow w = imm8) : formatS op rs1 rs2 off imm8 = w := by
  rw [← hop, ← hrs1, ← hrs2, ← hoff, ← himm, eq_formatS]

/-- A byte whose bits 7:2 are 0 is the flags byte of its bits 1 and 0 (R53). -/
theorem keypairFlags_eq : ∀ {v : Byte}, v.extractLsb' 2 6 = 0 → keypairFlags (v.getLsbD 0) (v.getLsbD 1) = v := by decide

theorem getLsbD_byteLow (w : Word32) {i : Nat} (hi : i < 8) : (byteLow w).getLsbD i = w.getLsbD i := by simp [byteLow, hi]

/-- Bits 7:2 of a word are those of its last byte. -/
theorem extractLsb'_byteLow (w : Word32) : (byteLow w).extractLsb' 2 6 = w.extractLsb' 2 6 := by
  apply BitVec.eq_of_getLsbD_eq
  intro i hi
  rw [BitVec.getLsbD_extractLsb', BitVec.getLsbD_extractLsb', getLsbD_byteLow w (by omega)]

/-- A word that passes the row of a command is the word of the command it holds: each field is an operand's, or the row's mask
covers it and it is 0. -/
theorem encode_readFrom {w : Word32} {i : Instr} (hop : opOf w = opOf i.tableRow.pattern)
    (hlow : w &&& (i.tableRow.mask &&& 0x00FFFFFF) = 0) : encode (i.readFrom w) = w := by
  have hzero := field_zero hlow
  cases i <;> dsimp only [Instr.tableRow, Instr.readFrom, encode] at hop hzero ⊢
  case nop => exact formatR_eq hop (hzero 20 4 rfl) (hzero 16 4 rfl) (hzero 12 4 rfl) (hzero 8 4 rfl) (hzero 0 8 rfl)
  case li | ldw => exact formatR_eq hop rfl (hzero 16 4 rfl) (hzero 12 4 rfl) (hzero 8 4 rfl) rfl
  case stw => exact formatR_eq hop (hzero 20 4 rfl) rfl (hzero 12 4 rfl) (hzero 8 4 rfl) rfl
  case mov | finv | sinv => exact formatR_eq hop rfl rfl (hzero 12 4 rfl) (hzero 8 4 rfl) (hzero 0 8 rfl)
  case fadd | fsub | fmul | fred | sadd | ssub | smul | sred | dpriv =>
    exact formatR_eq hop rfl rfl rfl (hzero 8 4 rfl) (hzero 0 8 rfl)
  case pinf | pgen =>
    exact formatR_eq hop (pField_pHi (hzero 22 2 rfl)).symm (hzero 16 4 rfl) (hzero 12 4 rfl) (hzero 8 4 rfl) (hzero 0 8 rfl)
  case pset => exact formatR_eq hop (pField_pHi (hzero 22 2 rfl)).symm rfl rfl (hzero 8 4 rfl) (hzero 0 8 rfl)
  case pmov | pdbl =>
    exact formatR_eq hop (pField_pHi (hzero 22 2 rfl)).symm (pField_pMid (hzero 18 2 rfl)).symm (hzero 12 4 rfl) (hzero 8 4 rfl)
      (hzero 0 8 rfl)
  case pgetx | pgety =>
    exact formatR_eq hop rfl (pField_pMid (hzero 18 2 rfl)).symm (hzero 12 4 rfl) (hzero 8 4 rfl) (hzero 0 8 rfl)
  case padd =>
    exact formatR_eq hop (pField_pHi (hzero 22 2 rfl)).symm (pField_pMid (hzero 18 2 rfl)).symm (pField_pLo (hzero 14 2 rfl)).symm
      (hzero 8 4 rfl) (hzero 0 8 rfl)
  case pmul =>
    exact formatR_eq hop (pField_pHi (hzero 22 2 rfl)).symm (pField_pMid (hzero 18 2 rfl)).symm rfl (hzero 8 4 rfl) (hzero 0 8 rfl)
  case dpub => exact formatR_eq hop (pField_pHi (hzero 22 2 rfl)).symm rfl (hzero 12 4 rfl) (hzero 8 4 rfl) (hzero 0 8 rfl)
  case encu | encc =>
    exact formatR_eq hop (hzero 20 4 rfl) (pField_pMid (hzero 18 2 rfl)).symm (hzero 12 4 rfl) (hzero 8 4 rfl) rfl
  case sha256 | sha256d | rmd160 | hash160 | genaddr | genaddrt => exact formatB_eq hop rfl rfl rfl
  case keypair =>
    have hflags := keypairFlags_eq ((extractLsb'_byteLow w).trans (hzero 2 6 rfl))
    rw [getLsbD_byteLow w (by decide), getLsbD_byteLow w (by decide)] at hflags
    exact formatS_eq hop rfl rfl rfl hflags.symm
  case sign => exact formatS_eq hop rfl rfl rfl (hzero 0 8 rfl)
  case signtx => exact formatS_eq hop rfl rfl rfl rfl

/-! ## What a legal word has in the bits its mask covers -/

/-- The rows whose format or command leaves a field no value but 0: `z` in format R, the last byte of `SIGN`, bits 7:2 of the
flags of `KEYPAIR` (R51, R53). -/
theorem mask_covers_of_mem : ∀ r ∈ opcodeTable,
    (opOf r.pattern < 0x30#8 ∨ 0x40#8 ≤ opOf r.pattern ∧ opOf r.pattern ≤ 0x43#8 →
      (r.mask &&& 0x00FFFFFF).extractLsb' 8 4 = BitVec.allOnes 4) ∧
    (opOf r.pattern = 0x60#8 → (r.mask &&& 0x00FFFFFF).extractLsb' 0 8 = BitVec.allOnes 8) ∧
    (opOf r.pattern = 0x44#8 → (r.mask &&& 0x00FFFFFF).extractLsb' 2 6 = BitVec.allOnes 6) := by decide

theorem fields_zero_of_decode {w : Word32} {i : Instr} (h : decode w = .ok i) :
    (opOf w < 0x30#8 ∨ 0x40#8 ≤ opOf w ∧ opOf w ≤ 0x43#8 → w.extractLsb' 8 4 = 0) ∧
    (opOf w = 0x60#8 → byteLow w = 0) ∧ (opOf w = 0x44#8 → w.extractLsb' 2 6 = 0) := by
  have hmem := tableRow_mem i
  obtain ⟨hop, hlow⟩ := (match_iff hmem w).1 (decode_eq_ok_iff.1 h).1
  obtain ⟨hz, hsign, hkeypair⟩ := mask_covers_of_mem i.tableRow hmem
  rw [hop]
  exact ⟨fun ho => field_zero hlow 8 4 (hz ho), fun ho => field_zero hlow 0 8 (hsign ho),
    fun ho => field_zero hlow 2 6 (hkeypair ho)⟩

end Sys2Proof
end

section
/-! PROOFS. Encoding (R51 to R56 [30_encoding.md]). -/

namespace Sys2Proof.Machine

/-- Settles O1: the word of a command matches its row and holds its operands, which is what the decoder asks. -/
theorem decodeOfEncode : Obligations.DecodeOfEncode := fun i =>
  decode_eq_ok_iff.2 ⟨encode_matches i, readFrom_encode i⟩

/-- Settles O2: the command is the one read from the word, and the row leaves 0 in every field none of it is read from. -/
theorem encodeOfDecode : Obligations.EncodeOfDecode := by
  intro w i h
  obtain ⟨hm, hread⟩ := decode_eq_ok_iff.1 h
  obtain ⟨hop, hlow⟩ := (match_iff (tableRow_mem i) w).1 hm
  rw [← hread, encode_readFrom hop hlow]

/-- A word that matches a row of the table decodes to a command of that row. -/
theorem decode_of_match {w : Word32} {r : OpcodeRow} (hr : r ∈ opcodeTable) (h : w &&& r.mask = r.pattern) :
    ∃ i, decode w = .ok i ∧ i.tableRow = r := by
  obtain ⟨i, rfl⟩ := exists_tableRow hr
  exact ⟨i.readFrom w, decode_readFrom h, tableRow_readFrom w i⟩

/-- Settles O3: a word decodes to one command at most, so it matches the row of that command and no other. -/
theorem legalWordMatchesItsOnlyRow : Obligations.LegalWordMatchesItsOnlyRow := by
  refine ⟨fun w i h => ⟨tableRow_mem i, (decode_eq_ok_iff.1 h).1⟩, fun w r => decode_of_match,
    fun w r r' hr hr' h h' => ?_, by decide, rfl⟩
  obtain ⟨i, hi, rfl⟩ := decode_of_match hr h
  obtain ⟨i', hi', rfl⟩ := decode_of_match hr' h'
  cases hi.symm.trans hi'
  rfl

/-- Settles O4: a word the decoder answers matches a row, so one that matches none is refused, and `E_ILLEGAL` is no fatal failure. -/
theorem illegalWordRaisesIllegal : Obligations.IllegalWordRaisesIllegal := by
  refine ⟨fun w s hs hw => ?_, by decide +kernel, fun w i => fields_zero_of_decode, rfl, by decide⟩
  obtain ⟨hhalted, -⟩ | ⟨-, i, hi, -⟩ | ⟨-, -, hissue⟩ := issue_cases w s
  · simp [hs] at hhalted
  · exact absurd (decode_eq_ok_iff.1 hi).1 (hw _ (tableRow_mem i))
  · exact ⟨_, hissue, raised_raise s .eIllegal, by rw [halted_raise, hs]; rfl⟩

/-- Settles O5: the word of three bytes is the encoding of the command of those bytes. -/
theorem formatBWordsAreAllLegal : Obligations.FormatBWordsAreAllLegal := fun src len dst =>
  ⟨decodeOfEncode (.sha256 dst src len), decodeOfEncode (.sha256d dst src len), decodeOfEncode (.rmd160 dst src len),
    decodeOfEncode (.hash160 dst src len), decodeOfEncode (.genaddr dst src len), decodeOfEncode (.genaddrt dst src len)⟩

/-- Settles O6: a last byte the format allows gives the encoding of a command, and a legal `SIGN` or `KEYPAIR` has no other. -/
theorem formatSLastByte : Obligations.FormatSLastByte := by
  intro rs1 rs2 off imm8
  refine ⟨decodeOfEncode (.signtx rs1 rs2 off imm8), fun h => ?_, fun hne i h => hne ?_, fun h => ?_, fun hne i h => hne ?_⟩
  · subst h
    exact decodeOfEncode (.sign rs1 rs2 off)
  · obtain ⟨-, hsign, -⟩ := fields_zero_of_decode h
    exact (byteLow_formatS ..).symm.trans (hsign (opOf_formatS 0x60 ..))
  · have henc := decodeOfEncode (.keypair rs1 rs2 off (imm8.getLsbD 0) (imm8.getLsbD 1))
    rwa [encode, keypairFlags_eq h] at henc
  · obtain ⟨-, -, hkeypair⟩ := fields_zero_of_decode h
    have hflags := hkeypair (opOf_formatS 0x44 ..)
    rw [← extractLsb'_byteLow] at hflags
    exact (congrArg _ (byteLow_formatS ..)).symm.trans hflags

/-- A halted engine refuses a command's word with the error the command itself would raise, so issuing the word is the command. -/
theorem issue_of_decode {w : Word32} {i : Instr} (h : decode w = .ok i) (s : State) : issue w s = exec i s := by
  obtain ⟨hs, hissue⟩ | ⟨-, j, hj, hissue⟩ | ⟨-, ⟨e, he⟩, -⟩ := issue_cases w s
  · rw [hissue, exec_halted i hs]
  · cases h.symm.trans hj
    exact hissue
  · cases h.symm.trans he

/-- The step on a host write of a command's word to `CMD` is that command. -/
theorem step_of_decode {s : State} {w : Word32} {rest : List HostEvent} {i : Instr} (hp : s.pending = .write cmdWa w :: rest)
    (h : decode w = .ok i) : step s = exec i { s with pending := rest } := by
  obtain ⟨-, hwrite, -⟩ := stepDeliversTheNextEvent s rest
  calc step s = hostWrite { s with pending := rest } cmdWa w := hwrite cmdWa w hp
    _ = issue w { s with pending := rest } := rfl
    _ = exec i { s with pending := rest } := issue_of_decode h _

/-- Settles O8: `withFetchWord` makes the write of the word to `CMD` the next event. -/
theorem stepRunsDecodedCommand : Obligations.StepRunsDecodedCommand := by
  refine ⟨fun s w rest i => step_of_decode, fun s w i h => ?_⟩
  have hw : BitVec.ofNat 32 (w.toNat % 2 ^ 32) = w := by rw [Nat.mod_eq_of_lt w.isLt, BitVec.ofNat_toNat, BitVec.setWidth_eq]
  exact step_of_decode (s := s.withFetchWord 32 w.toNat) (by rw [State.withFetchWord, hw]) h

end Sys2Proof.Machine
end

section
/-! SUPPORT. The clauses every command's rule has beside its effect, for all commands at once (R55, R56, R193): a statement about one
command writes out the word and the mask that `encode` and `Instr.tableRow` give it. -/

namespace Sys2Proof.Machine

/-- The word of a command decodes to it, and no other word does (R55). -/
theorem encodedAs_encode (i : Instr) : EncodedAs i (encode i) := fun w =>
  ⟨fun h => (encodeOfDecode w i h).symm, fun h => h ▸ decodeOfEncode i⟩

/-- A legal word with the `op` of a command's row matches that row: no two rows share an `op` (R55). -/
theorem match_of_decode_of_op {w : Word32} {i j : Instr} (hop : opOf w = opOf i.tableRow.pattern) (hj : decode w = .ok j) :
    w &&& i.tableRow.mask = i.tableRow.pattern := by
  obtain ⟨-, hlow⟩ := row_ok (decode_of_op hop ▸ hj)
  exact (match_iff (tableRow_mem i) w).2 ⟨hop, hlow⟩

theorem illegalOutsideMask_tableRow (i : Instr) : IllegalOutsideMask (opOf (encode i)) i.tableRow.mask := by
  intro w s hop hmask hs
  have hencode : opOf (encode i) = opOf i.tableRow.pattern := opOf_of_decode (decodeOfEncode i)
  obtain ⟨hhalted, -⟩ | ⟨-, j, hj, -⟩ | ⟨-, -, hissue⟩ := issue_cases w s
  · simp [hs] at hhalted
  · obtain ⟨-, -, hpattern, -⟩ := mask_and_pattern_of_mem _ (tableRow_mem i)
    refine absurd ?_ hmask
    rw [match_of_decode_of_op (hop.trans hencode) hj, hencode]
    exact hpattern
  · exact ⟨_, hissue, raised_raise s .eIllegal⟩

theorem refusedWhenHalted (i : Instr) : RefusedWhenHalted i := fun s hs => ⟨_, exec_halted i hs, raised_raise s .eHalted⟩

theorem commandForm_encode (i : Instr) : CommandForm i (encode i) i.tableRow.mask where
  encoding := encodedAs_encode i
  illegal := illegalOutsideMask_tableRow i
  halted := refusedWhenHalted i

/-- A success leaves the halt as it was (R190). -/
theorem Succeeded.halted_eq {s t : State} (h : Succeeded s t) : t.halted = s.halted := h.fatal

end Sys2Proof.Machine
end

section
/-! PROOFS. Data movement (R70 to R74 [40_data_movement.md]). -/

namespace Sys2Proof.Machine

/-- Settles O26: the body of `NOP` is the state itself, and a success writes `ERR` alone. -/
theorem nopChangesNothingButErr : Obligations.NopChangesNothingButErr :=
  ⟨commandForm_encode .nop, fun s hs => ⟨s.succeed, by rw [exec_body, bodyOf, command_ok hs], succeeded_succeed rfl rfl rfl,
    State.getX_succeed s, State.getPt_succeed s, State.byteAt_succeed s⟩⟩

/-- An immediate keeps its value when extended to a register: no sign extension (R71). -/
theorem toNat_zext256 (v : Byte) : (zext256 v).toNat = v.toNat := BitVec.toNat_setWidth_of_le (by decide)

/-- Settles O27: `LI` writes the extended immediate. -/
theorem liWritesZeroExtendedImmediate : Obligations.LiWritesZeroExtendedImmediate := by
  refine fun rd imm8 => ⟨commandForm_encode (.li rd imm8), fun s hs => ?_⟩
  obtain ⟨t, hexec, hwrote⟩ := exec_wroteX (i := .li rd imm8) hs rfl
  exact ⟨t, _, hexec, hwrote, toNat_zext256 imm8⟩

/-- Settles O28: `MOV` writes its source as it stands. -/
theorem movCopiesRegister : Obligations.MovCopiesRegister := fun rd rs1 =>
  ⟨commandForm_encode (.mov rd rs1), fun _ hs => exec_wroteX hs rfl⟩

/-! ## Words in the buffer -/

/-- Byte `k` of 32 bytes read big-endian, most significant first (R8, R35). -/
theorem extractLsb'_beWord {bs : Bytes} (hlen : bs.length = 32) {k : Nat} (hk : k < bs.length) :
    (beWord bs).extractLsb' (8 * (31 - k)) 8 = bs[k] := by
  have hbytes := wordBytes_beWord hlen
  rw [← getElem_wordBytes (beWord bs) k (hbytes ▸ hk)]
  simp only [hbytes]

section
variable {s : State} {off : Byte} (hs : s.halted = false)
include hs

theorem exec_ldw_wroteX (rd : XReg) (hoff : off.toNat ≤ 224) :
    ∃ t, exec (.ldw rd off) s = .next t ∧ WroteX s t rd (beWord (s.load off.toNat 32)) :=
  exec_wroteX hs (by rw [bodyOf, checkRange_ok (by omega), except_ok_bind])

theorem exec_ldw_raises_range (rd : XReg) (hoff : 224 < off.toNat) : ∃ t, exec (.ldw rd off) s = .next t ∧ Raised s t .eRange :=
  exec_raises hs (by rw [bodyOf, checkRange_error (by omega), except_error_bind])

theorem exec_stw_wroteBuf (hm : s.buf.wf) (rs1 : XReg) (hoff : off.toNat ≤ 224) :
    ∃ t, exec (.stw rs1 off) s = .next t ∧ WroteBuf s t off.toNat (wordBytes (s.getX rs1)) :=
  exec_wroteBuf hs hm (by rw [bodyOf, checkRange_ok (by omega), except_ok_bind])

theorem exec_stw_raises_range (rs1 : XReg) (hoff : 224 < off.toNat) :
    ∃ t, exec (.stw rs1 off) s = .next t ∧ Raised s t .eRange :=
  exec_raises hs (by rw [bodyOf, checkRange_error (by omega), except_error_bind])

end

/-- The 32 bytes of a value, once written, load as the value again (R74). -/
theorem WroteBuf.load_word {s t : State} {off : Nat} {v : Word} (h : WroteBuf s t off (wordBytes v)) :
    beWord (t.load off 32) = v := by
  rw [load_eq_bytesAt, ← length_wordBytes v, h.bytesAt, beWord_wordBytes]

/-- Settles O29: `LDW` writes the big-endian value of the 32 bytes at `off`, whose range ends by 256 exactly when `off` is at most
224. -/
theorem ldwLoadsBigEndian : Obligations.LdwLoadsBigEndian := by
  refine fun rd off => ⟨commandForm_encode (.ldw rd off), fun s hs => ⟨fun hoff => ?_, exec_ldw_raises_range hs rd⟩⟩
  obtain ⟨t, hexec, hwrote⟩ := exec_ldw_wroteX hs rd hoff
  refine ⟨t, _, hexec, hwrote, fun k hk => ?_⟩
  have hlen := s.length_load off.toNat 32
  rw [extractLsb'_beWord hlen (hlen.symm ▸ hk), State.getElem_load]

/-- Settles O30: `STW` writes the 32 big-endian bytes of its source, and they load as the source's value. -/
theorem stwStoresBigEndian : Obligations.StwStoresBigEndian := by
  refine fun rs1 off => ⟨commandForm_encode (.stw rs1 off), fun s hs => ⟨fun hm hoff => ?_, exec_stw_raises_range hs rs1⟩⟩
  obtain ⟨t, hexec, hwrote⟩ := exec_stw_wroteBuf hs hm rs1 hoff
  have hlen := length_wordBytes (s.getX rs1)
  refine ⟨t, _, hexec, hwrote, hlen, fun k hk => ?_, fun rd => ?_⟩
  · rw [hwrote.written k (hlen.symm ▸ hk), getElem_wordBytes]
  · obtain ⟨u, hload, hloaded⟩ := exec_ldw_wroteX (hwrote.halted_eq.trans hs) rd hoff
    exact ⟨u, hload, hloaded.value.trans hwrote.load_word⟩

end Sys2Proof.Machine
end

section
/-! SUPPORT. What the rules of this family add to the commands' form: a register written with a value of a stated property, and the
inverse as numbers (R83, R87, R92). -/

namespace Sys2Proof.Machine

/-- A command that writes a value writes one with every property of that value. -/
theorem exec_wroteX_with {i : Instr} {s : State} (hs : s.halted = false) {rd : XReg} {v : Word} {P : Word → Prop}
    (hbody : bodyOf i s = .ok (s.setX rd v)) (hv : P v) : ∃ t v, exec i s = .next t ∧ WroteX s t rd v ∧ P v := by
  obtain ⟨t, hexec, hwrote⟩ := exec_wroteX hs hbody
  exact ⟨t, v, hexec, hwrote, hv⟩

/-! ## The inverse -/

/-- `v` is the one inverse of `a` in `[1, m)` (R83). -/
def UniqueInverse (m a v : Nat) : Prop :=
  1 ≤ v ∧ v < m ∧ (a * v) % m = 1 ∧ ∀ r : Nat, r < m → (a * r) % m = 1 → r = v

section
variable {m a : Nat}

/-- Modulo a prime, a factor that is no multiple of it cancels. -/
theorem eq_of_mul_mod_eq (hprime : m.Prime) (ha : a % m ≠ 0) {r v : Nat} (hr : r < m) (hv : v < m)
    (h : (a * r) % m = (a * v) % m) : r = v := by
  have hcoprime : m.Coprime a := hprime.coprime_iff_not_dvd.2 (mt Nat.mod_eq_zero_of_dvd ha)
  exact (Nat.ModEq.cancel_left_of_coprime hcoprime h).eq_of_lt_of_lt hr hv

/-- One inverse below a prime modulus is the only one, and it is not 0. -/
theorem uniqueInverse_of_mul_mod_eq_one (hprime : m.Prime) (ha : a % m ≠ 0) {v : Nat} (hv : v < m) (h : (a * v) % m = 1) :
    UniqueInverse m a v := by
  refine ⟨Nat.one_le_iff_ne_zero.2 ?_, hv, h, fun r hr hinv => eq_of_mul_mod_eq hprime ha hr hv (hinv.trans h.symm)⟩
  rintro rfl
  simp at h

/-- The multiples of a modulus below twice the modulus. -/
theorem mod_eq_zero_iff_of_lt_two_mul (ha : a < 2 * m) : a % m = 0 ↔ a = 0 ∨ a = m := by
  constructor
  · intro h
    obtain ⟨k, rfl⟩ := Nat.dvd_of_mod_eq_zero h
    have hk : k < 2 := Nat.lt_of_mul_lt_mul_left (Nat.mul_comm 2 m ▸ ha)
    interval_cases k <;> simp
  · rintro (rfl | rfl) <;> simp

end

/-- `ModInv` answers the one inverse: the scan's result is an inverse by Fermat's little theorem (`cast_modInv`). -/
theorem modInv_uniqueInverse {m : Nat} [hprime : Fact m.Prime] (hm : Modulus m) (h2 : 2 < m) {a v : Word}
    (ha : a.toNat % m ≠ 0) (hv : modInv m a = .ok v) : UniqueInverse m (a.toNat % m) v.toNat := by
  obtain ⟨hmul, hlt⟩ := cast_modInv hm h2 hv
  have hmod : a.toNat * v.toNat ≡ 1 [MOD m] := (ZMod.natCast_eq_natCast_iff _ _ _).1 (by push_cast; exact hmul)
  refine uniqueInverse_of_mul_mod_eq_one hprime.out (by rwa [Nat.mod_mod]) hlt ?_
  rw [Nat.mod_mul_mod, hmod, Nat.mod_eq_of_lt (by omega)]

section
variable {m : Nat} {i : Instr} {s : State} {rd : XReg} {a : Word} (hs : s.halted = false)
  (hbody : bodyOf i s = (modInv m a >>= fun r => .ok (s.setX rd r)))
include hs hbody

theorem exec_inverse_wroteX [Fact m.Prime] (hm : Modulus m) (h2 : 2 < m) (ha : a.toNat % m ≠ 0) :
    ∃ t v, exec i s = .next t ∧ WroteX s t rd v ∧ UniqueInverse m (a.toNat % m) v.toNat := by
  obtain ⟨v, hv⟩ := modInv_isOk ha
  refine exec_wroteX_with hs ?_ (modInv_uniqueInverse hm h2 ha hv)
  rw [hbody, hv, except_ok_bind]

theorem exec_inverse_raises (ha : a.toNat % m = 0) : ∃ t, exec i s = .next t ∧ Raised s t .fInvZero :=
  exec_raises hs (by rw [hbody, modInv_zero ha, except_error_bind])

end

end Sys2Proof.Machine
end

section
/-! PROOFS. Modular arithmetic (R80 to R94 [41_modular_arithmetic.md]). -/

namespace Sys2Proof.Machine

/-- Settles O31: the body of either command writes `modAdd`. -/
theorem addWritesResidueOfSum : Obligations.AddWritesResidueOfSum := fun rd rs1 rs2 =>
  ⟨commandForm_encode (.fadd rd rs1 rs2), commandForm_encode (.sadd rd rs1 rs2), fun _ hs =>
    ⟨exec_wroteX_with hs rfl (toNat_modAdd modulus_p _ _), exec_wroteX_with hs rfl (toNat_modAdd modulus_n _ _)⟩⟩

/-- Settles O32: the body of either command writes `modSub`. -/
theorem subWritesResidueOfDifference : Obligations.SubWritesResidueOfDifference := fun rd rs1 rs2 =>
  ⟨commandForm_encode (.fsub rd rs1 rs2), commandForm_encode (.ssub rd rs1 rs2), fun _ hs =>
    ⟨exec_wroteX_with hs rfl (toNat_modSub modulus_p _ _), exec_wroteX_with hs rfl (toNat_modSub modulus_n _ _)⟩⟩

/-- Settles O33: the body of either command writes `modMul`. -/
theorem mulWritesResidueOfProduct : Obligations.MulWritesResidueOfProduct := fun rd rs1 rs2 =>
  ⟨commandForm_encode (.fmul rd rs1 rs2), commandForm_encode (.smul rd rs1 rs2), fun _ hs =>
    ⟨exec_wroteX_with hs rfl (toNat_modMul modulus_p _ _), exec_wroteX_with hs rfl (toNat_modMul modulus_n _ _)⟩⟩

/-- Settles O34: the body of either command writes `modRed`. -/
theorem redWritesResidueOfWideValue : Obligations.RedWritesResidueOfWideValue := fun rd rs1 rs2 =>
  ⟨commandForm_encode (.fred rd rs1 rs2), commandForm_encode (.sred rd rs1 rs2), fun _ hs =>
    ⟨exec_wroteX_with hs rfl (toNat_modRed modulus_p _ _), exec_wroteX_with hs rfl (toNat_modRed modulus_n _ _)⟩⟩

/-- Settles O35: `p` is prime, so `ModInv` answers the inverse or its argument is a multiple of `p`. -/
theorem finvWritesUniqueInverse : Obligations.FinvWritesUniqueInverse := fun rd rs1 =>
  ⟨commandForm_encode (.finv rd rs1), fun _ hs =>
    have := fact_prime_p
    ⟨exec_inverse_wroteX hs rfl modulus_p (by decide), exec_inverse_raises hs rfl,
      mod_eq_zero_iff_of_lt_two_mul ((BitVec.isLt _).trans (by decide))⟩⟩

/-- Settles O36: `n` is prime, so `ModInv` answers the inverse or its argument is a multiple of `n`. -/
theorem sinvWritesUniqueInverse : Obligations.SinvWritesUniqueInverse := fun rd rs1 =>
  ⟨commandForm_encode (.sinv rd rs1), fun _ hs =>
    have := fact_prime_n
    ⟨exec_inverse_wroteX hs rfl modulus_n (by decide), exec_inverse_raises hs rfl,
      mod_eq_zero_iff_of_lt_two_mul ((BitVec.isLt _).trans (by decide))⟩⟩

end Sys2Proof.Machine
end

section
/-! SUPPORT. What the rules of this family add to the commands' form: a point register written with the answer of an engine, the
engines on points of the curve in the terms of Safety (R100 to R102), and the coordinates no point of the curve has. -/

namespace Sys2Proof.Machine

/-- A command that writes the point an engine answers writes one with every property of that answer. -/
theorem exec_wrotePt_with {i : Instr} {s : State} (hs : s.halted = false) {pd : PReg} {r : Except Cause Point}
    (hbody : bodyOf i s = (r >>= fun Q => .ok (s.setPt pd Q))) {Property : Point → Prop}
    (hr : ∃ R, r = .ok R ∧ Property R) : ∃ t R, exec i s = .next t ∧ WrotePt s t pd R ∧ Property R := by
  obtain ⟨R, rfl, hR⟩ := hr
  obtain ⟨t, hexec, hwrote⟩ := exec_wrotePt hs hbody
  exact ⟨t, R, hexec, hwrote, hR⟩

/-! ## The engines on points of the curve -/

/-- `PointAdd` answers the sum in the group of the curve, which is commutative (R100). -/
theorem pointAdd_isSum {P Q : Point} (hP : P.OnCurve) (hQ : Q.OnCurve) :
    ∃ R, pointAdd P Q = .ok R ∧ IsSum P Q R ∧ IsSum Q P R ∧ R.OnCurve := by
  have := fact_prime_p
  rw [← Point.valid_iff] at hP hQ
  obtain ⟨R, hadd, hvalid, hsum⟩ := pointAdd_spec hP hQ
  exact ⟨R, hadd, (isSum_iff hP hQ).2 ⟨hvalid, hsum⟩, (isSum_iff hQ hP).2 ⟨hvalid, hsum.trans (add_comm _ _)⟩,
    (Point.valid_iff R).1 hvalid⟩

/-- `PointDouble` answers the sum of the point with itself (R101). -/
theorem pointDouble_isSum {P : Point} (hP : P.OnCurve) : ∃ R, pointDouble P = .ok R ∧ IsSum P P R ∧ R.OnCurve := by
  have := fact_prime_p
  rw [← Point.valid_iff] at hP
  obtain ⟨R, hdouble, hvalid, hsum⟩ := pointDouble_spec hP
  exact ⟨R, hdouble, (isSum_iff hP hP).2 ⟨hvalid, hsum⟩, (Point.valid_iff R).1 hvalid⟩

/-- `ScalarMultiply` answers the `k`-fold sum, and `n` times any point of the curve is the identity (R102). -/
theorem scalarMultiply_kFold {P : Point} (hP : P.OnCurve) (k : Word) :
    ∃ R, scalarMultiply P k = .ok R ∧ KFold P k.toNat R ∧ KFold P (k.toNat % Config.n) R ∧ R.OnCurve := by
  have := fact_prime_p
  rw [← Point.valid_iff] at hP
  obtain ⟨R, hmul, hvalid, hfold⟩ := scalarMultiply_spec hP k
  exact ⟨R, hmul, (kFold_iff hP _ R).2 ⟨hvalid, hfold⟩, (kFold_iff hP _ R).2 ⟨hvalid, hfold.trans (smul_mod _ _).symm⟩,
    (Point.valid_iff R).1 hvalid⟩

/-! ## Coordinates of points of the curve -/

/-- The equation of the curve in the field (R103). -/
theorem OnCurve.equation {x y : Word} (h : OnCurve x y) : fp y ^ 2 = fp x ^ 3 + 7 :=
  ((onCurve_iff x y).1 ((onCurve_iff_OnCurve x y).2 h)).2.2

theorem not_onCurve_zero_left (y : Word) : ¬ OnCurve 0 y := fun h =>
  have := fact_prime_p
  x_ne_zero_of_equation h.equation fp_zero

theorem not_onCurve_zero_right (x : Word) : ¬ OnCurve x 0 := fun h =>
  have := fact_prime_p
  ne_zero_of_equation h.equation fp_zero

end Sys2Proof.Machine
end

section
/-! PROOFS. Curve points (R104 to R112 [42_curve_point.md]). -/

namespace Sys2Proof.Machine

/-- Settles O38: each body writes its point with no check before it. -/
theorem pinfPgenPmovWritePoint : Obligations.PinfPgenPmovWritePoint := fun pd ps1 =>
  ⟨commandForm_encode (.pinf pd), commandForm_encode (.pgen pd), commandForm_encode (.pmov pd ps1), fun _ hs =>
    ⟨exec_wrotePt hs rfl, exec_wrotePt hs rfl, exec_wrotePt hs rfl⟩⟩

/-- Settles O39: the machine's check passes exactly on the points of the curve (`onCurve_iff_OnCurve`). -/
theorem psetChecksTheCurve : Obligations.PsetChecksTheCurve := by
  refine fun pd rs1 rs2 => ⟨commandForm_encode (.pset pd rs1 rs2), fun s hs => ⟨fun hcurve => ?_, fun hcurve => ?_⟩⟩
  · rw [← onCurve_iff_OnCurve] at hcurve
    exact exec_wrotePt hs (by rw [bodyOf, hcurve, check_true, except_ok_bind])
  · rw [← onCurve_iff_OnCurve, Bool.not_eq_true] at hcurve
    exact exec_raises hs (by rw [bodyOf, hcurve, check_false, except_error_bind])

/-- Settles O40: the bodies write `Point.xc` and `Point.yc`, and 7 is no square modulo `p`. -/
theorem pgetReadsCoordinate : Obligations.PgetReadsCoordinate := by
  refine fun rd ps1 => ⟨commandForm_encode (.pgetx rd ps1), commandForm_encode (.pgety rd ps1), fun s hs =>
    ⟨fun hinf => ?_, fun x y haff => ?_, not_onCurve_zero_left⟩⟩
  · exact ⟨exec_wroteX hs (by rw [bodyOf, hinf, Point.xc]), exec_wroteX hs (by rw [bodyOf, hinf, Point.yc])⟩
  · exact ⟨exec_wroteX hs (by rw [bodyOf, haff, Point.xc]), exec_wroteX hs (by rw [bodyOf, haff, Point.yc])⟩

/-- Settles O41: `PointAdd` is the addition of the curve's group. -/
theorem paddWritesTheSum : Obligations.PaddWritesTheSum := fun pd ps1 ps2 =>
  ⟨commandForm_encode (.padd pd ps1 ps2), fun _ hs hP hQ => exec_wrotePt_with hs rfl (pointAdd_isSum hP hQ)⟩

/-- Settles O42: `PointDouble` is the doubling of the curve's group; the guard for `y = 0` answers the identity, and -7 is no cube
modulo `p`. -/
theorem pdblWritesTheDouble : Obligations.PdblWritesTheDouble := fun pd ps1 =>
  ⟨commandForm_encode (.pdbl pd ps1), fun _ hs hP => exec_wrotePt_with hs rfl (pointDouble_isSum hP),
    fun _ _ hs hguard => exec_wrotePt hs (by rw [bodyOf, hguard, pointDouble, if_pos rfl, except_ok_bind]),
    not_onCurve_zero_right⟩

/-- Settles O43: `ScalarMultiply` is the multiple in the curve's group, which has `n` elements. -/
theorem pmulWritesTheMultiple : Obligations.PmulWritesTheMultiple := fun pd ps1 rs2 =>
  ⟨commandForm_encode (.pmul pd ps1 rs2), fun _ hs hP => exec_wrotePt_with hs rfl (scalarMultiply_kFold hP _)⟩

end Sys2Proof.Machine
end

section
/-! PROOFS. Hashes (R124 to R127 [43_hash.md]). -/

namespace Sys2Proof.Machine

section
variable {s : State} {out : Nat} {dst src len : Byte} (hs : s.halted = false) (digest : Bytes → Bytes)
include hs

/-- The operand of the digest is the source as it was before the command (R34). -/
theorem hashBuf_wroteBuf (hm : s.buf.wf) (hsrc : src.toNat + len.toNat ≤ 256) (hdst : dst.toNat + out ≤ 256) :
    ∃ t, hashBuf digest out dst src len s = .next t ∧
      WroteBuf s t dst.toNat (digest (s.bytesAt src.toNat len.toNat)) := by
  rw [← load_eq_bytesAt]
  exact hashBuf_ok hs hm digest hsrc hdst

theorem hashBuf_raises_range (hpast : 256 < src.toNat + len.toNat ∨ 256 < dst.toNat + out) :
    ∃ t, hashBuf digest out dst src len s = .next t ∧ Raised s t .eRange :=
  hashBuf_range hs digest (by omega)

end

/-- Settles O44: the four commands are `hashBuf` at their digest and its width; R121 composes the double hashes. -/
theorem hashCommandsWriteDigest : Obligations.HashCommandsWriteDigest := fun dst src len =>
  ⟨commandForm_encode (.sha256 dst src len), commandForm_encode (.sha256d dst src len),
    commandForm_encode (.rmd160 dst src len), commandForm_encode (.hash160 dst src len), fun _ hs =>
    ⟨fun hm hsrc hdst => ⟨hashBuf_wroteBuf hs sha256 hm hsrc hdst, hashBuf_wroteBuf hs sha256d hm hsrc hdst⟩,
      fun hm hsrc hdst => ⟨hashBuf_wroteBuf hs rmd160 hm hsrc hdst, hashBuf_wroteBuf hs hash160 hm hsrc hdst⟩,
      fun hpast => ⟨hashBuf_raises_range hs sha256 hpast, hashBuf_raises_range hs sha256d hpast⟩,
      fun hpast => ⟨hashBuf_raises_range hs rmd160 hpast, hashBuf_raises_range hs hash160 hpast⟩⟩⟩

/-- Settles O45: each message pads to one block, which the kernel evaluates. -/
theorem hashesOfKnownMessages : Obligations.HashesOfKnownMessages :=
  ⟨by decide +kernel, by decide +kernel, by decide +kernel, by decide +kernel⟩

end Sys2Proof.Machine
end

section
/-! SUPPORT. What the rules of this family add to the commands' form: a command that stores its bytes after one range check
(R34, R37), and when a key derivation answers or fails (R142, R148). -/

namespace Sys2Proof.Machine

/-! ## Bytes stored after a range check -/

section
variable {i : Instr} {s : State} {off : Byte} {len : Nat} {r : Except Cause Bytes} (hs : s.halted = false)
  (hbody : bodyOf i s = (checkRange off len >>= fun _ => r >>= fun bs => .ok (s.store off.toNat bs)))
include hs hbody

theorem exec_checkedStore_wroteBuf (hm : s.buf.wf) (hin : off.toNat + len ≤ 256) {bs : Bytes} (hr : r = .ok bs) :
    ∃ t, exec i s = .next t ∧ WroteBuf s t off.toNat bs :=
  exec_wroteBuf hs hm (by rw [hbody, checkRange_ok hin, except_ok_bind, hr, except_ok_bind])

theorem exec_checkedStore_raises (hin : off.toNat + len ≤ 256) {c : Cause} (hr : r = .error c) :
    ∃ t, exec i s = .next t ∧ Raised s t c :=
  exec_raises hs (by rw [hbody, checkRange_ok hin, except_ok_bind, hr, except_error_bind])

/-- The range check comes before whatever the bytes' computation would raise. -/
theorem exec_checkedStore_raises_range (hpast : 256 < off.toNat + len) : ∃ t, exec i s = .next t ∧ Raised s t .eRange :=
  exec_raises hs (by rw [hbody, checkRange_error (by omega), except_error_bind])

end

/-! ## Key derivation -/

/-- One of the four reduced digests is the first that is not 0, or all four are 0 (R142). -/
theorem derives_or_all_zero (e salt : Word) :
    (∃ d : Nat, Derives e salt d) ∨ ∀ c : Nat, c < 4 → kdfDigest e salt c = 0 := by
  by_cases h : ∃ c : Nat, c < 4 ∧ kdfDigest e salt c ≠ 0
  · obtain ⟨hlt, hne⟩ := Nat.find_spec h
    exact .inl ⟨_, Nat.find h, hlt, fun j hj => not_not.1 fun hj0 => Nat.find_min h hj ⟨hj.trans hlt, hj0⟩, hne, rfl⟩
  · exact .inr fun c hc => not_not.1 fun hne => h ⟨c, hc, hne⟩

section
variable {e salt : Word} (testnet addrCompressed : Bool)

theorem keypairBytes_of_derivation_error {c : Cause} (h : derivePrivateKey e salt = .error c) :
    keypairBytes e salt testnet addrCompressed = .error c := by rw [keypairBytes, h, except_error_bind]

/-- The record of a derived key: its public key is a finite point, so neither encoding fails (R148, R195). -/
theorem keypairBytes_ok (he : e ≠ 0) (hsalt : salt ≠ 0) {d : Nat} (hd : Derives e salt d) :
    ∃ x y, KFold generator d (.aff x y) ∧ keypairBytes e salt testnet addrCompressed =
      .ok (bytesBe d 32 ++ uncompressedBytes x y ++ compressedBytes x y ++
        addressBytes (if addrCompressed then compressedBytes x y else uncompressedBytes x y) testnet) := by
  obtain ⟨v, hv, rfl, hkey⟩ := derivePrivateKey_ok he hsalt hd
  obtain ⟨x, y, hpub, hfold, -⟩ := derivePublicKey_ok hkey
  refine ⟨x, y, hfold, ?_⟩
  rw [keypairBytes, hv, except_ok_bind, hpub, except_ok_bind, encodeUncompressed_aff, except_ok_bind, encodeCompressed_aff,
    except_ok_bind, addressPayload_eq, wordBytes]

end

end Sys2Proof.Machine
end

section
/-! PROOFS. Key derivation and encodings (R144 to R148 [44_key_derivation.md]). -/

namespace Sys2Proof.Machine

theorem exec_dpriv_raises {s : State} (hs : s.halted = false) (rd : XReg) {rs1 rs2 : XReg} {c : Cause}
    (h : derivePrivateKey (s.getX rs1) (s.getX rs2) = .error c) : ∃ t, exec (.dpriv rd rs1 rs2) s = .next t ∧ Raised s t c :=
  exec_raises hs (by rw [bodyOf, h, except_error_bind])

/-- Settles O46: each clause is one answer of `derivePrivateKey`, and the first nonzero digest exists unless all four are 0. -/
theorem dprivDerivesPrivateKey : Obligations.DprivDerivesPrivateKey := by
  refine fun rd rs1 rs2 => ⟨commandForm_encode (.dpriv rd rs1 rs2), fun s hs =>
    ⟨fun he => exec_dpriv_raises hs rd (derivePrivateKey_entropy he _),
      fun he hsalt => exec_dpriv_raises hs rd (derivePrivateKey_salt he hsalt), fun he hsalt =>
      ⟨fun d hd => ?_, fun hzero => exec_dpriv_raises hs rd (derivePrivateKey_retry he hsalt hzero),
        derives_or_all_zero _ _⟩⟩⟩
  obtain ⟨v, hv, hvalue⟩ := derivePrivateKey_ok he hsalt hd
  exact exec_wroteX_with hs (by rw [bodyOf, hv, except_ok_bind]) hvalue

/-- Settles O47: `n` is the order of `G`, so no key in `[1, n)` gives the identity (`derivePublicKey_ok`). -/
theorem dpubWritesFinitePublicKey : Obligations.DpubWritesFinitePublicKey := by
  refine fun pd rs1 => ⟨commandForm_encode (.dpub pd rs1), fun s hs => ⟨fun hkey => ?_, fun hkey => ?_⟩⟩
  · obtain ⟨x, y, hpub, hpoint⟩ := derivePublicKey_ok hkey
    obtain ⟨t, hexec, hwrote⟩ := exec_wrotePt (i := .dpub pd rs1) hs (by rw [bodyOf, hpub, except_ok_bind])
    exact ⟨t, x, y, hexec, hwrote, hpoint⟩
  · exact exec_raises hs (by rw [bodyOf, derivePublicKey_refused hkey, except_error_bind])

/-- Settles O48: both commands store an encoding after the range check, and the encodings fail on the identity alone. -/
theorem encodingsOfPoint : Obligations.EncodingsOfPoint := by
  refine fun ps1 off => ⟨commandForm_encode (.encu ps1 off), commandForm_encode (.encc ps1 off), fun s hs =>
    ⟨fun x y hm haff => ⟨fun hoff => ?_, fun hoff => ?_⟩, fun hinf => ⟨fun hoff => ?_, fun hoff => ?_⟩,
      fun hoff => exec_checkedStore_raises_range hs rfl (by omega),
      fun hoff => exec_checkedStore_raises_range hs rfl (by omega)⟩⟩
  · exact exec_checkedStore_wroteBuf hs rfl hm (by omega) (by rw [haff, encodeUncompressed_aff])
  · exact exec_checkedStore_wroteBuf hs rfl hm (by omega) (by rw [haff, encodeCompressed_aff])
  · exact exec_checkedStore_raises hs rfl (by omega) (by rw [hinf, encodeUncompressed])
  · exact exec_checkedStore_raises hs rfl (by omega) (by rw [hinf, encodeCompressed])

/-- Settles O49: after the range check `KEYPAIR` fails as the key derivation does, and a derived key gives the record. -/
theorem keypairWritesItsRecord : Obligations.KeypairWritesItsRecord := by
  refine fun rs1 rs2 off testnet addrCompressed => ⟨commandForm_encode (.keypair rs1 rs2 off testnet addrCompressed),
    fun s hs => ⟨fun hoff => exec_checkedStore_raises_range hs rfl (by omega), fun hoff => ?_⟩⟩
  have raises {c : Cause} (h : derivePrivateKey (s.getX rs1) (s.getX rs2) = .error c) :
      ∃ t, exec (.keypair rs1 rs2 off testnet addrCompressed) s = .next t ∧ Raised s t c :=
    exec_checkedStore_raises hs rfl (by omega) (keypairBytes_of_derivation_error testnet addrCompressed h)
  refine ⟨fun he => raises (derivePrivateKey_entropy he _), fun he hsalt => raises (derivePrivateKey_salt he hsalt),
    fun he hsalt => ⟨fun d hm hd => ?_, fun hzero => raises (derivePrivateKey_retry he hsalt hzero)⟩⟩
  obtain ⟨x, y, hfold, hbytes⟩ := keypairBytes_ok testnet addrCompressed he hsalt hd
  obtain ⟨t, hexec, hwrote⟩ :=
    exec_checkedStore_wroteBuf (i := .keypair rs1 rs2 off testnet addrCompressed) hs rfl hm (by omega) hbytes
  exact ⟨t, x, y, hexec, hfold, hwrote⟩

end Sys2Proof.Machine
end

section
/-! SUPPORT. The address commands (R160 to R162 [45_address_codec.md]): what their shared operation does when a check fails and when
none fails, and the two parts of the payload read back from the buffer. -/

namespace Sys2Proof.Machine

theorem checkPubkeyLen_ok {len : Byte} (h : len.toNat = 33 ∨ len.toNat = 65) : checkPubkeyLen len = .ok () :=
  checkPubkeyLen_eq_ok.2 (by simpa only [pubkeyLen, Bool.or_eq_true, beq_iff_eq] using h)

theorem checkPubkeyLen_error {len : Byte} (h : len.toNat ≠ 33 ∧ len.toNat ≠ 65) : checkPubkeyLen len = .error .eLen :=
  checkPubkeyLen_eq_error.2 ⟨by simpa only [pubkeyLen, Bool.or_eq_false_iff, beq_eq_false_iff_ne] using h, rfl⟩

/-! ## The three ways an address command ends -/

theorem exec_address (dst src len : Byte) (testnet : Bool) (s : State) :
    exec (if testnet then .genaddrt dst src len else .genaddr dst src len) s = addressBuf testnet dst src len s := by
  cases testnet <;> rfl

section
variable {s : State} {dst src len : Byte} (testnet : Bool) (hs : s.halted = false)
include hs

/-- The length is tested first, so the ranges do not matter (R161). -/
theorem addressBuf_raises_len (hlen : len.toNat ≠ 33 ∧ len.toNat ≠ 65) :
    ∃ t, addressBuf testnet dst src len s = .next t ∧ Raised s t .eLen :=
  command_raises hs (by rw [checkPubkeyLen_error hlen, except_error_bind])

theorem addressBuf_raises_range (hlen : len.toNat = 33 ∨ len.toNat = 65)
    (hpast : 256 < src.toNat + len.toNat ∨ 256 < dst.toNat + 25) :
    ∃ t, addressBuf testnet dst src len s = .next t ∧ Raised s t .eRange :=
  command_raises hs (by rw [checkPubkeyLen_ok hlen, except_ok_bind, checkRanges_error (by omega), except_error_bind])

/-- The payload is that of the source as it was before the command, also where the two ranges overlap (R161). -/
theorem addressBuf_wroteBuf (hm : s.buf.wf) (hlen : len.toNat = 33 ∨ len.toNat = 65)
    (hsrc : src.toNat + len.toNat ≤ 256) (hdst : dst.toNat + 25 ≤ 256) :
    ∃ t, addressBuf testnet dst src len s = .next t ∧
      WroteBuf s t dst.toNat (addressBytes (s.bytesAt src.toNat len.toNat) testnet) := by
  rw [← load_eq_bytesAt, ← addressPayload_eq]
  exact command_wroteBuf hs hm (by rw [checkPubkeyLen_ok hlen, except_ok_bind, checkRanges_ok hsrc hdst, except_ok_bind])

end

/-- A raise never reports success (R191). -/
theorem Raised.err_ne_zero {s t : State} {c : Cause} (h : Raised s t c) : errOf t.status ≠ 0x00 :=
  h.err ▸ c.code_ne_zero

/-- An address command that reports success passed both checks, so it wrote the payload. -/
theorem addressBuf_succeeded {s t : State} {dst src len : Byte} {testnet : Bool} (hs : s.halted = false) (hm : s.buf.wf)
    (h : addressBuf testnet dst src len s = .next t) (herr : errOf t.status = 0x00) :
    WroteBuf s t dst.toNat (addressBytes (s.bytesAt src.toNat len.toNat) testnet) := by
  have no_raise {c : Cause} (hraise : ∃ u, addressBuf testnet dst src len s = .next u ∧ Raised s u c) : False := by
    obtain ⟨u, hu, hraised⟩ := hraise
    cases h.symm.trans hu
    exact hraised.err_ne_zero herr
  by_cases hlen : len.toNat = 33 ∨ len.toNat = 65
  · by_cases hpast : 256 < src.toNat + len.toNat ∨ 256 < dst.toNat + 25
    · exact (no_raise (addressBuf_raises_range testnet hs hlen hpast)).elim
    · have hin : src.toNat + len.toNat ≤ 256 ∧ dst.toNat + 25 ≤ 256 := by omega
      obtain ⟨u, hu, hwrote⟩ := addressBuf_wroteBuf testnet hs hm hlen hin.1 hin.2
      cases h.symm.trans hu
      exact hwrote
  · exact (no_raise (addressBuf_raises_len testnet hs (not_or.1 hlen))).elim

/-! ## Two parts of a byte string in the buffer -/

@[simp] theorem State.length_bytesAt (s : State) (off len : Nat) : (s.bytesAt off len).length = len := by
  simp [State.bytesAt]

theorem State.bytesAt_add (s : State) (off m n : Nat) :
    s.bytesAt off (m + n) = s.bytesAt off m ++ s.bytesAt (off + m) n := by
  simp [State.bytesAt, List.range_add, Nat.add_assoc]

/-- Each of two byte strings written one after the other is read back at its own place. -/
theorem WroteBuf.bytesAt_append {s t : State} {off : Nat} {bs cs : Bytes} (h : WroteBuf s t off (bs ++ cs)) :
    t.bytesAt off bs.length = bs ∧ t.bytesAt (off + bs.length) cs.length = cs := by
  have hread := h.bytesAt
  rw [List.length_append, State.bytesAt_add] at hread
  exact List.append_inj hread (by simp)

/-! ## The two parts of a payload -/

/-- The first 21 bytes of a payload: the version and the digest of the public key (R160). -/
def addressBody (pub : Bytes) (testnet : Bool) : Bytes := (if testnet then 0x6F else 0x00) :: rmd160 (sha256 pub)

@[simp] theorem length_addressBody (pub : Bytes) (testnet : Bool) : (addressBody pub testnet).length = 21 := by
  simp [addressBody]

/-- The payload is its body and the first four bytes of the body's double digest (R160). -/
theorem addressBytes_eq_body_append (pub : Bytes) (testnet : Bool) : addressBytes pub testnet =
    addressBody pub testnet ++ (sha256 (sha256 (addressBody pub testnet))).take 4 := rfl

theorem length_addressBytes (pub : Bytes) (testnet : Bool) : (addressBytes pub testnet).length = 25 := by
  rw [← addressPayload_eq, length_addressPayload]

end Sys2Proof.Machine
end

section
/-! PROOFS. Address codec (R161 to R163 [45_address_codec.md]). -/

namespace Sys2Proof.Machine

/-- Settles O50: both commands are `addressBuf`, at mainnet and at testnet, and it ends in one of three ways. -/
theorem addressCommandsWritePayload : Obligations.AddressCommandsWritePayload := fun dst src len =>
  ⟨commandForm_encode (.genaddr dst src len), commandForm_encode (.genaddrt dst src len), fun _ hs =>
    ⟨fun hlen => ⟨addressBuf_raises_len false hs hlen, addressBuf_raises_len true hs hlen⟩, fun hlen =>
      ⟨fun hpast => ⟨addressBuf_raises_range false hs hlen hpast, addressBuf_raises_range true hs hlen hpast⟩,
        fun hm hsrc hdst =>
          ⟨addressBuf_wroteBuf false hs hm hlen hsrc hdst, addressBuf_wroteBuf true hs hm hlen hsrc hdst⟩⟩⟩⟩

/-- Settles O51: a success wrote the payload, whose body and checksum are read back each at its own place. -/
theorem addressChecksumIsOfItsBody : Obligations.AddressChecksumIsOfItsBody := by
  intro dst src len testnet s t hs hm hexec herr
  rw [exec_address] at hexec
  have hwrote := addressBuf_succeeded hs hm hexec herr
  have houtside := hwrote.outside
  rw [length_addressBytes] at houtside
  have hversion := hwrote.written 0 (by rw [length_addressBytes]; decide)
  obtain ⟨hbody, hchecksum⟩ := (addressBytes_eq_body_append _ _ ▸ hwrote).bytesAt_append
  rw [length_addressBody] at hbody hchecksum
  rw [List.length_take_of_le (by simp)] at hchecksum
  refine ⟨hversion, ?_, houtside⟩
  rw [hbody, hchecksum]

end Sys2Proof.Machine
end

section
/-! SUPPORT. The signing commands (R170 to R177 [46_signer.md]): their bodies as a store after a range check, what a success leaves in
the buffer, and what an accepted candidate's signature satisfies. -/

namespace Sys2Proof.Machine

/-! ## The two bodies -/

theorem serializeSig_eq_signatureBytes (sig : Signature) : serializeSig sig = signatureBytes sig := rfl

theorem bodyOf_sign (rs1 rs2 : XReg) (off : Byte) (s : State) : bodyOf (.sign rs1 rs2 off) s =
    (checkRange off 65 >>= fun _ => signatureBytes <$> sign (s.getX rs1) (s.getX rs2) >>= fun bs =>
      .ok (s.store off.toNat bs)) := by
  simp only [bodyOf, serializeSig_eq_signatureBytes, bind_map_left]

theorem bodyOf_signtx (rs1 rs2 : XReg) (off imm8 : Byte) (s : State) : bodyOf (.signtx rs1 rs2 off imm8) s =
    (checkRange off 66 >>= fun _ => (signatureBytes · ++ [imm8]) <$> sign (s.getX rs1) (s.getX rs2) >>= fun bs =>
      .ok (s.store off.toNat bs)) := by
  simp only [bodyOf, serializeTx, serializeSig_eq_signatureBytes, bind_map_left]

/-! ## What `Sign` answers -/

theorem eq_digestScalar {e z : Word} (h : z.toNat = e.toNat % Config.n) : z = digestScalar e :=
  BitVec.eq_of_toNat_eq (h.trans (toNat_ofNat_mod modulus_n _).symm)

theorem rejects_or_accepts (d z k : Word) : Rejects d z k ∨ ∃ sig, Accepts d z k sig := by
  obtain ⟨sig, haccepts, -⟩ | ⟨hrejects, -⟩ := signWith_spec d z k
  · exact .inr ⟨sig, haccepts⟩
  · exact .inl hrejects

/-- Whatever `Sign` answers is the signature of an accepted candidate (R173). -/
theorem accepts_of_sign_ok {d e : Word} {sig : Signature} (h : sign d e = .ok sig) :
    ∃ k, Accepts d (digestScalar e) k sig := by
  unfold sign at h
  split at h
  · exact signLoop_ok (j := 0) h
  · cases h

/-! ## What a success leaves in the buffer -/

/-- A command that stores its bytes after a range check and reports success has written them. -/
theorem exec_checkedStore_succeeded {i : Instr} {s t : State} {off : Byte} {len : Nat} {r : Except Cause Bytes}
    (hbody : bodyOf i s = (checkRange off len >>= fun _ => r >>= fun bs => .ok (s.store off.toNat bs))) (hm : s.buf.wf)
    (h : exec i s = .next t) (herr : errOf t.status = 0x00) : ∃ bs, r = .ok bs ∧ WroteBuf s t off.toNat bs := by
  obtain ⟨c, rfl⟩ | ⟨u, hu, rfl⟩ := exec_ends h
  · exact absurd herr (errOf_raise_ne_zero s c)
  · rw [hbody] at hu
    obtain ⟨-, -, hu⟩ := bind_eq_ok.1 hu
    obtain ⟨bs, hr, hu⟩ := bind_eq_ok.1 hu
    cases hu
    exact ⟨bs, hr, wroteBuf_succeed hm _ bs⟩

theorem map_eq_ok {α β : Type} {f : α → β} {a : Except Cause α} {b : β} : f <$> a = .ok b ↔ ∃ x, a = .ok x ∧ f x = b := by
  cases a <;> simp

/-- A successful `SIGN` or `SIGNTX` has written a signature that `Sign` answered, `SIGNTX` with one byte after it. -/
theorem exec_sign_succeeded {i : Instr} {rs1 rs2 : XReg} {off imm8 : Byte} {s t : State}
    (hi : i = .sign rs1 rs2 off ∨ i = .signtx rs1 rs2 off imm8) (hm : s.buf.wf) (h : exec i s = .next t)
    (herr : errOf t.status = 0x00) :
    ∃ sig rest, sign (s.getX rs1) (s.getX rs2) = .ok sig ∧ WroteBuf s t off.toNat (signatureBytes sig ++ rest) := by
  obtain rfl | rfl := hi
  · obtain ⟨_, hbytes, hwrote⟩ := exec_checkedStore_succeeded (bodyOf_sign ..) hm h herr
    obtain ⟨sig, hsign, rfl⟩ := map_eq_ok.1 hbytes
    exact ⟨sig, [], hsign, by rwa [List.append_nil]⟩
  · obtain ⟨_, hbytes, hwrote⟩ := exec_checkedStore_succeeded (bodyOf_signtx ..) hm h herr
    obtain ⟨sig, hsign, rfl⟩ := map_eq_ok.1 hbytes
    exact ⟨sig, [imm8], hsign, hwrote⟩

@[simp] theorem length_signatureBytes (sig : Signature) : (signatureBytes sig).length = 65 := length_serializeSig sig

theorem State.bytesAt_one (s : State) (off : Nat) : s.bytesAt off 1 = [s.byteAt off] := rfl

/-- The three parts of a signature, read back from the buffer each at its own place (R176). -/
theorem WroteBuf.signature_parts {s t : State} {off : Nat} {sig : Signature} {rest : Bytes}
    (h : WroteBuf s t off (signatureBytes sig ++ rest)) :
    be (t.bytesAt off 32) = sig.r.toNat ∧ be (t.bytesAt (off + 32) 32) = sig.s.toNat ∧
      t.byteAt (off + 64) = if sig.v then 1 else 0 := by
  have hread := h.bytesAt_append.1
  rw [length_signatureBytes, State.bytesAt_add t off 64 1, State.bytesAt_add t off 32 32,
    State.bytesAt_one] at hread
  obtain ⟨hrs, hv⟩ := List.append_inj hread (by simp)
  obtain ⟨hr, hs⟩ := List.append_inj hrs (by simp)
  exact ⟨by rw [hr]; exact be_wordBytes _, by rw [hs]; exact be_wordBytes _, List.head_eq_of_cons_eq hv⟩

/-! ## The signature of an accepted candidate -/

section
variable {d z k : Word} {sig : Signature} (h : Accepts d z k sig)
include h

theorem Accepts.r_range : 1 ≤ sig.r.toNat ∧ sig.r.toNat < Config.n := by
  obtain ⟨-, x, -, -, -, hr, hne, -⟩ := h
  exact ⟨Nat.one_le_iff_ne_zero.2 hne, hr ▸ Nat.mod_lt _ modulus_n.1⟩

/-- `n` is odd, so the smaller of `s0` and `n - s0` is at most `HALF_N` (R173 step 6). -/
theorem Accepts.s_range : 1 ≤ sig.s.toNat ∧ sig.s.toNat ≤ Config.halfN := by
  obtain ⟨-, -, -, s0, -, -, -, hpos, hlt, -, hs, -⟩ := h
  have hodd : Config.n = 2 * Config.halfN + 1 := by decide
  rw [hs]
  split <;> omega

end

/-- Making `s` canonical changes it at most by its sign: with `w` its inverse, the scalar of the verification is the nonce or its
negative. -/
theorem verification_scalar {d z k r s0 s w : Nat} (hlt : s0 < Config.n) (hk : k * s0 % Config.n = (z + r * d) % Config.n)
    (hs : s = if s0 > Config.halfN then Config.n - s0 else s0) (hw : s * w % Config.n = 1) :
    ((z * w % Config.n + r * w % Config.n * d : ℕ) : ZMod Config.n) = k ∨
      ((z * w % Config.n + r * w % Config.n * d : ℕ) : ZMod Config.n) = -k := by
  have hk' : (k : ZMod Config.n) * s0 = z + r * d := by exact_mod_cast (zmod_eq_iff _ _).2 hk
  have hw' : (s : ZMod Config.n) * w = 1 := by exact_mod_cast (zmod_eq_iff (s * w) 1).2 (hw.trans (by decide))
  have hscalar : ((z * w % Config.n + r * w % Config.n * d : ℕ) : ZMod Config.n) = k * (s0 * w) := by
    push_cast [ZMod.natCast_mod]
    linear_combination -(w : ZMod Config.n) * hk'
  rw [hscalar]
  split at hs
  · have hneg : (s : ZMod Config.n) = -s0 := by rw [hs, Nat.cast_sub hlt.le, ZMod.natCast_self, zero_sub]
    exact .inr (by linear_combination -(k : ZMod Config.n) * hw' + k * w * hneg)
  · exact .inl (by rw [← hs, hw', mul_one])

section
variable [Fact (Nat.Prime Config.p)]

/-- Multiples of the generator by scalars equal modulo `n`, its order, are equal. -/
theorem smul_generator_of_cast_eq {j k : Nat} (h : (j : ZMod Config.n) = k) : j • toE generator = k • toE generator :=
  smul_generator_congr ((zmod_eq_iff j k).1 h)

theorem smul_generator_of_cast_eq_neg {j k : Nat} (h : (j : ZMod Config.n) = -k) :
    j • toE generator = -(k • toE generator) := by
  rw [eq_neg_iff_add_eq_zero, ← add_smul, smul_generator_eq_zero, ← Nat.dvd_iff_mod_eq_zero, ← ZMod.natCast_eq_zero_iff,
    Nat.cast_add, h, neg_add_cancel]

/-- A point and its negative have the same first coordinate. -/
theorem exists_aff_of_toE_eq_or_neg {x y : Word} {R : Point} (hP : (Point.aff x y).valid = true) (hR : R.valid = true)
    (h : toE R = toE (.aff x y) ∨ toE R = -toE (.aff x y)) : ∃ y', R = .aff x y' := by
  cases R with
  | inf =>
    have hzero : toE (.aff x y) = 0 := by
      obtain h | h := h
      · exact h.symm
      · exact neg_eq_zero.1 h.symm
    cases (toE_eq_zero hP).1 hzero
  | aff x' y' =>
    rw [toE_aff (nonsingular_of_onCurve hP), toE_aff (nonsingular_of_onCurve hR), WeierstrassCurve.Affine.Point.neg_some] at h
    have hx : fp x' = fp x := by
      obtain h | h := h
      · exact (WeierstrassCurve.Affine.Point.some.inj h).1
      · exact (WeierstrassCurve.Affine.Point.some.inj h).1
    exact ⟨y', by rw [fp_inj ((onCurve_iff x' y').1 hR).1 ((onCurve_iff x y).1 hP).1 hx]⟩

end

/-- The verification of ECDSA: `(z w) G + (r w) (d G)` is the nonce's point or its negative, whose first coordinate gave `r` (R177). -/
theorem Accepts.verifies {d z k : Word} {sig : Signature} (h : Accepts d z k sig) {w : Nat} {Q A B R : Point}
    (hw : sig.s.toNat * w % Config.n = 1) (hQ : KFold generator d.toNat Q)
    (hA : KFold generator (z.toNat * w % Config.n) A) (hB : KFold Q (sig.r.toNat * w % Config.n) B) (hR : IsSum A B R) :
    ∃ x y : Word, R = .aff x y ∧ x.toNat % Config.n = sig.r.toNat := by
  have := fact_prime_p
  obtain ⟨-, x, y, s0, hnonce, hr, -, -, hlt, hk, hs, -⟩ := h
  obtain ⟨hvalid, hnonce⟩ := toE_of_kFold generator_valid hnonce
  obtain ⟨hQvalid, hQ⟩ := toE_of_kFold generator_valid hQ
  obtain ⟨hAvalid, hA⟩ := toE_of_kFold generator_valid hA
  obtain ⟨hBvalid, hB⟩ := toE_of_kFold hQvalid hB
  obtain ⟨hRvalid, hR⟩ := toE_of_isSum hAvalid hBvalid hR
  rw [hA, hB, hQ, ← mul_smul, ← add_smul] at hR
  have hsign : toE R = toE (.aff x y) ∨ toE R = -toE (.aff x y) := by
    rw [hR, hnonce]
    exact (verification_scalar hlt hk hs hw).imp smul_generator_of_cast_eq smul_generator_of_cast_eq_neg
  obtain ⟨y', rfl⟩ := exists_aff_of_toE_eq_or_neg hvalid hRvalid hsign
  exact ⟨x, y', rfl, hr.symm⟩

end Sys2Proof.Machine
end

section
/-! PROOFS. Signatures (R174 to R177 [46_signer.md]). -/

namespace Sys2Proof.Machine

/-- Settles O52: both commands store what `Sign` answers after the range check, and `Sign` refuses the key, answers the first accepted
candidate's signature or has rejected all eight. -/
theorem signCommandsWriteSignature : Obligations.SignCommandsWriteSignature := by
  refine fun rs1 rs2 off imm8 => ⟨commandForm_encode (.sign rs1 rs2 off), commandForm_encode (.signtx rs1 rs2 off imm8),
    fun s z hs hz => ?_⟩
  have hsign := bodyOf_sign rs1 rs2 off s
  have hsigntx := bodyOf_signtx rs1 rs2 off imm8 s
  have hdigest := eq_digestScalar hz
  refine ⟨fun hoff => exec_checkedStore_raises_range hs hsign (by omega),
    fun hoff => exec_checkedStore_raises_range hs hsigntx (by omega), fun hkey => ?_,
    fun hkey => ⟨fun j sig hm hj hrejects haccepts => ?_, fun hrejects => ?_, fun _ => rejects_or_accepts _ _ _⟩⟩
  · rw [sign_refused hkey] at hsign hsigntx
    exact ⟨fun hoff => exec_checkedStore_raises hs hsign (by omega) rfl,
      fun hoff => exec_checkedStore_raises hs hsigntx (by omega) rfl⟩
  · rw [sign_ok hdigest hkey hj hrejects haccepts] at hsign hsigntx
    exact ⟨fun hoff => exec_checkedStore_wroteBuf hs hsign hm (by omega) rfl,
      fun hoff => exec_checkedStore_wroteBuf hs hsigntx hm (by omega) rfl⟩
  · rw [sign_retry hdigest hkey hrejects] at hsign hsigntx
    exact ⟨fun hoff => exec_checkedStore_raises hs hsign (by omega) rfl,
      fun hoff => exec_checkedStore_raises hs hsigntx (by omega) rfl⟩

/-- Settles O53: a success wrote the signature of an accepted candidate, whose ranges and verification are `Accepts.r_range`,
`Accepts.s_range` and `Accepts.verifies`. -/
theorem signatureIsCanonicalAndVerifies : Obligations.SignatureIsCanonicalAndVerifies := by
  rintro i rs1 rs2 off imm8 s t hi - hm hexec herr _ _ rfl rfl
  obtain ⟨sig, rest, hsign, hwrote⟩ := exec_sign_succeeded hi hm hexec herr
  obtain ⟨k, haccepts⟩ := accepts_of_sign_ok hsign
  obtain ⟨hr, hsg, hv⟩ := hwrote.signature_parts
  rw [hr, hsg, hv]
  obtain ⟨hr_pos, hr_lt⟩ := haccepts.r_range
  obtain ⟨hs_pos, hs_le⟩ := haccepts.s_range
  refine ⟨hr_pos, hr_lt, hs_pos, hs_le, ?_, fun w Q A B R hw hQ hA hB hR => haccepts.verifies hw hQ ?_ hB hR⟩
  · cases sig.v
    · exact .inl rfl
    · exact .inr rfl
  · rwa [digestScalar, toNat_ofNat_mod modulus_n]

end Sys2Proof.Machine
end

section
/-! SUPPORT. Why a command fails (R191, R195, R196 [60_exceptions.md]): the engines never meet an inverse of 0 or an unexpected
identity on points of the curve, and a body raises the first of its command's checks that fails or one of the fatal failures of R195. -/

namespace Sys2Proof.Machine

/-! ## The engines on points of the curve -/

section
variable {P : Point} {c : Cause} (hP : P.OnCurve)
include hP

theorem pointAdd_ne_error {Q : Point} (hQ : Q.OnCurve) : pointAdd P Q ≠ .error c := by
  obtain ⟨R, hadd, -⟩ := pointAdd_isSum hP hQ
  simp [hadd]

theorem pointDouble_ne_error : pointDouble P ≠ .error c := by
  obtain ⟨R, hdouble, -⟩ := pointDouble_isSum hP
  simp [hdouble]

theorem scalarMultiply_ne_error (k : Word) : scalarMultiply P k ≠ .error c := by
  obtain ⟨R, hmul, -⟩ := scalarMultiply_kFold hP k
  simp [hmul]

end

/-- A key in `[1, n)` has a finite public key, so the only error is the key's own (R143, R195). -/
theorem derivePublicKey_eq_error {d : Word} {c : Cause} (h : derivePublicKey d = .error c) : ¬ IsPrivateKey d ∧ c = .ePrivkey := by
  by_cases hd : IsPrivateKey d
  · obtain ⟨x, y, hpub, -⟩ := derivePublicKey_ok hd
    cases hpub.symm.trans h
  · cases (derivePublicKey_refused hd).symm.trans h
    exact ⟨hd, rfl⟩

/-- A candidate is accepted or rejected and never raises (`signWith_spec`), so the loop fails by running out of attempts alone. -/
theorem signLoop_eq_error {d z : Word} {a : Nat} {kv : NonceState} {c : Cause} (h : signLoop d z a kv = .error c) :
    c = .fRetryNonce := by
  induction a generalizing kv with
  | zero => cases h; rfl
  | succ a ih =>
    rw [signLoop] at h
    obtain ⟨sig, -, hsign⟩ | ⟨-, hsign⟩ := signWith_spec d z (beWord (nonceCandidate kv).V)
    · rw [hsign, except_ok_bind] at h
      cases h
    · rw [hsign, except_ok_bind] at h
      exact ih h

theorem sign_eq_error {d e : Word} {c : Cause} (h : sign d e = .error c) :
    (¬ IsPrivateKey d ∧ c = .ePrivkey) ∨ c = .fRetryNonce := by
  by_cases hd : IsPrivateKey d
  · rw [sign, if_pos ((validKey_iff d).2 hd)] at h
    exact .inr (signLoop_eq_error h)
  · cases (sign_refused hd e).symm.trans h
    exact .inl ⟨hd, rfl⟩

/-- `KEYPAIR` fails as its key derivation does: a derived key lies in `[1, n)`, so its public key is a finite point (R148, R195). -/
theorem keypairBytes_eq_error {e salt : Word} {testnet addrCompressed : Bool} {c : Cause}
    (h : keypairBytes e salt testnet addrCompressed = .error c) : derivePrivateKey e salt = .error c := by
  obtain hderive | ⟨d, hd, hpub⟩ := keypairBytes_error h
  · exact hderive
  · obtain ⟨x, y, hfinite, -⟩ := derivePublicKey_ok ((validKey_iff d).1 (derivePrivateKey_valid hd))
    simp [hfinite] at hpub

/-- The operand checks of `DPRIV` and `KEYPAIR` are those of the derivation, entropy before salt (R142). -/
theorem derivePrivateKey_refused {e salt : Word} {c : Cause}
    (h : (e = 0 ∧ c = .eEntropy) ∨ (e ≠ 0 ∧ salt = 0 ∧ c = .eSalt)) : derivePrivateKey e salt = .error c := by
  obtain ⟨he, rfl⟩ | ⟨he, hsalt, rfl⟩ := h
  · exact derivePrivateKey_entropy he salt
  · exact derivePrivateKey_salt he hsalt

/-! ## Errors of composed bodies -/

/-- Writing the result is never what fails. -/
theorem bind_ok_eq_error {α β : Type} {a : Except Cause α} {f : α → β} {c : Cause} :
    (a >>= fun x => .ok (f x)) = .error c ↔ a = .error c := by
  cases a <;> simp

section
variable {α β : Type} {off : Byte} {len : Nat} {a : Except Cause α} {f : α → β} {c : Cause}

/-- A computation after a range check fails by the check or, where that passes, on its own. -/
theorem checkRange_bind_eq_error (h : (checkRange off len >>= fun _ => a >>= fun x => .ok (f x)) = .error c) :
    (fitsBuf off.toNat len = false ∧ c = .eRange) ∨ (fitsBuf off.toNat len = true ∧ a = .error c) := by
  obtain hcheck | ⟨_, hcheck, ha⟩ := bind_eq_error.1 h
  · exact .inl (check_eq_error.1 hcheck)
  · exact .inr ⟨check_eq_ok.1 hcheck, bind_ok_eq_error.1 ha⟩

theorem checkRange_bind_of_error (hin : fitsBuf off.toNat len = true) (ha : a = .error c) :
    (checkRange off len >>= fun _ => a >>= fun x => .ok (f x)) = .error c :=
  bind_eq_error.2 (.inr ⟨(), check_eq_ok.2 hin, bind_ok_eq_error.2 ha⟩)

end

/-! ## A failing check is raised -/

section
variable {i : Instr} {s : State}

/-- Only the address commands check a length, before anything else (R161). -/
theorem body_of_lenOk_eq_false (h : i.lenOk = false) : bodyOf i s = .error .eLen := by
  cases i with
  | genaddr dst src len | genaddrt dst src len => exact bind_eq_error.2 (.inl (check_eq_error.2 ⟨h, rfl⟩))
  | _ => cases h

/-- The range check is the first check of every command that has one, but for the length of the address commands (R37). -/
theorem body_of_rangesOk_eq_false (hlen : i.lenOk = true) (h : i.rangesOk = false) : bodyOf i s = .error .eRange := by
  cases i with
  | ldw | stw | sha256 | sha256d | rmd160 | hash160 | encu | encc | keypair | sign | signtx =>
    exact bind_eq_error.2 (.inl (check_eq_error.2 ⟨h, rfl⟩))
  | genaddr | genaddrt =>
    exact bind_eq_error.2 (.inr ⟨(), check_eq_ok.2 hlen, bind_eq_error.2 (.inl (check_eq_error.2 ⟨h, rfl⟩))⟩)
  | _ => cases h

/-- The operands are checked after the form of the command (R196). -/
theorem body_of_operandFailure {c : Cause} (hform : i.wellFormed = true) (h : OperandFailure i s c) :
    bodyOf i s = .error c := by
  cases i with
  | dpriv => exact bind_ok_eq_error.2 (derivePrivateKey_refused h)
  | keypair =>
    exact checkRange_bind_of_error hform (keypairBytes_of_derivation_error _ _ (derivePrivateKey_refused h))
  | dpub =>
    obtain ⟨hkey, rfl⟩ := h
    exact bind_ok_eq_error.2 (derivePublicKey_refused hkey)
  | sign | signtx =>
    obtain ⟨hkey, rfl⟩ := h
    exact checkRange_bind_of_error hform (sign_refused hkey _)
  | pset =>
    obtain ⟨hcurve, rfl⟩ := h
    rw [← onCurve_iff_OnCurve, Bool.not_eq_true] at hcurve
    exact bind_ok_eq_error.2 (check_eq_error.2 ⟨hcurve, rfl⟩)
  | _ => cases h

end

/-! ## What a body raises is a failing check or a fatal failure -/

/-- The fatal failures of R195: those a command meets although its point operands are points of the curve. -/
inductive ReachableFatal (s : State) : Instr → Cause → Prop where
  | finv {rd rs1} : (s.getX rs1).toNat % Config.p = 0 → ReachableFatal s (.finv rd rs1) .fInvZero
  | sinv {rd rs1} : (s.getX rs1).toNat % Config.n = 0 → ReachableFatal s (.sinv rd rs1) .fInvZero
  | encu {ps1 off} : s.getPt ps1 = .inf → ReachableFatal s (.encu ps1 off) .fIdentity
  | encc {ps1 off} : s.getPt ps1 = .inf → ReachableFatal s (.encc ps1 off) .fIdentity
  | sign {rs1 rs2 off} : ReachableFatal s (.sign rs1 rs2 off) .fRetryNonce
  | signtx {rs1 rs2 off imm8} : ReachableFatal s (.signtx rs1 rs2 off imm8) .fRetryNonce
  | dpriv {rd rs1 rs2} : ReachableFatal s (.dpriv rd rs1 rs2) .fRetryKdf
  | keypair {rs1 rs2 off a b} : ReachableFatal s (.keypair rs1 rs2 off a b) .fRetryKdf

theorem ReachableFatal.isFatal {s : State} {i : Instr} {c : Cause} (h : ReachableFatal s i c) : c.isFatal = true := by
  cases h <;> rfl

/-- No check of R196 is a fatal failure. -/
theorem FirstFailure.isFatal_eq_false {w : Word32} {s : State} {c : Cause} (h : FirstFailure w s c) : c.isFatal = false := by
  cases h with
  | halted | illegal | len | range => rfl
  | @operands i _ _ _ _ h =>
    cases i with
    | dpriv | keypair => obtain ⟨-, rfl⟩ | ⟨-, -, rfl⟩ := h <;> rfl
    | dpub | sign | signtx | pset => obtain ⟨-, rfl⟩ := h; rfl
    | _ => cases h

/-- What a body raises: the first of the command's checks that fails, a fatal failure of R195, or an inverse of 0 in the group law,
which only a point off the curve can lead to. -/
theorem body_error_cases {w : Word32} {i : Instr} {s : State} {c : Cause} (hs : s.halted = false) (hw : decode w = .ok i)
    (h : bodyOf i s = .error c) :
    FirstFailure w s c ∨ ReachableFatal s i c ∨ (¬ s.PointsOnCurve ∧ c = .fInvZero) := by
  cases i with
  | nop | li | mov | fadd | fsub | fmul | fred | sadd | ssub | smul | sred | pinf | pgen | pmov | pgetx | pgety => cases h
  | ldw | stw | sha256 | sha256d | rmd160 | hash160 =>
    obtain ⟨hpast, rfl⟩ := check_eq_error.1 (bind_ok_eq_error.1 h)
    exact .inl (.range hs hw rfl hpast)
  | genaddr | genaddrt =>
    obtain hcheck | ⟨_, hcheck, hrest⟩ := bind_eq_error.1 h
    · obtain ⟨hlen, rfl⟩ := check_eq_error.1 hcheck
      exact .inl (.len hs hw hlen)
    · obtain ⟨hpast, rfl⟩ := check_eq_error.1 (bind_ok_eq_error.1 hrest)
      exact .inl (.range hs hw (check_eq_ok.1 hcheck) hpast)
  | pset =>
    obtain ⟨hcurve, rfl⟩ := check_eq_error.1 (bind_ok_eq_error.1 h)
    rw [← Bool.not_eq_true, onCurve_iff_OnCurve] at hcurve
    exact .inl (.operands hs hw rfl ⟨hcurve, rfl⟩)
  | dpub =>
    exact .inl (.operands hs hw rfl (derivePublicKey_eq_error (bind_ok_eq_error.1 h)))
  | finv | sinv =>
    obtain ⟨hzero, rfl⟩ := modInv_error (bind_ok_eq_error.1 h)
    exact .inr (.inl (by constructor; exact hzero))
  | padd =>
    have hadd := bind_ok_eq_error.1 h
    exact .inr (.inr ⟨fun hcurve => pointAdd_ne_error (hcurve _) (hcurve _) hadd, pointAdd_error hadd⟩)
  | pdbl =>
    have hdouble := bind_ok_eq_error.1 h
    exact .inr (.inr ⟨fun hcurve => pointDouble_ne_error (hcurve _) hdouble, pointDouble_error hdouble⟩)
  | pmul =>
    have hmul := bind_ok_eq_error.1 h
    exact .inr (.inr ⟨fun hcurve => scalarMultiply_ne_error (hcurve _) _ hmul, scalarMultiply_error hmul⟩)
  | encu =>
    obtain ⟨hpast, rfl⟩ | ⟨-, henc⟩ := checkRange_bind_eq_error h
    · exact .inl (.range hs hw rfl hpast)
    · obtain ⟨hinf, rfl⟩ := encodeUncompressed_error henc
      exact .inr (.inl (.encu hinf))
  | encc =>
    obtain ⟨hpast, rfl⟩ | ⟨-, henc⟩ := checkRange_bind_eq_error h
    · exact .inl (.range hs hw rfl hpast)
    · obtain ⟨hinf, rfl⟩ := encodeCompressed_error henc
      exact .inr (.inl (.encc hinf))
  | dpriv =>
    obtain hentropy | hsalt | ⟨-, -, rfl⟩ := derivePrivateKey_error (bind_ok_eq_error.1 h)
    · exact .inl (.operands hs hw rfl (.inl hentropy))
    · exact .inl (.operands hs hw rfl (.inr hsalt))
    · exact .inr (.inl .dpriv)
  | keypair =>
    obtain ⟨hpast, rfl⟩ | ⟨hin, hbytes⟩ := checkRange_bind_eq_error h
    · exact .inl (.range hs hw rfl hpast)
    obtain hentropy | hsalt | ⟨-, -, rfl⟩ := derivePrivateKey_error (keypairBytes_eq_error hbytes)
    · exact .inl (.operands hs hw hin (.inl hentropy))
    · exact .inl (.operands hs hw hin (.inr hsalt))
    · exact .inr (.inl .keypair)
  | sign | signtx =>
    obtain ⟨hpast, rfl⟩ | ⟨hin, hsign⟩ := checkRange_bind_eq_error h
    · exact .inl (.range hs hw rfl hpast)
    obtain hkey | rfl := sign_eq_error hsign
    · exact .inl (.operands hs hw hin hkey)
    · exact .inr (.inl (by constructor))

end Sys2Proof.Machine
end

section
/-! SUPPORT. What the three ways a command ends show from outside (R190 to R193, R196 [60_exceptions.md]): the halt and what it leaves
working, the code in `ERR`, and the order of a word's checks. -/

namespace Sys2Proof.Machine

/-! ## The halt -/

/-- A body that yields a state is a success: it has touched nothing a success keeps (R190). -/
theorem succeeded_body {i : Instr} {s u : State} (h : bodyOf i s = .ok u) : Succeeded s u.succeed := by
  obtain ⟨rd, v, -, -, -, rfl⟩ | ⟨pd, P, -, -, -, rfl⟩ | ⟨off, bs, -, -, -, -, rfl⟩ | ⟨-, -, -, rfl⟩ := body_ok h <;>
    exact succeeded_succeed rfl rfl rfl

/-- A command that leaves a running engine halted has raised a fatal failure (R190). -/
theorem exec_halts {i : Instr} {s t : State} (hs : s.halted = false) (h : exec i s = .next t) (ht : t.halted = true) :
    ∃ c, c.isFatal = true ∧ bodyOf i s = .error c ∧ Raised s t c := by
  obtain ⟨hhalted, -⟩ | ⟨-, u, hu, he⟩ | ⟨-, c, hc, he⟩ := exec_cases i s
  · simp [hs] at hhalted
  · cases he.symm.trans h
    simp [halted_succeed_body hu, hs] at ht
  · cases he.symm.trans h
    exact ⟨c, by simpa [halted_raise, hs] using ht, hc, raised_raise s c⟩

theorem issue_halted {s : State} (hs : s.halted = true) (w : Word32) : issue w s = .next (s.raise .eHalted) := if_pos hs

theorem hostWrite_keeps_halted {s t : State} {wa : BitVec 8} {d : Word32} (hs : s.halted = true)
    (h : hostWrite s wa d = .next t) : t.halted = true := by
  obtain ⟨i, j, -, he⟩ | ⟨k, -, he⟩ | ⟨-, he⟩ | he := hostWrite_cases s wa d
  · cases he.symm.trans h
    exact hs
  · cases he.symm.trans h
    exact hs
  · cases (issue_halted hs d).symm.trans (he.symm.trans h)
    rw [halted_raise, hs, Bool.true_or]
  · cases he.symm.trans h
    exact hs

/-- Only the reset event ends a halt (R193). -/
theorem step_keeps_halted {s t : State} (hs : s.halted = true) (h : step s = .next t)
    (hreset : ∀ rest, s.pending ≠ .reset :: rest) : t.halted = true := by
  obtain ⟨-, he⟩ | ⟨wa, rest, -, he⟩ | ⟨wa, d, rest, -, he⟩ | ⟨rest, hp, -⟩ := step_cases s
  · cases he.symm.trans h
    exact hs
  · cases he.symm.trans h
    exact hs
  · exact hostWrite_keeps_halted (s := { s with pending := rest }) hs (he.symm.trans h)
  · exact absurd hp (hreset rest)

theorem halted_resetEvent (s : State) : (resetEvent s).halted = false := by
  rw [State.halted, resetEvent_status]
  rfl

/-- The words of `x` and of `BUF` do not depend on `STATUS`, so neither does reading or writing them (R33, R193). -/
theorem storage_access_ignores_status (s : State) (st : Word32) {wa : BitVec 8} (hwa : wa.toNat < 192) :
    hostRead { s with status := st } wa = hostRead s wa ∧
      ∀ d, ∃ t, hostWrite s wa d = .next t ∧ hostWrite { s with status := st } wa d = .next { t with status := st } := by
  obtain ⟨i, j, hl, -⟩ | ⟨k, hl, -⟩ := locate_storage wa hwa
  · rw [hostRead_xWord _ hl, hostRead_xWord _ hl]
    exact ⟨rfl, fun d => ⟨_, hostWrite_xWord s hl d, hostWrite_xWord _ hl d⟩⟩
  · rw [hostRead_bufWord _ hl, hostRead_bufWord _ hl]
    exact ⟨rfl, fun d => ⟨_, hostWrite_bufWord s hl d, hostWrite_bufWord _ hl d⟩⟩

/-! ## Codes -/

/-- The causes in the order of the table of R191. -/
def Cause.all : List Cause :=
  [.eIllegal, .eRange, .eLen, .eNotOnCurve, .eEntropy, .eSalt, .ePrivkey, .fInvZero, .fIdentity, .fRetryNonce, .fRetryKdf, .eHalted]

/-- The table is read backwards: a cause is the one found by its code. -/
theorem Cause.find?_code (c : Cause) : Cause.all.find? (·.code == c.code) = some c := by cases c <;> rfl

theorem Cause.code_injective {c d : Cause} (h : c.code = d.code) : c = d :=
  Option.some.inj (by rw [← c.find?_code, h, d.find?_code])

/-- The code in `ERR` tells which cause a command raised: success has none of the codes, and no two causes share one (R191). -/
theorem exec_raised_of_err {i : Instr} {s t : State} {c : Cause} (h : exec i s = .next t) (herr : errOf t.status = c.code) :
    Raised s t c := by
  obtain ⟨d, rfl⟩ | ⟨u, -, rfl⟩ := exec_ends h
  · rw [State.raise_status, errOf_statusRaise] at herr
    exact Cause.code_injective herr ▸ raised_raise s d
  · rw [State.succeed_status, errOf_statusOk] at herr
    exact absurd herr.symm c.code_ne_zero

/-- A command leaves 0 in `ERR`, or the code of a cause the table lists for it (R191). -/
theorem exec_err {i : Instr} {s t : State} (h : exec i s = .next t) :
    errOf t.status = 0x00 ∨ ∃ c : Cause, errOf t.status = c.code ∧ c.raisedBy i := by
  obtain ⟨-, he⟩ | ⟨-, u, -, he⟩ | ⟨-, c, hc, he⟩ := exec_cases i s <;> cases he.symm.trans h
  · exact .inr ⟨.eHalted, errOf_statusRaise _ _, trivial⟩
  · exact .inl (errOf_statusOk _)
  · exact .inr ⟨c, errOf_statusRaise _ _, (body_error hc).1⟩

theorem knownCode_raise (s : State) (c : Cause) : KnownCode (errOf (s.raise c).status) := .inr ⟨c, errOf_statusRaise _ _⟩

theorem issue_knownCode {w : Word32} {s t : State} (h : issue w s = .next t) : KnownCode (errOf t.status) := by
  obtain ⟨-, he⟩ | ⟨-, i, -, he⟩ | ⟨-, -, he⟩ := issue_cases w s
  · cases he.symm.trans h
    exact knownCode_raise s .eHalted
  · obtain h0 | ⟨c, hc, -⟩ := exec_err (he.symm.trans h)
    · exact .inl h0
    · exact .inr ⟨c, hc⟩
  · cases he.symm.trans h
    exact knownCode_raise s .eIllegal

/-! ## The checks of a word -/

/-- The first check that fails is the one reported, and nothing but `STATUS` is written (R192, R196). -/
theorem FirstFailure.issue_raises {w : Word32} {s : State} {c : Cause} (h : FirstFailure w s c) :
    ∃ t, issue w s = .next t ∧ Raised s t c := by
  cases h with
  | halted hs => exact ⟨_, issue_halted hs w, raised_raise s .eHalted⟩
  | illegal hs hw =>
    obtain ⟨hillegal, -⟩ := illegalWordRaisesIllegal
    obtain ⟨t, hissue, hraised, -⟩ := hillegal w s hs hw
    exact ⟨t, hissue, hraised⟩
  | len hs hw hlen =>
    rw [issue_of_decode hw]
    exact exec_raises hs (body_of_lenOk_eq_false hlen)
  | range hs hw hlen hrange =>
    rw [issue_of_decode hw]
    exact exec_raises hs (body_of_rangesOk_eq_false hlen hrange)
  | operands hs hw hform hop =>
    rw [issue_of_decode hw]
    exact exec_raises hs (body_of_operandFailure hform hop)

/-- A word the decoder refuses matches no row of the opcode table (R55, R56). -/
theorem not_match_of_decode_error {w : Word32} {e : Illegal} (h : decode w = .error e) :
    ∀ r ∈ opcodeTable, w &&& r.mask ≠ r.pattern := by
  intro r hr hmatch
  obtain ⟨i, hi, -⟩ := decode_of_match hr hmatch
  cases h.symm.trans hi

/-- A word that passes every check succeeds or ends in a fatal failure (R196). -/
theorem issue_of_no_failure {w : Word32} {s : State} (h : ∀ c, ¬ FirstFailure w s c) :
    ∃ t, issue w s = .next t ∧ (Succeeded s t ∨ ∃ c : Cause, c.isFatal = true ∧ Raised s t c) := by
  obtain ⟨hs, -⟩ | ⟨hs, i, hw, hissue⟩ | ⟨hs, ⟨e, hw⟩, -⟩ := issue_cases w s
  · exact absurd (.halted hs) (h _)
  · rw [hissue]
    obtain ⟨hhalted, -⟩ | ⟨-, u, hu, he⟩ | ⟨-, c, hc, he⟩ := exec_cases i s
    · simp [hs] at hhalted
    · exact ⟨_, he, .inl (succeeded_body hu)⟩
    · refine ⟨_, he, .inr ⟨c, ?_, raised_raise s c⟩⟩
      obtain hfirst | hfatal | ⟨-, rfl⟩ := body_error_cases hs hw hc
      · exact absurd hfirst (h c)
      · exact hfatal.isFatal
      · rfl
  · exact absurd (.illegal hs (not_match_of_decode_error hw)) (h _)

end Sys2Proof.Machine
end

section
/-! PROOFS. Errors and fatal failures (R190 to R196 [60_exceptions.md]). -/

namespace Sys2Proof.Machine

/-- Settles O18: the body raised a fatal failure, which is no check of R196 and, on points of the curve, no inverse of 0 in the group
law; `ReachableFatal` lists what is left. -/
theorem reachableFatalFailures : Obligations.ReachableFatalFailures := by
  intro i s t hcurve hs hexec ht
  obtain ⟨c, hfatal, hbody, hraised⟩ := exec_halts hs hexec ht
  obtain hfirst | hreach | ⟨hoff, -⟩ := body_error_cases hs (decodeOfEncode i) hbody
  · simp [hfirst.isFatal_eq_false] at hfatal
  · cases hreach with
    | finv hzero => exact .inl ⟨_, _, rfl, hzero, hraised⟩
    | sinv hzero => exact .inr (.inl ⟨_, _, rfl, hzero, hraised⟩)
    | encu hinf => exact .inr (.inr (.inl ⟨_, _, .inl rfl, hinf, hraised⟩))
    | encc hinf => exact .inr (.inr (.inl ⟨_, _, .inr rfl, hinf, hraised⟩))
    | sign => exact .inr (.inr (.inr (.inl ⟨.inl ⟨_, _, _, rfl⟩, hraised⟩)))
    | signtx => exact .inr (.inr (.inr (.inl ⟨.inr ⟨_, _, _, _, rfl⟩, hraised⟩)))
    | dpriv => exact .inr (.inr (.inr (.inr ⟨.inl ⟨_, _, _, rfl⟩, hraised⟩)))
    | keypair => exact .inr (.inr (.inr (.inr ⟨.inr ⟨_, _, _, _, _, rfl⟩, hraised⟩)))
  · exact absurd hcurve hoff

/-- Settles O15: a body yields a state or raises a cause, and a cause is an error or a fatal failure. -/
theorem commandEndsInOneOfThreeWays : Obligations.CommandEndsInOneOfThreeWays := by
  refine ⟨fun i s => ?_, Cause.code_ne_zero, fun _ _ => Cause.code_injective⟩
  obtain ⟨t, h⟩ := exec_next i s
  refine ⟨t, h, ?_⟩
  obtain ⟨c, rfl⟩ | ⟨u, hu, rfl⟩ := exec_ends h
  · have hraised := raised_raise s c
    cases hc : c.isFatal with
    | false => exact .inr (.inl ⟨c, hc, hraised⟩)
    | true => exact .inr (.inr ⟨c, hc, hraised, (hraised.fatal hc).1⟩)
  · exact .inl (succeeded_body hu)

/-- Settles O16: the table of codes and classes by cases; what a command leaves in `ERR` is `exec_err`. -/
theorem resultCodesAndTheirCommands : Obligations.ResultCodesAndTheirCommands :=
  ⟨rfl, rfl, rfl, rfl, rfl, rfl, rfl, rfl, rfl, rfl, rfl, rfl, fun c => by cases c <;> decide,
    fun _ _ _ => exec_err, fun _ _ _ => issue_knownCode⟩

/-- Settles O17: `ERR` tells that the cause was raised (`exec_raised_of_err`), and the halt is what `step_keeps_halted` and the reset
value of `STATUS` say. -/
theorem fatalFailureHaltsUntilReset : Obligations.FatalFailureHaltsUntilReset := by
  refine ⟨fun i s t c hs hc hexec herr => ?_, fun w s hs => ⟨_, issue_halted hs w, raised_raise s .eHalted⟩,
    fun s st wa => storage_access_ignores_status s st, fun s d _ => ⟨rfl, rfl, rfl, rfl⟩,
    fun s t => step_keeps_halted, fun s t rest hp h => ?_⟩
  · have hraised := exec_raised_of_err hexec herr
    obtain ⟨hhalted, hfcode⟩ := hraised.fatal hc
    exact ⟨hraised, hhalted, hfcode.trans (if_neg (by simpa [State.halted] using hs))⟩
  · rw [step, hp] at h
    cases h
    exact halted_resetEvent _

/-- Settles O19: each check that fails first makes the word raise it, and past them all only fatal failures are left. -/
theorem firstFailingCheckIsReported : Obligations.FirstFailingCheckIsReported :=
  ⟨fun _ _ _ h => h.issue_raises, fun _ _ h => issue_of_no_failure h⟩

end Sys2Proof.Machine
end

section
/-! PROOFS. The reset event (R220 [70_reset_and_hazards.md]) and the words of the spec's examples. -/

namespace Sys2Proof.Machine

/-- The step on the reset event. -/
theorem step_of_reset {s : State} {rest : List HostEvent} (hp : s.pending = .reset :: rest) :
    step s = .next (resetEvent { s with pending := rest }) := by
  rw [step, hp]
  rfl

/-- Settles O14: a step on the reset event is `resetEvent`, whose hardware is that of `State.reset` whatever the state was (R22). -/
theorem resetEventClearsEverything : Obligations.ResetEventClearsEverything := fun _ _ hp =>
  ⟨_, step_of_reset hp, State.getX_reset, State.getPt_reset, State.byteAt_reset, resetEvent_status _, resetEvent_pending _,
    resetEvent_replies _⟩

/-- Settles O7: each example is the encoding of its command, and that word decodes to the command (`encodedAs_encode`). -/
theorem exampleWordsDecode : Obligations.ExampleWordsDecode := by
  unfold Obligations.ExampleWordsDecode
  and_intros <;> exact (encodedAs_encode _ _).2 (by decide)

end Sys2Proof.Machine
end
